-- ==== Sys2Proof/Word.lean ====
section
/-! DEFINITION. The word types of HUFFCORE: a CSR is 32 bits, a symbol and a BUF byte are 8 bits (00_scope.md R8, R11). -/

namespace Sys2Proof

/-- A 32-bit CSR value, BUF address or length (00_scope.md R11). -/
abbrev Word := BitVec 32

/-- One byte of BUF. -/
abbrev Byte := BitVec 8

/-- A symbol is one 8-bit code unit (00_scope.md R8). -/
abbrev Symbol := BitVec 8

end Sys2Proof
end

