-- ==== Sys2Proof/Config.lean ====
section
/-! DEFINITION. What a build of HUFFCORE fixes (00_scope.md R10) and the free values the spec leaves open. -/

namespace Sys2Proof

/-- The parameters a rule depends on (00_scope.md R10). A state carries them, so every statement quantifies over them.
DESIGN CHOICE (log 1), safe: they stand in State, which no step changes. -/
structure Config where
  /-- `P_BUF_BYTES`, the size of BUF in bytes. -/
  bufBytes : Nat
  /-- `P_WIRE_ENDIAN = BE`. -/
  wireBE : Bool
deriving DecidableEq, Repr

/-- The values this spec takes by default: 65536 bytes, LE (00_scope.md R10). -/
def Config.default : Config := { bufBytes := 65536, wireBE := false }

/-- The value of byte `a` of BUF in draw `d`, when the byte holds no defined value (20_memory.md R70,
40_command_common.md R137, 70_reset_and_hazards.md R305). Free: no body (log 3, log 4). -/
opaque Config.freeByte : (d : Nat) → (a : Nat) → Byte

/-- The value a result register reads in draw `d` while STATUS.BUSY = 1 (10_state.md R44). Free: no body (log 4). -/
opaque Config.freeWord : (d : Nat) → Word

/-- `P_HOST_BASE_CSR`: where the platform maps the CSR space. OPEN (20_memory.md R61), so it has no body (log 10). -/
opaque Config.hostBaseCsr : Nat

/-- `P_HOST_BASE_BUF`: where the platform maps BUF. OPEN (20_memory.md R61), so it has no body (log 10). -/
opaque Config.hostBaseBuf : Nat

/-- The host bus address of an offset of the CSR space. No rule depends on it (93_implementation_defined.md U14). -/
def Config.csrBusAddress (offset : Nat) : Nat := Config.hostBaseCsr + offset

/-- The host bus address of an address of BUF. No rule depends on it (93_implementation_defined.md U14). -/
def Config.bufBusAddress (address : Nat) : Nat := Config.hostBaseBuf + address

end Sys2Proof
end

