-- ==== Sys2Proof/Syntax.lean ====
section
/-! DEFINITION. The commands of HUFFCORE, one constructor per row of the opcode map (30_encoding.md R91). -/

namespace Sys2Proof

/-- A command. The word carries no operand (30_encoding.md R90): every operand is a CSR value read at completion (R93). -/
inductive Instr where
  /-- 0x00 NOP, 40_command_common.md R140. -/
  | nop
  /-- 0x01 FREQ_COUNT, 41_frequency_tree.md R150. -/
  | freqCount
  /-- 0x02 TREE_BUILD, 41_frequency_tree.md R152. -/
  | treeBuild
  /-- 0x03 CODE_ASSIGN, 42_code_assign.md R170. -/
  | codeAssign
  /-- 0x04 BIT_PACK, 43_bitpack.md R180. -/
  | bitPack
  /-- 0x05 BIT_UNPACK, 43_bitpack.md R181. -/
  | bitUnpack
  /-- 0x06 CB_SERIALIZE, 44_codebook.md R190. -/
  | cbSerialize
  /-- 0x07 CB_PARSE, 44_codebook.md R193. -/
  | cbParse
  /-- 0x08 PACK_CODES, 45_payload.md R210. -/
  | packCodes
  /-- 0x09 DECODE_PAYLOAD, 45_payload.md R211. -/
  | decodePayload
  /-- 0x0A ENCODE_FRAME, 45_payload.md R215. -/
  | encodeFrame
  /-- 0x0B DECODE_FRAME, 45_payload.md R216. -/
  | decodeFrame
deriving DecidableEq, Repr

end Sys2Proof
end

