-- ==== Sys2Proof/WellFormed.lean ====
section
/-! DEFINITION. The checks of what may be written down: a command, a command word, the parameters, a code. -/

namespace Sys2Proof

/-- Every command is well formed: the word has no operand field that could be out of range (30_encoding.md R90). -/
def Instr.wf : Instr → Bool
  | .nop | .freqCount | .treeBuild | .codeAssign | .bitPack | .bitUnpack
  | .cbSerialize | .cbParse | .packCodes | .decodePayload | .encodeFrame | .decodeFrame => true

/-- A command word selects a command only when RSV (bits 31:8) is 0 and OPC (bits 7:0) is at most 0x0B
(30_encoding.md R91, R92). -/
def commandWordLegal (w : Word) : Bool :=
  w.extractLsb' 8 24 == 0 && decide ((w.extractLsb' 0 8).toNat ≤ 0x0B)

/-- The legal values of the parameters: 1 to 2^28 bytes of BUF (00_scope.md R10). -/
def Config.legal (c : Config) : Bool :=
  decide (1 ≤ c.bufBytes) && decide (c.bufBytes ≤ 2 ^ 28)

/-- A code is a bit string of length 1 to 255 (00_scope.md R9). -/
def codeLegal (c : List Bool) : Bool :=
  decide (1 ≤ c.length) && decide (c.length ≤ 255)

end Sys2Proof
end

