-- ==== Sys2Proof/Decode.lean ====
section
/-! DEFINITION. The decoder and the encoder of the command word (30_encoding.md R90 to R92). -/

namespace Sys2Proof

/-- Why a word selects no command (30_encoding.md R92). -/
inductive DecodeError where
  /-- RSV, bits 31:8, is not 0. -/
  | reservedBitsSet
  /-- OPC, bits 7:0, is 0x0C to 0xFF. -/
  | unassignedOpcode
deriving DecidableEq, Repr

/-- The command an opcode selects (30_encoding.md R91). -/
def decodeOpcode (opc : Byte) : Option Instr :=
  match opc.toNat with
  | 0x00 => some .nop
  | 0x01 => some .freqCount
  | 0x02 => some .treeBuild
  | 0x03 => some .codeAssign
  | 0x04 => some .bitPack
  | 0x05 => some .bitUnpack
  | 0x06 => some .cbSerialize
  | 0x07 => some .cbParse
  | 0x08 => some .packCodes
  | 0x09 => some .decodePayload
  | 0x0A => some .encodeFrame
  | 0x0B => some .decodeFrame
  | _ => none

/-- Decoding a command word: total on all 2^32 words (30_encoding.md R90 to R92). The word is a 32-bit CSR value, never
a sequence of bytes (20_memory.md R62, R65; log 17). -/
def decodeWord (w : Word) : Except DecodeError Instr :=
  if w.extractLsb' 8 24 = 0 then
    match decodeOpcode (w.extractLsb' 0 8) with
    | some i => .ok i
    | none => .error .unassignedOpcode
  else .error .reservedBitsSet

/-- The opcode of a command (30_encoding.md R91). -/
def opcode : Instr → Byte
  | .nop => 0x00
  | .freqCount => 0x01
  | .treeBuild => 0x02
  | .codeAssign => 0x03
  | .bitPack => 0x04
  | .bitUnpack => 0x05
  | .cbSerialize => 0x06
  | .cbParse => 0x07
  | .packCodes => 0x08
  | .decodePayload => 0x09
  | .encodeFrame => 0x0A
  | .decodeFrame => 0x0B

/-- The word of a command: RSV = 0, then OPC (30_encoding.md R90). -/
def encode (i : Instr) : Word := (0 : BitVec 24) ++ opcode i

/-- The command the decoder reads from an opcode-table row's bits: `nbits` bits of `w`, the rest 0. -/
def decodeTableWord (nbits w : Nat) : Option Instr :=
  match decodeWord (BitVec.ofNat 32 (w % 2 ^ nbits)) with
  | .ok i => some i
  | .error _ => none

end Sys2Proof
end

