-- ==== Sys2Proof/Machine/Types.lean ====
section
/-! DEFINITION. The data HUFFCORE's state is made of: trees, code and frequency tables, error codes, registers by name, and
the events of the host port. -/

namespace Sys2Proof.Machine

/-- A tree position: absent, `Leaf(s)` or `Inner(l, r)` (00_scope.md R16). The root of every tree HUFFCORE holds is an
`inner` node; that is an invariant (Safety.lean), not part of the type. -/
inductive Tree where
  | absent
  | leaf (s : Symbol)
  | inner (l r : Tree)
deriving DecidableEq, Repr

/-- A bit string: the path from the root, 0 (false) = left, 1 (true) = right (10_state.md R39). -/
abbrev Code := List Bool

/-- FREQ[0..255], 32-bit counters (10_state.md R38). -/
abbrev FreqTable := Vector Word 256

/-- CODETAB[0..255]. An entry is its bit string; `len` is the string's length, and the empty string means no code
(10_state.md R39; DEDUCED, log 11, safe). -/
abbrev CodeTable := Vector Code 256

/-- The values ERRCODE takes (60_exceptions.md R271). "No other value is ever written", so the type has no other. -/
inductive ErrCode where
  | ok
  | illegalCmd
  | range
  | overlap
  | capacity
  | shortInput
  | unknownSymbol
  | malformedCodebook
  | truncatedStream
  | badPath
  | malformedFrame
deriving DecidableEq, Repr

/-- The registers of the CSR map (10_state.md, section 3). -/
inductive Csr where
  | id
  | version
  | cfg
  | bufSize
  | ctrl
  | status
  | cmd
  | errcode
  | errInfo
  | srcAddr
  | srcLen
  | dstAddr
  | dstCap
  | bitlen
  | outLen
  | inUsed
  | symCount
  | treeNodes
  | maxCodeLen
  | freq (s : Symbol)
deriving DecidableEq, Repr

/-- The widths of a host access: 8, 16 or 32 bits (20_memory.md R64). -/
inductive Width where
  | w8
  | w16
  | w32
deriving DecidableEq, Repr

/-- One host bus access (30_encoding.md R104). The CSR space is 4096 bytes, so an offset is 12 bits; a BUF address is 32
bits (00_scope.md R11). A write narrower than 32 bits carries its value in the low bits of `v` (log 13). -/
inductive Access where
  | csrRead (width : Width) (offset : BitVec 12)
  | csrWrite (width : Width) (offset : BitVec 12) (v : Word)
  | bufRead (width : Width) (address : Word)
  | bufWrite (width : Width) (address : Word) (v : Word)
deriving DecidableEq, Repr

/-- What the outside does next (00_scope.md R19; 20_memory.md R71): an access, a turn left to the command sequencer, or a
pulse on `rst_n` (70_reset_and_hazards.md R300; log 2, log 9). -/
inductive HostEvent where
  | access (a : Access)
  | turn
  | resetPulse
deriving DecidableEq, Repr

end Sys2Proof.Machine
end

