-- ==== Sys2Proof/Machine/Bits.lean ====
section
/-! DEFINITION. Bit strings in bytes, and wire integers: `ceil8`, `Pack`, `Unpack`, `WireU32`, `WireBytes32`
(00_scope.md R12, R15; 30_encoding.md R95, R96). -/

namespace Sys2Proof.Machine

/-- The number of bytes that hold `n` bits (00_scope.md R12). -/
def ceil8 (n : Nat) : Nat := (n + 7) / 8

/-- Byte `k` of `Pack(bits)`: bit `8k + j` of the string is bit `7 - j`, bits past the end are 0 (30_encoding.md R95). -/
def packByte (bits : List Bool) (k : Nat) : Byte :=
  BitVec.ofBoolListBE [bits.getD (8 * k) false, bits.getD (8 * k + 1) false, bits.getD (8 * k + 2) false,
    bits.getD (8 * k + 3) false, bits.getD (8 * k + 4) false, bits.getD (8 * k + 5) false,
    bits.getD (8 * k + 6) false, bits.getD (8 * k + 7) false]

/-- `Pack(bits)`: MSB-first, the final byte's unused low bits 0 (30_encoding.md R95). -/
def pack (bits : List Bool) : List Byte := (List.range (ceil8 bits.length)).map (packByte bits)

/-- Bit `i` of a packed byte string: bit `7 - i mod 8` of byte `i div 8` (30_encoding.md R96). -/
def packedBit (bytes : List Byte) (i : Nat) : Bool := (bytes.getD (i / 8) 0).getLsbD (7 - i % 8)

/-- `Unpack(P, n)`: the first `n` bits; callers establish `len(P) >= ceil8(n)` (30_encoding.md R96). -/
def unpack (bytes : List Byte) (n : Nat) : List Bool := (List.range n).map (packedBit bytes)

/-- The bit-per-byte stream: each byte is 0x00 or 0x01 (30_encoding.md R97). -/
def bitByte (b : Bool) : Byte := if b then 1 else 0

/-- A byte of the bit-per-byte stream read as a bit: bits 7:1 are ignored (30_encoding.md R97). -/
def byteBit (b : Byte) : Bool := b.getLsbD 0

/-- `WireU32` of the 4 bytes at the front of a byte string (00_scope.md R15). -/
def wireU32 (be : Bool) (b : List Byte) : Nat :=
  if be then
    (b.getD 3 0).toNat + 256 * (b.getD 2 0).toNat + 65536 * (b.getD 1 0).toNat + 16777216 * (b.getD 0 0).toNat
  else
    (b.getD 0 0).toNat + 256 * (b.getD 1 0).toNat + 65536 * (b.getD 2 0).toNat + 16777216 * (b.getD 3 0).toNat

/-- `WireBytes32`, the inverse, for `v < 2^32` (00_scope.md R15). -/
def wireBytes32 (be : Bool) (v : Nat) : List Byte :=
  if be then
    [BitVec.ofNat 8 (v / 16777216), BitVec.ofNat 8 (v / 65536), BitVec.ofNat 8 (v / 256), BitVec.ofNat 8 v]
  else
    [BitVec.ofNat 8 v, BitVec.ofNat 8 (v / 256), BitVec.ofNat 8 (v / 65536), BitVec.ofNat 8 (v / 16777216)]

end Sys2Proof.Machine
end

