-- ==== Sys2Proof/Machine/Memory.lean ====
section
/-! DEFINITION. BUF as a list of (address, byte) pairs: addresses strictly rising, an unlisted address holds no defined
value (20_memory.md R70). -/

namespace Sys2Proof.Machine

/-- BUF's bytes that hold a defined value, by address. -/
abbrev Memory := List Host.Cell

/-- The byte at an address, or none where it holds no defined value: never written since reset, or made unspecified
(20_memory.md R70; DESIGN CHOICE, log 3, safe). -/
def Memory.readByte : Memory → Nat → Option Byte
  | [], _ => none
  | (b, v) :: m, a => if a = b then some v else Memory.readByte m a

/-- Writing one byte, keeping the addresses rising. -/
def Memory.writeByte : Memory → Nat → Byte → Memory
  | [], a, v => [(a, v)]
  | (b, w) :: m, a, v =>
    if a < b then (a, v) :: (b, w) :: m
    else if a = b then (a, v) :: m
    else (b, w) :: Memory.writeByte m a v

/-- `MemWrite`: the bytes of a byte string at `a`, `a + 1`, ... (00_scope.md R14). -/
def Memory.writeBytes : Memory → Nat → List Byte → Memory
  | m, _, [] => m
  | m, a, v :: vs => Memory.writeBytes (Memory.writeByte m a v) (a + 1) vs

/-- Every byte of `[a, a + n)` becomes unspecified; no other byte changes (40_command_common.md R137). -/
def Memory.forget (m : Memory) (a n : Nat) : Memory :=
  m.filter fun c => decide (c.1 < a) || decide (a + n ≤ c.1)

/-- The canonical form: the addresses strictly rise. (An unlisted address holds no value, so no entry can equal it.) -/
def Memory.wf : Memory → Bool
  | [] => true
  | (a, _) :: m => m.all (fun c => decide (a < c.1)) && Memory.wf m

/-- Every listed address lies below `n`. -/
def Memory.below (m : Memory) (n : Nat) : Bool := m.all fun c => decide (c.1 < n)

end Sys2Proof.Machine
end

