-- ==== Sys2Proof/Machine/State.lean ====
section
/-! DEFINITION. The state of HUFFCORE (10_state.md), its reset (70_reset_and_hazards.md R300), and how a step can stop. -/

namespace Sys2Proof.Machine

/-- How a step faults: in no way. An error ends a command and the machine goes on (60_exceptions.md R270), and a host access
the spec does not define is refused (70_reset_and_hazards.md R312), so there is nothing to name. -/
inductive Fault where
deriving DecidableEq, Repr

/-- How a step is refused. -/
inductive Refusal where
  /-- An instruction with no meaning yet, by its mnemonic. No arm of exec answers with it. Safe. -/
  | notModelled (mnemonic : String)
  /-- Raised by a host CSR access that is not 32 bits wide: "not defined by this spec" (20_memory.md R62). Safe. -/
  | csrAccessWidth
  /-- Raised by a host CSR access at an offset that is no multiple of 4 (20_memory.md R62). Safe. -/
  | csrMisaligned
  /-- Raised by a 16-bit host BUF access at an odd address, or a 32-bit one at no multiple of 4 (20_memory.md R64). Safe. -/
  | bufMisaligned
  /-- Raised by a host BUF access that does not lie wholly below `P_BUF_BYTES`: "a model refuses it" (20_memory.md R64).
  Safe. -/
  | bufAddressAbsent
  /-- Raised by a host BUF write while STATUS.BUSY = 1: "a hazard: this spec gives no outcome"
  (70_reset_and_hazards.md R304). Safe. -/
  | bufWriteWhileBusy
deriving DecidableEq, Repr

/-- Everything the spec gives the machine, and three fields of the model's own (`inputs`, `readData`, `draws`). ID and
VERSION are constants and CFG, BUF_SIZE, SYM_COUNT, TREE_NODES, MAX_CODE_LEN and `irq` functions of these fields, so they
are read, not stored (10_state.md R22, R33 to R35; 60_exceptions.md R276). -/
structure State where
  /-- The parameters of the build (00_scope.md R10; log 1). -/
  cfg : Config
  /-- CTRL.IE (10_state.md R23). -/
  ie : Bool
  /-- STATUS.BUSY: a command is pending (10_state.md R24, R41). -/
  busy : Bool
  /-- STATUS.DONE (10_state.md R24). -/
  done : Bool
  /-- STATUS.ERR (10_state.md R24). -/
  err : Bool
  /-- STATUS.OVR (10_state.md R24, R45). -/
  ovr : Bool
  /-- CMD: the last command word accepted (10_state.md R25, R41). -/
  cmd : Word
  /-- ERRCODE (10_state.md R26). -/
  errcode : ErrCode
  /-- ERR_INFO (10_state.md R27). -/
  errInfo : Word
  /-- SRC_ADDR (10_state.md R28). -/
  srcAddr : Word
  /-- SRC_LEN (10_state.md R28). -/
  srcLen : Word
  /-- DST_ADDR (10_state.md R29). -/
  dstAddr : Word
  /-- DST_CAP (10_state.md R29). -/
  dstCap : Word
  /-- BITLEN (10_state.md R30). -/
  bitlen : Word
  /-- OUT_LEN (10_state.md R31). -/
  outLen : Word
  /-- IN_USED (10_state.md R32). -/
  inUsed : Word
  /-- FREQ[0..255] (10_state.md R38). -/
  freq : FreqTable
  /-- CODETAB[0..255] (10_state.md R39). -/
  codetab : CodeTable
  /-- TREE (10_state.md R40). -/
  tree : Tree
  /-- BUF (20_memory.md R60). -/
  buf : Memory
  /-- MODEL'S OWN: the host events still to come, the next one first (log 2). -/
  inputs : List HostEvent
  /-- MODEL'S OWN: the value the last host read returned on the host port (log 5). -/
  readData : Word
  /-- MODEL'S OWN: how many steps have drawn free values, so that each draw is fresh (log 4). -/
  draws : Nat
deriving DecidableEq, Repr

/-- The machine right after reset, for given parameters (70_reset_and_hazards.md R300). -/
def State.resetWith (c : Config) : State :=
  { cfg := c, ie := false, busy := false, done := false, err := false, ovr := false
    cmd := 0, errcode := .ok, errInfo := 0
    srcAddr := 0, srcLen := 0, dstAddr := 0, dstCap := 0, bitlen := 0, outLen := 0, inUsed := 0
    freq := Vector.replicate 256 0, codetab := Vector.replicate 256 [], tree := .inner .absent .absent
    buf := [], inputs := [], readData := 0, draws := 0 }

/-- The machine right after reset, for the parameters this spec takes (00_scope.md R10; 70_reset_and_hazards.md R300). -/
def State.reset : State := State.resetWith Config.default

end Sys2Proof.Machine
end

