-- ==== Sys2Proof/Machine/Flags.lean ====
section
/-! DEFINITION. The STATUS flags: the word they read as, what issue, completion, a host write and a locked write do to
them, and the interrupt line (10_state.md R24; 60_exceptions.md R276). -/

namespace Sys2Proof.Machine

/-- STATUS as read: bits 3:0 are OVR, ERR, DONE, BUSY, bits 31:4 read 0 (10_state.md R24). -/
def State.statusWord (s : State) : Word := BitVec.zeroExtend 32 (BitVec.ofBoolListBE [s.ovr, s.err, s.done, s.busy])

/-- CTRL as read: bit 0 is IE, bits 31:1 read 0 (10_state.md R23). -/
def State.ctrlWord (s : State) : Word := BitVec.zeroExtend 32 (BitVec.ofBool s.ie)

/-- The interrupt line, a level (60_exceptions.md R276). -/
def State.irq (s : State) : Bool := s.ie && s.done

/-- The flags at issue; OVR is unchanged (40_command_common.md R130). -/
def State.flagsAtIssue (s : State) : State := { s with busy := true, done := false, err := false }

/-- The flags at a completion: `failed` says whether the command ended with an error (40_command_common.md R134, R137). -/
def State.flagsAtCompletion (s : State) (failed : Bool) : State := { s with busy := false, done := true, err := failed }

/-- A host write to STATUS: writing 1 clears DONE, ERR, OVR; BUSY is read-only (10_state.md R24). -/
def State.writeStatus (s : State) (v : Word) : State :=
  { s with done := s.done && !v.getLsbD 1, err := s.err && !v.getLsbD 2, ovr := s.ovr && !v.getLsbD 3 }

/-- A host write to CTRL: only IE is writable (10_state.md R23). -/
def State.writeCtrl (s : State) (v : Word) : State := { s with ie := v.getLsbD 0 }

/-- A host write to a busy-locked CSR was ignored (10_state.md R45). -/
def State.setOvr (s : State) : State := { s with ovr := true }

end Sys2Proof.Machine
end

