-- ==== Sys2Proof/Machine/Operands.lean ====
section
/-! DEFINITION. The operands of a command: which regions it uses, the bytes of a region, and the pre-checks of its regions
(30_encoding.md R91, R93; 40_command_common.md R133). -/

namespace Sys2Proof.Machine

/-- Does the command use the source region (30_encoding.md R91)? -/
def usesSrc : Instr → Bool
  | .nop => false
  | .freqCount => true
  | .treeBuild => false
  | .codeAssign => false
  | .bitPack => true
  | .bitUnpack => true
  | .cbSerialize => false
  | .cbParse => true
  | .packCodes => true
  | .decodePayload => true
  | .encodeFrame => true
  | .decodeFrame => true

/-- Does the command use the destination region (30_encoding.md R91)? -/
def usesDst : Instr → Bool
  | .nop => false
  | .freqCount => false
  | .treeBuild => false
  | .codeAssign => false
  | .bitPack => true
  | .bitUnpack => true
  | .cbSerialize => true
  | .cbParse => false
  | .packCodes => true
  | .decodePayload => true
  | .encodeFrame => true
  | .decodeFrame => true

/-- The source region does not lie inside BUF; the sum is exact (20_memory.md R68; 40_command_common.md R133). -/
def State.srcOutside (s : State) : Bool := decide (s.cfg.bufBytes < s.srcAddr.toNat + s.srcLen.toNat)

/-- The destination region does not lie inside BUF (20_memory.md R68; 40_command_common.md R133). -/
def State.dstOutside (s : State) : Bool := decide (s.cfg.bufBytes < s.dstAddr.toNat + s.dstCap.toNat)

/-- The two regions intersect (40_command_common.md R133). -/
def State.regionsOverlap (s : State) : Bool :=
  decide (0 < s.srcLen.toNat) && decide (0 < s.dstCap.toNat)
    && decide (s.srcAddr.toNat < s.dstAddr.toNat + s.dstCap.toNat)
    && decide (s.dstAddr.toNat < s.srcAddr.toNat + s.srcLen.toNat)

/-- The region pre-checks in order; the first that fails gives its error and ERR_INFO (40_command_common.md R133). The
illegal-word check comes before them, when the word is decoded (Machine/Sequencer.lean). -/
def preCheck (i : Instr) (s : State) : Option (ErrCode × Word) :=
  if usesSrc i && s.srcOutside then some (.range, 0)
  else if usesDst i && s.dstOutside then some (.range, 1)
  else if usesSrc i && usesDst i && s.regionsOverlap then some (.overlap, 0)
  else none

/-- `BUF[a]` as a step reads it: its value, or a free draw where it holds no defined value (20_memory.md R70; log 3). -/
def State.byteAt (s : State) (a : Nat) : Byte := (s.buf.readByte a).getD (Config.freeByte s.draws a)

/-- `MemRead(a, n)` (00_scope.md R14). -/
def State.memRead (s : State) (a n : Nat) : List Byte := (List.range n).map fun k => s.byteAt (a + k)

/-- The bytes of the source region, `MemRead(SRC_ADDR, SRC_LEN)`. -/
def State.source (s : State) : List Byte := s.memRead s.srcAddr.toNat s.srcLen.toNat

/-- `MemRead(SRC_ADDR, n)`: the first `n` bytes of the source region. -/
def State.sourceFront (s : State) (n : Nat) : List Byte := s.memRead s.srcAddr.toNat n

/-- Does address `a` lie in `[DST_ADDR, DST_ADDR + DST_CAP)`? -/
def State.inDst (s : State) (a : Nat) : Bool :=
  decide (s.dstAddr.toNat ≤ a) && decide (a < s.dstAddr.toNat + s.dstCap.toNat)

end Sys2Proof.Machine
end

