-- ==== Sys2Proof/Machine/Ops.lean ====
section
/-! DEFINITION. The shared operations of the command protocol: issue, and the three ways a command completes (success, an
error of the pre-checks, an error of its own pseudocode). HUFFCORE has no traps: completing with an error is its one form
of exception, and there is no return from it (60_exceptions.md R270, R278). -/

namespace Sys2Proof.Machine

/-- ERRCODE's value for an error (60_exceptions.md R271). -/
def errCodeValue : ErrCode → Byte
  | .ok => 0x00
  | .illegalCmd => 0x01
  | .range => 0x02
  | .overlap => 0x03
  | .capacity => 0x04
  | .shortInput => 0x05
  | .unknownSymbol => 0x10
  | .malformedCodebook => 0x11
  | .truncatedStream => 0x12
  | .badPath => 0x13
  | .malformedFrame => 0x14

/-- Issue of the word `w` (40_command_common.md R130). -/
def State.issue (s : State) (w : Word) : State :=
  { s.flagsAtIssue with cmd := w, errcode := .ok, errInfo := 0 }

/-- What every completion writes: the error registers, the two lengths, the flags. Each completion is a draw of its own
(40_command_common.md R134, R135, R137; log 4). -/
def State.close (s : State) (e : ErrCode) (info outLen inUsed : Word) : State :=
  { s.flagsAtCompletion (decide (e ≠ .ok)) with
    errcode := e, errInfo := info, outLen := outLen, inUsed := inUsed, draws := s.draws + 1 }

/-- Writing a command's output at DST_ADDR (00_scope.md R14; 40_command_common.md R136). -/
def State.storeOut (s : State) (out : List Byte) : State :=
  { s with buf := s.buf.writeBytes s.dstAddr.toNat out }

/-- Every byte of `[DST_ADDR, DST_ADDR + DST_CAP)` becomes unspecified (40_command_common.md R137; log 6). -/
def State.forgetDst (s : State) : State :=
  { s with buf := s.buf.forget s.dstAddr.toNat s.dstCap.toNat }

/-- Successful completion: the output is written, OUT_LEN is its length (40_command_common.md R134, R136). -/
def State.succeed (s : State) (out : List Byte) (inUsed : Nat) : State :=
  (s.storeOut out).close .ok 0 (BitVec.ofNat 32 out.length) (BitVec.ofNat 32 inUsed)

/-- Completion with an error of the pre-checks: BUF and the internal state are unchanged (40_command_common.md R138). -/
def State.failPre (s : State) (e : ErrCode) (info : Word) : State := s.close e info 0 0

/-- Completion with an error of the command's own pseudocode (40_command_common.md R137). -/
def State.failRun (s : State) (e : ErrCode) (info : Nat) : State :=
  s.forgetDst.close e (BitVec.ofNat 32 info) 0 0

/-- How a command's own pseudocode ends. -/
inductive Ending where
  /-- Without `raise`: the registers and internal state it wrote, its output and the source bytes it consumed. -/
  | success (s : State) (out : List Byte) (inUsed : Nat)
  /-- `raise e(info)`: the internal state the command rule states for the error. -/
  | error (s : State) (e : ErrCode) (info : Nat)

/-- The completion an ending gives (40_command_common.md R134, R137). -/
def Ending.finish : Ending → State
  | .success s out inUsed => s.succeed out inUsed
  | .error s e info => s.failRun e info

/-- The completion step of command `i`: the pre-checks, then its pseudocode (40_command_common.md R132, R133). Every
issued command completes: the outcome is always a next state. -/
def completion (i : Instr) (pseudocode : State → Ending) (s : State) : Host.Outcome State Fault Refusal :=
  match preCheck i s with
  | some (e, info) => .next (s.failPre e info)
  | none => .next (pseudocode s).finish

end Sys2Proof.Machine
end

