-- ==== Sys2Proof/Machine/BitPack.lean ====
section
/-! DEFINITION. BIT_PACK and BIT_UNPACK (43_bitpack.md). -/

namespace Sys2Proof.Machine

/-- BIT_PACK after the pre-checks (43_bitpack.md R180). -/
def bitPackEnding (s : State) : Ending :=
  let packed := pack (s.source.map byteBit)
  if s.dstCap.toNat < packed.length then .error s .capacity 0
  else .success { s with bitlen := s.srcLen } packed s.srcLen.toNat

/-- BIT_PACK (43_bitpack.md R180). -/
def execBitPack (s : State) : Host.Outcome State Fault Refusal := completion .bitPack bitPackEnding s

/-- BIT_UNPACK after the pre-checks (43_bitpack.md R181). -/
def bitUnpackEnding (s : State) : Ending :=
  let n := s.bitlen.toNat
  if 8 * s.srcLen.toNat < n then .error s .shortInput 0
  else if s.dstCap.toNat < n then .error s .capacity 0
  else .success s ((unpack (s.sourceFront (ceil8 n)) n).map bitByte) (ceil8 n)

/-- BIT_UNPACK (43_bitpack.md R181). -/
def execBitUnpack (s : State) : Host.Outcome State Fault Refusal := completion .bitUnpack bitUnpackEnding s

end Sys2Proof.Machine
end

