-- ==== Sys2Proof/Machine/Tables.lean ====
section
/-! DEFINITION. Reading the tables and the tree: entries by symbol, the alphabet of symbols, children, nodes and leaf paths
(00_scope.md R16; 10_state.md R33 to R40). -/

namespace Sys2Proof.Machine

/-- The symbols 0x00 to 0xFF, ascending. -/
def allSymbols : List Symbol := (List.range 256).map (BitVec.ofNat 8)

/-- `FREQ[s]` (10_state.md R38). -/
def countOf (f : FreqTable) (s : Symbol) : Word := f[s.toNat]'s.isLt

/-- `FREQ[s] <- v`. -/
def setCount (f : FreqTable) (s : Symbol) (v : Word) : FreqTable := f.set s.toNat v s.isLt

/-- The all-zero frequency table. -/
def noCounts : FreqTable := Vector.replicate 256 0

/-- The bit string of `CODETAB[s]`; empty where s has no code (10_state.md R39). -/
def codeOf (t : CodeTable) (s : Symbol) : Code := t[s.toNat]'s.isLt

/-- `CODETAB[s] <- (len(c), c)`. -/
def setCode (t : CodeTable) (s : Symbol) (c : Code) : CodeTable := t.set s.toNat c s.isLt

/-- The code table with every entry `(0, [])`. -/
def noCodes : CodeTable := Vector.replicate 256 []

/-- The symbols with a code, ascending. -/
def codedSymbols (t : CodeTable) : List Symbol := allSymbols.filter fun s => !(codeOf t s).isEmpty

/-- SYM_COUNT (10_state.md R33). -/
def symCount (t : CodeTable) : Nat := (codedSymbols t).length

/-- MAX_CODE_LEN: the largest length, 0 when every entry is empty (10_state.md R35). -/
def maxCodeLen (t : CodeTable) : Nat := (allSymbols.map fun s => (codeOf t s).length).foldl max 0

/-- The empty root `Inner(absent, absent)` (00_scope.md R16). -/
def emptyRoot : Tree := .inner .absent .absent

/-- `child(node, b)`; only an `Inner` node has children (00_scope.md R16; log 14). -/
def Tree.child : Tree → Bool → Tree
  | .inner l _, false => l
  | .inner _ r, true => r
  | _, _ => .absent

/-- Setting `child(node, b)`, of an `Inner` node (44_codebook.md R197; log 14). -/
def Tree.setChild : Tree → Bool → Tree → Tree
  | .inner _ r, false, k => .inner k r
  | .inner l _, true, k => .inner l k
  | t, _, _ => t

/-- `nodes(t)` (00_scope.md R16). -/
def Tree.nodes : Tree → Nat
  | .absent => 0
  | .leaf _ => 1
  | .inner l r => 1 + l.nodes + r.nodes

/-- Is it an `Inner` node? -/
def Tree.isInner : Tree → Bool
  | .inner _ _ => true
  | _ => false

/-- The leaves with their paths, left before right (42_code_assign.md R170, R171). -/
def Tree.paths : Tree → List (Symbol × Code)
  | .absent => []
  | .leaf s => [(s, [])]
  | .inner l r => (l.paths.map fun p => (p.1, false :: p.2)) ++ (r.paths.map fun p => (p.1, true :: p.2))

/-- The position a bit string leads to from a node (00_scope.md R16; 45_payload.md R212). -/
def Tree.follow : Tree → Code → Tree
  | t, [] => t
  | t, b :: c => (t.child b).follow c

/-- Strict binary: every `Inner` node has two present children (41_frequency_tree.md R159). -/
def Tree.strict : Tree → Bool
  | .absent => false
  | .leaf _ => true
  | .inner l r => l.strict && r.strict

end Sys2Proof.Machine
end

