-- ==== Sys2Proof/Machine/CodeAssign.lean ====
section
/-! DEFINITION. CODE_ASSIGN, the tree walker (42_code_assign.md). -/

namespace Sys2Proof.Machine

/-- `Walk(node, p)`: the leaf's path becomes its symbol's code (42_code_assign.md R170). -/
def walkCodes : Tree → Code → CodeTable → CodeTable
  | .absent, _, tab => tab
  | .leaf s, p, tab => setCode tab s p
  | .inner l r, p, tab => walkCodes r (p ++ [true]) (walkCodes l (p ++ [false]) tab)

/-- The codebook of a tree, from the empty table (42_code_assign.md R170). -/
def assignCodes (t : Tree) : CodeTable := walkCodes t [] noCodes

/-- CODE_ASSIGN after the pre-checks (42_code_assign.md R170). -/
def codeAssignEnding (s : State) : Ending := .success { s with codetab := assignCodes s.tree } [] 0

/-- CODE_ASSIGN (42_code_assign.md R170). -/
def execCodeAssign (s : State) : Host.Outcome State Fault Refusal := completion .codeAssign codeAssignEnding s

end Sys2Proof.Machine
end

