-- ==== Sys2Proof/Machine/Codebook.lean ====
section
/-! DEFINITION. CB_SERIALIZE and CB_PARSE (44_codebook.md). -/

namespace Sys2Proof.Machine

/-- One entry of the block: symbol, code length, code bytes (30_encoding.md R100; 44_codebook.md R191). -/
def serializeEntry (tab : CodeTable) (s : Symbol) : List Byte :=
  s :: BitVec.ofNat 8 (codeOf tab s).length :: pack (codeOf tab s)

/-- `SerializeBlock(CODETAB)`: the count, then the entries in ascending symbol order (44_codebook.md R191). -/
def serializeBlock (be : Bool) (tab : CodeTable) : List Byte :=
  wireBytes32 be (codedSymbols tab).length ++ (codedSymbols tab).flatMap (serializeEntry tab)

/-- CB_SERIALIZE after the pre-checks (44_codebook.md R190). -/
def cbSerializeEnding (s : State) : Ending :=
  let block := serializeBlock s.cfg.wireBE s.codetab
  if s.dstCap.toNat < block.length then .error s .capacity 0
  else .success s block 0

/-- CB_SERIALIZE (44_codebook.md R190). -/
def execCbSerialize (s : State) : Host.Outcome State Fault Refusal := completion .cbSerialize cbSerializeEnding s

/-- `Insert(T, s, c)`: a leaf at the path c, or failure where the path passes through a leaf or the last slot is taken
(44_codebook.md R197). A code is never empty (00_scope.md R9). -/
def insertLeaf (s : Symbol) : Code → Tree → Option Tree
  | [], _ => none
  | [b], t =>
    match t.child b with
    | .absent => some (t.setChild b (.leaf s))
    | _ => none
  | b :: b' :: c, t =>
    match t.child b with
    | .absent => (insertLeaf s (b' :: c) emptyRoot).map (t.setChild b)
    | .leaf _ => none
    | .inner l r => (insertLeaf s (b' :: c) (.inner l r)).map (t.setChild b)

/-- What a block parses to: the decode tree, the codebook, the bytes consumed. -/
structure ParsedBlock where
  tree : Tree
  codetab : CodeTable
  used : Nat

/-- The entry stage: `left` entries to go, the next has index `e` and starts at offset `p`, where the bytes `rest` begin
(44_codebook.md R195). -/
def parseEntries : (left e p : Nat) → (rest : List Byte) → Tree → CodeTable → Except (ErrCode × Nat) ParsedBlock
  | 0, _, p, _, t, tab => .ok { tree := t, codetab := tab, used := p }
  | left + 1, e, p, rest, t, tab =>
    match rest with
    | [] => .error (.shortInput, p)
    | [_] => .error (.shortInput, p + 1)
    | s :: len :: body =>
      let nb := ceil8 len.toNat
      if len.toNat = 0 then .error (.malformedCodebook, e)
      else if body.length < nb then .error (.shortInput, p + 2)
      else if (codeOf tab s).length ≠ 0 then .error (.malformedCodebook, e)
      else
        let c := unpack (body.take nb) len.toNat
        match insertLeaf s c t with
        | none => .error (.malformedCodebook, e)
        | some t' => parseEntries left (e + 1) (p + 2 + nb) (body.drop nb) t' (setCode tab s c)

/-- `ParseBlock` on the bytes of the source region (44_codebook.md R194, R195; what a success gives: R199). Only the bytes its pseudocode reads
matter (20_memory.md R69). -/
def parseBlock (be : Bool) (src : List Byte) : Except (ErrCode × Nat) ParsedBlock :=
  if src.length < 4 then .error (.shortInput, 0)
  else if 256 < wireU32 be src then .error (.malformedCodebook, 0xFFFFFFFF)
  else parseEntries (wireU32 be src) 0 4 (src.drop 4) emptyRoot noCodes

/-- The state after a ParseBlock error: the empty root and the empty codebook (44_codebook.md R198). -/
def State.clearCodebook (s : State) : State := { s with tree := emptyRoot, codetab := noCodes }

/-- TREE and CODETAB take the parsed codebook (44_codebook.md R193). -/
def State.loadCodebook (s : State) (b : ParsedBlock) : State := { s with tree := b.tree, codetab := b.codetab }

/-- CB_PARSE after the pre-checks (44_codebook.md R193, R198). -/
def cbParseEnding (s : State) : Ending :=
  match parseBlock s.cfg.wireBE s.source with
  | .error (e, info) => .error s.clearCodebook e info
  | .ok b => .success (s.loadCodebook b) [] b.used

/-- CB_PARSE (44_codebook.md R193). -/
def execCbParse (s : State) : Host.Outcome State Fault Refusal := completion .cbParse cbParseEnding s

end Sys2Proof.Machine
end

