-- ==== Sys2Proof/Machine/Common.lean ====
section
/-! DEFINITION. NOP, and the completion of an illegal command word (40_command_common.md, section 3). -/

namespace Sys2Proof.Machine

/-- NOP: no effect after the pre-checks (40_command_common.md R140). -/
def nopEnding (s : State) : Ending := .success s [] 0

/-- NOP (40_command_common.md R140). -/
def execNop (s : State) : Host.Outcome State Fault Refusal := completion .nop nopEnding s

/-- An illegal word: `raise ILLEGAL_CMD(w)` from the first pre-check (40_command_common.md R133, R141). -/
def illegalCompletion (s : State) : State := s.failPre .illegalCmd s.cmd

end Sys2Proof.Machine
end

