-- ==== Sys2Proof/Machine/FrequencyTree.lean ====
section
/-! DEFINITION. FREQ_COUNT and TREE_BUILD (41_frequency_tree.md). -/

namespace Sys2Proof.Machine

/-- The counts of a text's symbols, from zero (41_frequency_tree.md R150). -/
def countSymbols (text : List Byte) : FreqTable :=
  text.foldl (fun f s => setCount f s (countOf f s + 1)) noCounts

/-- FREQ_COUNT after the pre-checks (41_frequency_tree.md R150). -/
def freqCountEnding (s : State) : Ending :=
  .success { s with freq := countSymbols s.source } [] s.srcLen.toNat

/-- FREQ_COUNT (41_frequency_tree.md R150). -/
def execFreqCount (s : State) : Host.Outcome State Fault Refusal := completion .freqCount freqCountEnding s

/-- The alphabet: the symbols present, ascending (41_frequency_tree.md R152). -/
def alphabet (f : FreqTable) : List Symbol := allSymbols.filter fun s => decide (0 < (countOf f s).toNat)

/-- A queue entry `(f, q, node)` (41_frequency_tree.md R153). -/
structure QueueEntry where
  freq : Nat
  seq : Nat
  node : Tree
deriving DecidableEq, Repr

/-- Smaller frequency first, then smaller sequence number (41_frequency_tree.md R153). -/
def QueueEntry.before (a b : QueueEntry) : Bool :=
  decide (a.freq < b.freq) || (decide (a.freq = b.freq) && decide (a.seq < b.seq))

/-- Insertion into a queue kept in extraction order: R158 lets a model use a sorted list for the heap. -/
def enqueue (e : QueueEntry) : List QueueEntry → List QueueEntry
  | [] => [e]
  | x :: q => if e.before x then e :: x :: q else x :: enqueue e q

/-- The leaves, numbered from `k` in the order of the symbols, as a queue (41_frequency_tree.md R153). -/
def leafQueue (f : FreqTable) : List Symbol → Nat → List QueueEntry
  | [], _ => []
  | s :: ss, k => enqueue ⟨(countOf f s).toNat, k, .leaf s⟩ (leafQueue f ss (k + 1))

/-- The merge loop: the first node taken becomes the left child, the second the right; a merged node gets the next
sequence number (41_frequency_tree.md R154, R155). `steps` bounds the loop, which runs once less than there are entries. -/
def mergeLoop : (steps next : Nat) → List QueueEntry → Tree
  | steps + 1, next, a :: b :: q =>
    mergeLoop steps (next + 1) (enqueue ⟨a.freq + b.freq, next, .inner a.node b.node⟩ q)
  | _, _, a :: _ => a.node
  | _, _, [] => emptyRoot

/-- `BuildTree(FREQ)`: the empty root for no symbol, a root with one left leaf for one symbol, the merge loop for two or
more (41_frequency_tree.md R155 to R157). -/
def buildTree (f : FreqTable) : Tree :=
  match alphabet f with
  | [] => emptyRoot
  | [s] => .inner (.leaf s) .absent
  | ss => mergeLoop ss.length ss.length (leafQueue f ss 0)

/-- TREE_BUILD after the pre-checks (41_frequency_tree.md R152). -/
def treeBuildEnding (s : State) : Ending := .success { s with tree := buildTree s.freq } [] 0

/-- TREE_BUILD (41_frequency_tree.md R152). -/
def execTreeBuild (s : State) : Host.Outcome State Fault Refusal := completion .treeBuild treeBuildEnding s

end Sys2Proof.Machine
end

