-- ==== Sys2Proof/Machine/Payload.lean ====
section
/-! DEFINITION. PACK_CODES, DECODE_PAYLOAD, ENCODE_FRAME and DECODE_FRAME (45_payload.md). -/

namespace Sys2Proof.Machine

/-- The codes of a text's symbols, concatenated in order (45_payload.md R210, R215). -/
def textBits (tab : CodeTable) (text : List Byte) : List Bool := text.flatMap (codeOf tab)

/-- The offset of the first symbol that has no code, counting from `i` (45_payload.md R210). -/
def firstUncoded (tab : CodeTable) : (i : Nat) → List Byte → Option Nat
  | _, [] => none
  | i, b :: text => if (codeOf tab b).length = 0 then some i else firstUncoded tab (i + 1) text

/-- PACK_CODES after the pre-checks: UNKNOWN_SYMBOL over the whole text, then CAPACITY (45_payload.md R210). -/
def packCodesEnding (s : State) : Ending :=
  match firstUncoded s.codetab 0 s.source with
  | some i => .error s .unknownSymbol i
  | none =>
    let bits := textBits s.codetab s.source
    let packed := pack bits
    if s.dstCap.toNat < packed.length then .error s .capacity 0
    else .success { s with bitlen := BitVec.ofNat 32 bits.length } packed s.srcLen.toNat

/-- PACK_CODES (45_payload.md R210). -/
def execPackCodes (s : State) : Host.Outcome State Fault Refusal := completion .packCodes packCodesEnding s

/-- `WalkDecode` from a node: `k` symbols are decoded, the next bit has index `j`, the code walked began at bit `start`.
The walk stands at the root exactly when `start = j` (45_payload.md R212 to R214; log 15). It gives the symbols decoded
from here on. -/
def walkDecode (root : Tree) (cap : Nat) : (node : Tree) → (k j start : Nat) → List Bool → Except (ErrCode × Nat) (List Symbol)
  | _, _, j, start, [] => if start = j then .ok [] else .error (.truncatedStream, start)
  | node, k, j, start, b :: bits =>
    match node.child b with
    | .absent => .error (.badPath, j)
    | .leaf s =>
      if cap ≤ k then .error (.capacity, 0)
      else (walkDecode root cap root (k + 1) (j + 1) (j + 1) bits).map (s :: ·)
    | .inner l r => walkDecode root cap (.inner l r) k (j + 1) start bits

/-- `WalkDecode(T, bits, DST_ADDR, cap)`: the symbols written, in order (45_payload.md R212). -/
def decodeBits (t : Tree) (cap : Nat) (bits : List Bool) : Except (ErrCode × Nat) (List Symbol) :=
  walkDecode t cap t 0 0 0 bits

/-- DECODE_PAYLOAD after the pre-checks (45_payload.md R211). -/
def decodePayloadEnding (s : State) : Ending :=
  let n := s.bitlen.toNat
  if 8 * s.srcLen.toNat < n then .error s .shortInput 0
  else
    match decodeBits s.tree s.dstCap.toNat (unpack (s.sourceFront (ceil8 n)) n) with
    | .error (e, info) => .error s e info
    | .ok out => .success s out (ceil8 n)

/-- DECODE_PAYLOAD (45_payload.md R211). -/
def execDecodePayload (s : State) : Host.Outcome State Fault Refusal := completion .decodePayload decodePayloadEnding s

/-- The frame of a text under a codebook: block, bit length, payload byte length, payload (30_encoding.md R101;
45_payload.md R215). -/
def frameOf (be : Bool) (tab : CodeTable) (text : List Byte) : List Byte :=
  serializeBlock be tab ++ wireBytes32 be (textBits tab text).length
    ++ wireBytes32 be (pack (textBits tab text)).length ++ pack (textBits tab text)

/-- FREQ, TREE and CODETAB rebuilt from the source text (45_payload.md R215). -/
def State.rebuildFromSource (s : State) : State :=
  { s with
    freq := countSymbols s.source
    tree := buildTree (countSymbols s.source)
    codetab := assignCodes (buildTree (countSymbols s.source)) }

/-- ENCODE_FRAME after the pre-checks; the rebuilt FREQ, TREE and CODETAB stay on CAPACITY too (45_payload.md R215). -/
def encodeFrameEnding (s : State) : Ending :=
  let r := s.rebuildFromSource
  let frame := frameOf s.cfg.wireBE r.codetab s.source
  if s.dstCap.toNat < frame.length then .error r .capacity 0
  else .success { r with bitlen := BitVec.ofNat 32 (textBits r.codetab s.source).length } frame s.srcLen.toNat

/-- ENCODE_FRAME (45_payload.md R215). -/
def execEncodeFrame (s : State) : Host.Outcome State Fault Refusal := completion .encodeFrame encodeFrameEnding s

/-- `FrameTail`: the two length fields at offset `q` of a source region of `src.length` bytes (45_payload.md R217). -/
def frameTail (be : Bool) (src : List Byte) (q : Nat) : Except (ErrCode × Nat) (Nat × Nat) :=
  if src.length < q + 4 then .error (.shortInput, q)
  else if src.length < q + 8 then .error (.shortInput, q + 4)
  else
    let bl := wireU32 be (src.drop q)
    let pl := wireU32 be (src.drop (q + 4))
    if pl < ceil8 bl then .error (.malformedFrame, q + 4)
    else if src.length < q + 8 + pl then .error (.shortInput, q + 8)
    else .ok (bl, pl)

/-- DECODE_FRAME after the pre-checks: a ParseBlock error clears the codebook, a later error keeps the parsed one, and
BITLEN is written only on success (45_payload.md R216). -/
def decodeFrameEnding (s : State) : Ending :=
  match parseBlock s.cfg.wireBE s.source with
  | .error (e, info) => .error s.clearCodebook e info
  | .ok b =>
    match frameTail s.cfg.wireBE s.source b.used with
    | .error (e, info) => .error (s.loadCodebook b) e info
    | .ok (bl, pl) =>
      match decodeBits b.tree s.dstCap.toNat (unpack ((s.source.drop (b.used + 8)).take (ceil8 bl)) bl) with
      | .error (e, info) => .error (s.loadCodebook b) e info
      | .ok out => .success { s.loadCodebook b with bitlen := BitVec.ofNat 32 bl } out (b.used + 8 + pl)

/-- DECODE_FRAME (45_payload.md R216). -/
def execDecodeFrame (s : State) : Host.Outcome State Fault Refusal := completion .decodeFrame decodeFrameEnding s

end Sys2Proof.Machine
end

