-- ==== Sys2Proof/Machine/Dispatch.lean ====
section
/-! DEFINITION. The completion step of each command, one arm per constructor of Instr. -/

namespace Sys2Proof.Machine

def exec (i : Instr) (s : State) : Host.Outcome State Fault Refusal :=
  match i with
  | .nop => Sys2Proof.Machine.execNop s
  | .freqCount => Sys2Proof.Machine.execFreqCount s
  | .treeBuild => Sys2Proof.Machine.execTreeBuild s
  | .codeAssign => Sys2Proof.Machine.execCodeAssign s
  | .bitPack => Sys2Proof.Machine.execBitPack s
  | .bitUnpack => Sys2Proof.Machine.execBitUnpack s
  | .cbSerialize => Sys2Proof.Machine.execCbSerialize s
  | .cbParse => Sys2Proof.Machine.execCbParse s
  | .packCodes => Sys2Proof.Machine.execPackCodes s
  | .decodePayload => Sys2Proof.Machine.execDecodePayload s
  | .encodeFrame => Sys2Proof.Machine.execEncodeFrame s
  | .decodeFrame => Sys2Proof.Machine.execDecodeFrame s

end Sys2Proof.Machine
end

