-- ==== Sys2Proof/Machine/HostPort.lean ====
section
/-! DEFINITION. The host port: the CSR map and its reads and writes (10_state.md), the BUF accesses (20_memory.md), and the
reset pulse (70_reset_and_hazards.md R300, R301). -/

namespace Sys2Proof.Machine

/-- The byte offset of a CSR (10_state.md, the CSR map). -/
def csrOffset : Csr → BitVec 12
  | .id => 0x000
  | .version => 0x004
  | .cfg => 0x008
  | .bufSize => 0x00C
  | .ctrl => 0x010
  | .status => 0x014
  | .cmd => 0x018
  | .errcode => 0x01C
  | .errInfo => 0x020
  | .srcAddr => 0x024
  | .srcLen => 0x028
  | .dstAddr => 0x02C
  | .dstCap => 0x030
  | .bitlen => 0x034
  | .outLen => 0x038
  | .inUsed => 0x03C
  | .symCount => 0x040
  | .treeNodes => 0x044
  | .maxCodeLen => 0x048
  | .freq s => 0x400 + BitVec.ofNat 12 (4 * s.toNat)

/-- The CSR at a byte offset that is a multiple of 4, or none at a reserved offset (10_state.md R36, R37). -/
def csrAt (offset : BitVec 12) : Option Csr :=
  match offset.toNat / 4 with
  | 0 => some .id
  | 1 => some .version
  | 2 => some .cfg
  | 3 => some .bufSize
  | 4 => some .ctrl
  | 5 => some .status
  | 6 => some .cmd
  | 7 => some .errcode
  | 8 => some .errInfo
  | 9 => some .srcAddr
  | 10 => some .srcLen
  | 11 => some .dstAddr
  | 12 => some .dstCap
  | 13 => some .bitlen
  | 14 => some .outLen
  | 15 => some .inUsed
  | 16 => some .symCount
  | 17 => some .treeNodes
  | 18 => some .maxCodeLen
  | k => if 256 ≤ k ∧ k < 512 then some (.freq (BitVec.ofNat 8 (k - 256))) else none

/-- The exact value of a CSR (10_state.md R22 to R36). -/
def State.csrValue (s : State) : Csr → Word
  | .id => 0x48554646
  | .version => 0x00010000
  | .cfg => BitVec.zeroExtend 32 (BitVec.ofBool s.cfg.wireBE)
  | .bufSize => BitVec.ofNat 32 s.cfg.bufBytes
  | .ctrl => s.ctrlWord
  | .status => s.statusWord
  | .cmd => s.cmd
  | .errcode => BitVec.zeroExtend 32 (errCodeValue s.errcode)
  | .errInfo => s.errInfo
  | .srcAddr => s.srcAddr
  | .srcLen => s.srcLen
  | .dstAddr => s.dstAddr
  | .dstCap => s.dstCap
  | .bitlen => s.bitlen
  | .outLen => s.outLen
  | .inUsed => s.inUsed
  | .symCount => BitVec.ofNat 32 (symCount s.codetab)
  | .treeNodes => BitVec.ofNat 32 s.tree.nodes
  | .maxCodeLen => BitVec.ofNat 32 (maxCodeLen s.codetab)
  | .freq c => countOf s.freq c

/-- The CSRs whose value is unspecified while BUSY = 1 (10_state.md R44). -/
def drawnWhileBusy : Csr → Bool
  | .errcode | .errInfo | .bitlen | .outLen | .inUsed | .symCount | .treeNodes | .maxCodeLen | .freq _ => true
  | .id | .version | .cfg | .bufSize | .ctrl | .status | .cmd | .srcAddr | .srcLen | .dstAddr | .dstCap => false

/-- What a host read of a CSR offset returns: 0 at a reserved offset, a free draw for a result register while busy, else
the exact value (10_state.md R37, R44; 20_memory.md R63). -/
def State.csrReadValue (s : State) (offset : BitVec 12) : Word :=
  match csrAt offset with
  | none => 0
  | some r => if s.busy && drawnWhileBusy r then Config.freeWord s.draws else s.csrValue r

/-- A host read returned `v`. A read has no other effect (20_memory.md R62, R64); it may have drawn, so the draw counter
moves on (log 4). -/
def State.returned (s : State) (v : Word) : State := { s with readData := v, draws := s.draws + 1 }

/-- A host write to a busy-locked CSR: ignored with OVR set while BUSY = 1 (10_state.md R45). -/
def State.lockedWrite (s : State) (written : State) : State := if s.busy then s.setOvr else written

/-- A host write of `v` to a CSR: RO registers ignore it, CTRL and STATUS take it at once, CMD issues (10_state.md R22 to
R36, R45; 40_command_common.md R130, R131). -/
def State.csrWrite (s : State) (r : Csr) (v : Word) : State :=
  match r with
  | .ctrl => s.writeCtrl v
  | .status => s.writeStatus v
  | .cmd => s.lockedWrite (s.issue v)
  | .srcAddr => s.lockedWrite { s with srcAddr := v }
  | .srcLen => s.lockedWrite { s with srcLen := v }
  | .dstAddr => s.lockedWrite { s with dstAddr := v }
  | .dstCap => s.lockedWrite { s with dstCap := v }
  | .bitlen => s.lockedWrite { s with bitlen := v }
  | .id | .version | .cfg | .bufSize | .errcode | .errInfo | .outLen | .inUsed | .symCount | .treeNodes | .maxCodeLen
  | .freq _ => s

/-- A host write at a CSR offset; a reserved offset ignores it (10_state.md R37; 20_memory.md R63). -/
def State.csrWriteAt (s : State) (offset : BitVec 12) (v : Word) : State :=
  match csrAt offset with
  | none => s
  | some r => s.csrWrite r v

/-- The bytes of a host access (20_memory.md R64). -/
def Width.bytes : Width → Nat
  | .w8 => 1
  | .w16 => 2
  | .w32 => 4

/-- One byte of a host BUF read: a free draw in the destination region while BUSY = 1, else BUF's byte
(70_reset_and_hazards.md R305; log 7). -/
def State.hostByte (s : State) (a : Nat) : Byte :=
  if s.busy && s.inDst a then Config.freeByte s.draws a else s.byteAt a

/-- The little-endian value of a byte string: the sum over k of byte k times 256^k (20_memory.md R65). -/
def hostValue : List Byte → Nat
  | [] => 0
  | b :: bs => b.toNat + 256 * hostValue bs

/-- The `n` bytes of a value, little-endian (20_memory.md R65). -/
def hostBytes (v : Word) (n : Nat) : List Byte := (List.range n).map fun k => v.extractLsb' (8 * k) 8

/-- A host read of `n` bytes of BUF at `a`, little-endian (20_memory.md R65). -/
def State.hostRead (s : State) (a n : Nat) : Word :=
  BitVec.ofNat 32 (hostValue ((List.range n).map fun k => s.hostByte (a + k)))

/-- A host write of `n` bytes of BUF at `a`, little-endian (20_memory.md R65). -/
def State.hostWrite (s : State) (a n : Nat) (v : Word) : State :=
  { s with buf := s.buf.writeBytes a (hostBytes v n) }

/-- One host access; what the spec does not define is refused, the run with it (20_memory.md R62, R64;
70_reset_and_hazards.md R304, R312; the order of these checks: log 8). -/
def hostAccess (s : State) : Access → Host.Outcome State Fault Refusal
  | .csrRead width offset =>
    if width ≠ .w32 then .refused .csrAccessWidth
    else if offset.toNat % 4 ≠ 0 then .refused .csrMisaligned
    else .next (s.returned (s.csrReadValue offset))
  | .csrWrite width offset v =>
    if width ≠ .w32 then .refused .csrAccessWidth
    else if offset.toNat % 4 ≠ 0 then .refused .csrMisaligned
    else .next (s.csrWriteAt offset v)
  | .bufRead width address =>
    if address.toNat % width.bytes ≠ 0 then .refused .bufMisaligned
    else if s.cfg.bufBytes < address.toNat + width.bytes then .refused .bufAddressAbsent
    else .next (s.returned (s.hostRead address.toNat width.bytes))
  | .bufWrite width address v =>
    if address.toNat % width.bytes ≠ 0 then .refused .bufMisaligned
    else if s.cfg.bufBytes < address.toNat + width.bytes then .refused .bufAddressAbsent
    else if s.busy then .refused .bufWriteWhileBusy
    else .next (s.hostWrite address.toNat width.bytes v)

/-- A pulse on `rst_n`: every CSR and all internal state as R300 says, BUF unspecified, a pending command abandoned. The
parameters stay; so do the model's own fields (70_reset_and_hazards.md R300, R301; log 9). -/
def State.resetPulse (s : State) : State :=
  { State.resetWith s.cfg with inputs := s.inputs, readData := s.readData, draws := s.draws + 1 }

end Sys2Proof.Machine
end

