-- ==== Sys2Proof/Machine/Sequencer.lean ====
section
/-! DEFINITION. The two agents' moves: the command sequencer's completion of the pending command, and the host's next event
(00_scope.md R19; 40_command_common.md R132). -/

namespace Sys2Proof.Machine

/-- The pending command completes: its word is decoded, an illegal word is the first pre-check's error
(40_command_common.md R132, R133, R141). -/
def completePending (s : State) : Host.Outcome State Fault Refusal :=
  match decodeWord s.cmd with
  | .ok i => exec i s
  | .error _ => .next (illegalCompletion s)

/-- The command sequencer's turn: its one step is enabled exactly when BUSY = 1 (40_command_common.md R132); otherwise
HUFFCORE does nothing (60_exceptions.md R285). -/
def sequencerTurn (s : State) : Host.Outcome State Fault Refusal :=
  if s.busy then completePending s else .next s

/-- The host's next event. -/
def hostEvent (e : HostEvent) (s : State) : Host.Outcome State Fault Refusal :=
  match e with
  | .access a => hostAccess s a
  | .turn => sequencerTurn s
  | .resetPulse => .next s.resetPulse

end Sys2Proof.Machine
end

