-- ==== Sys2Proof/Machine/Step.lean ====
section
/-! DEFINITION. One step of the machine: the host's next event, or the sequencer's turn when the host has none left
(20_memory.md R71; 40_command_common.md R132; log 2). -/

namespace Sys2Proof.Machine

/-- One step. Weak fairness (40_command_common.md R132): the events to come are finitely many, and after them the
sequencer moves. -/
def step (s : State) : Host.Outcome State Fault Refusal :=
  match s.inputs with
  | [] => sequencerTurn s
  | e :: rest => hostEvent e { s with inputs := rest }

/-- `s` with the command word `w` issued and no host event before its completion, so that the next step completes it.
HUFFCORE fetches nothing (20_memory.md R74): this stands for the host's write to CMD (40_command_common.md R130; log 12). -/
def State.withFetchWord (s : State) (nbits w : Nat) : State :=
  { s.issue (BitVec.ofNat 32 (w % 2 ^ nbits)) with inputs := [] }

end Sys2Proof.Machine
end

