-- ==== Sys2Proof/Machine/HostNotation.lean ====
section
/-! DEFINITION. The host command notation of the spec's programs as lists of host events (30_encoding.md R104, R105). -/

namespace Sys2Proof.Machine

/-- A line of the host command notation (30_encoding.md R104, R105). -/
inductive HostLine where
  /-- `wr NAME, v` -/
  | wr (r : Csr) (v : Word)
  /-- `rd NAME` -/
  | rd (r : Csr)
  /-- `wrb a, b0 b1 ... bk` -/
  | wrb (a : Word) (bytes : List Byte)
  /-- `rdb a, n` -/
  | rdb (a : Word) (n : Nat)
  /-- `cmd M` -/
  | cmd (i : Instr)
  /-- `wait`: `polls` reads of STATUS come before the completion, one after it (log 16). -/
  | wait (polls : Nat)
  /-- `run M` -/
  | run (i : Instr) (polls : Nat)
  /-- `clr` -/
  | clr
  /-- `ie on` -/
  | ieOn
  /-- `ie off` -/
  | ieOff
  /-- No line of the notation: here, between two lines, the sequencer gets a turn, so that a pending command completes
  (40_command_common.md R132; 95_test_vectors.md P5; DESIGN CHOICE, log 16, safe). -/
  | elapse
deriving DecidableEq, Repr

/-- `wr NAME, v` as a bus access. -/
def wrEvent (r : Csr) (v : Word) : HostEvent := .access (.csrWrite .w32 (csrOffset r) v)

/-- `rd NAME` as a bus access. -/
def rdEvent (r : Csr) : HostEvent := .access (.csrRead .w32 (csrOffset r))

/-- `wait`: polls of STATUS that see BUSY = 1, the completion, and the poll that ends it (30_encoding.md R105). -/
def waitEvents (polls : Nat) : List HostEvent := List.replicate polls (rdEvent .status) ++ [.turn, rdEvent .status]

/-- The 8-bit BUF writes of `wrb`, in order (30_encoding.md R104). -/
def wrbEvents (a : Word) (bytes : List Byte) : List HostEvent :=
  bytes.zipIdx.map fun p => .access (.bufWrite .w8 (a + BitVec.ofNat 32 p.2) (BitVec.zeroExtend 32 p.1))

/-- The 8-bit BUF reads of `rdb`, in order (30_encoding.md R104). -/
def rdbEvents (a : Word) (n : Nat) : List HostEvent :=
  (List.range n).map fun k => .access (.bufRead .w8 (a + BitVec.ofNat 32 k))

/-- The bus accesses of a line (30_encoding.md R104, R105). -/
def HostLine.events : HostLine → List HostEvent
  | .wr r v => [wrEvent r v]
  | .rd r => [rdEvent r]
  | .wrb a bytes => wrbEvents a bytes
  | .rdb a n => rdbEvents a n
  | .cmd i => [wrEvent .cmd (encode i)]
  | .wait polls => waitEvents polls
  | .run i polls => wrEvent .cmd (encode i) :: waitEvents polls
  | .clr => [wrEvent .status 0x0000000E]
  | .ieOn => [wrEvent .ctrl 0x00000001]
  | .ieOff => [wrEvent .ctrl 0x00000000]
  | .elapse => [.turn]

/-- A host program: its lines' accesses become the events to come (30_encoding.md R104). When a pending command completes
among lines other than `wait` and `run` is open (40_command_common.md R132). DESIGN CHOICE (log 16), safe: it completes where
the list has `elapse`, so a program of the spec stands for every list that has its lines with `elapse` put anywhere. -/
def State.withProgram (s : State) (lines : List HostLine) : State := { s with inputs := lines.flatMap HostLine.events }

end Sys2Proof.Machine
end

