-- ==== Sys2Proof/Safety.lean ====
section
/-! DEFINITION. What holds of every state HUFFCORE reaches, and what a safe run is. -/

namespace Sys2Proof.Machine

/-- No code is a prefix of another symbol's code (00_scope.md R18; 42_code_assign.md R172; 44_codebook.md R199). -/
def PrefixFree (t : CodeTable) : Prop :=
  ∀ a b : Symbol, a ≠ b → codeOf t a ≠ [] → codeOf t b ≠ [] → ¬ codeOf t a <+: codeOf t b

/-- The sum of all counts (41_frequency_tree.md R151). -/
def totalCount (f : FreqTable) : Nat := (allSymbols.map fun s => (countOf f s).toNat).sum

/-- A tree HUFFCORE may hold: the root an `Inner` node, no symbol at two leaves, no leaf deeper than 255, at most 65281
nodes (00_scope.md R11, R16; 41_frequency_tree.md R159; 42_code_assign.md R172; 44_codebook.md R197). -/
structure Tree.Legal (t : Tree) : Prop where
  rootInner : t.isInner = true
  symbolsOnce : (t.paths.map Prod.fst).Nodup
  depth : ∀ p ∈ t.paths, p.2.length ≤ 255
  nodes : t.nodes ≤ 65281

/-- A code table HUFFCORE may hold: prefix-free, no code longer than 255 bits (00_scope.md R9; 10_state.md R39). -/
structure CodesLegal (t : CodeTable) : Prop where
  prefixFree : PrefixFree t
  lengths : ∀ s, (codeOf t s).length ≤ 255

/-- The flags and error registers agree: DONE and ERR are 0 while busy; ERR means an error code stands in ERRCODE; with
ERRCODE OK, ERR_INFO is 0 (10_state.md R24, R26, R27; 40_command_common.md R130, R134, R137). -/
structure State.FlagsLegal (s : State) : Prop where
  busyNotDone : s.busy = true → s.done = false
  busyNotErr : s.busy = true → s.err = false
  errHasCode : s.err = true → s.errcode ≠ .ok
  okNoInfo : s.errcode = .ok → s.errInfo = 0

/-- The invariant of HUFFCORE's reachable states: legal parameters, BUF in canonical form and inside its size, legal tree
and codes, counts that sum to at most the size of BUF, result lengths at most the size of BUF, and the flags' rules. -/
structure State.Inv (s : State) : Prop where
  config : s.cfg.legal = true
  bufWf : Memory.wf s.buf = true
  bufBelow : Memory.below s.buf s.cfg.bufBytes = true
  tree : s.tree.Legal
  codes : CodesLegal s.codetab
  counts : totalCount s.freq ≤ s.cfg.bufBytes
  outLen : s.outLen.toNat ≤ s.cfg.bufBytes
  inUsed : s.inUsed.toNat ≤ s.cfg.bufBytes
  flags : s.FlagsLegal

/-- An entry of a codebook block as it stands on the wire: the code bytes may carry any pad bits (30_encoding.md R99,
R100). -/
structure WireEntry where
  symbol : Symbol
  code : Code
  body : List Byte

/-- The bytes of an entry (30_encoding.md R100). -/
def WireEntry.bytes (e : WireEntry) : List Byte := e.symbol :: BitVec.ofNat 8 e.code.length :: e.body

/-- An entry's code has length 1 to 255 and its code bytes unpack to it (30_encoding.md R98, R100). -/
structure WireEntry.Ok (e : WireEntry) : Prop where
  pos : 1 ≤ e.code.length
  le : e.code.length ≤ 255
  size : e.body.length = ceil8 e.code.length
  unpacks : unpack e.body e.code.length = e.code

/-- Entries of a codebook, in any order: each legal, no symbol twice, no code a prefix of another or equal to it
(44_codebook.md R195, R197). -/
structure ValidEntries (es : List WireEntry) : Prop where
  ok : ∀ e ∈ es, e.Ok
  symbolsOnce : (es.map WireEntry.symbol).Nodup
  prefixFree : es.Pairwise fun a b => ¬ a.code <+: b.code ∧ ¬ b.code <+: a.code

/-- A codebook block with a given count field (30_encoding.md R100). -/
def blockBytes (be : Bool) (count : Nat) (es : List WireEntry) : List Byte :=
  wireBytes32 be count ++ es.flatMap WireEntry.bytes

/-- The code table holds exactly these entries (44_codebook.md R199). -/
def HoldsEntries (tab : CodeTable) (es : List WireEntry) : Prop :=
  (∀ e ∈ es, codeOf tab e.symbol = e.code) ∧ ∀ s, s ∉ es.map WireEntry.symbol → codeOf tab s = []

/-- The tree of the entries' codes: an `Inner` root, the leaves exactly the codes, each for its symbol, and below the root
no `Inner` node that lies on no code (44_codebook.md R197, R199). -/
structure LeavesAre (t : Tree) (es : List WireEntry) : Prop where
  rootInner : t.isInner = true
  leaves : ∀ s p, t.follow p = .leaf s ↔ ∃ e ∈ es, e.symbol = s ∧ e.code = p
  inner : ∀ p l r, p ≠ [] → t.follow p = .inner l r → ∃ e ∈ es, p <+: e.code

/-- `extract_min`: the entry before every other leaves the queue, which has no order of its own
(41_frequency_tree.md R153, R158). -/
def ExtractMin (q : List QueueEntry) (e : QueueEntry) (rest : List QueueEntry) : Prop :=
  q.Perm (e :: rest) ∧ ∀ x ∈ rest, e.before x = true

/-- A run of the merge loop on a queue with no order of its own, down to one node (41_frequency_tree.md R154, R155). -/
inductive MergeRun : Nat → List QueueEntry → Tree → Prop where
  | last (next : Nat) (e : QueueEntry) : MergeRun next [e] e.node
  | merge {next : Nat} {q q₁ q₂ q₃ : List QueueEntry} {a b : QueueEntry} {t : Tree}
      (first : ExtractMin q a q₁) (second : ExtractMin q₁ b q₂)
      (joined : q₃.Perm (⟨a.freq + b.freq, next, .inner a.node b.node⟩ :: q₂))
      (rest : MergeRun (next + 1) q₃ t) : MergeRun next q t

/-- The initial entries, numbered in the order of the symbols (41_frequency_tree.md R153). -/
def leafEntries (f : FreqTable) (ss : List Symbol) : List QueueEntry :=
  ss.zipIdx.map fun p => ⟨(countOf f p.1).toNat, p.2, .leaf p.1⟩

/-- The entry with its code bytes in canonical form, pad bits 0 (30_encoding.md R98, R99). -/
def WireEntry.canonical (e : WireEntry) : WireEntry := { e with body := pack e.code }

/-- The entries of a canonical block: ascending symbols, pad bits 0 (44_codebook.md R200). -/
def CanonicalEntries (es : List WireEntry) : Prop :=
  (es.map fun e => e.symbol.toNat).Pairwise (· < ·) ∧ ∀ e ∈ es, e.canonical = e

/-- The distinct non-empty proper prefixes of the entries' codes (44_codebook.md R199). -/
def properPrefixes (es : List WireEntry) : List Code :=
  (es.flatMap fun e => (List.range' 1 (e.code.length - 1)).map fun k => e.code.take k).dedup

/-- The decode walk over `bits` ends well with these symbols: the bits are their codes, one after the other, and there is
room (45_payload.md R212). -/
def WalkGives (t : Tree) (cap : Nat) (bits : List Bool) (symbols : List Symbol) : Prop :=
  ∃ out : List (Symbol × Code), (∀ x ∈ out, t.follow x.2 = .leaf x.1) ∧ out.length ≤ cap ∧
    bits = (out.map Prod.snd).flatten ∧ symbols = out.map Prod.fst

/-- The decode walk over `bits` fails: after whole codes the bits end inside a code (45_payload.md R213), or a bit leads to
an absent child (R214), or a decoded symbol has no room (R212). -/
def WalkFails (t : Tree) (cap : Nat) (bits : List Bool) (e : ErrCode) (info : Nat) : Prop :=
  ∃ out : List (Symbol × Code), (∀ x ∈ out, t.follow x.2 = .leaf x.1) ∧ out.length ≤ cap ∧
    ((e = .truncatedStream ∧ info = (out.map Prod.snd).flatten.length ∧
        ∃ p l r, p ≠ [] ∧ t.follow p = .inner l r ∧ bits = (out.map Prod.snd).flatten ++ p) ∨
     (e = .badPath ∧ ∃ p b rest l r, t.follow p = .inner l r ∧ (Tree.inner l r).child b = .absent ∧
        bits = (out.map Prod.snd).flatten ++ (p ++ b :: rest) ∧ info = (out.map Prod.snd).flatten.length + p.length) ∨
     (e = .capacity ∧ info = 0 ∧ out.length = cap ∧
        ∃ p c rest, t.follow p = .leaf c ∧ bits = (out.map Prod.snd).flatten ++ (p ++ rest)))

/-- The source region lies inside BUF (20_memory.md R68). -/
def State.SrcInside (s : State) : Prop := s.srcAddr.toNat + s.srcLen.toNat ≤ s.cfg.bufBytes

/-- The destination region lies inside BUF (20_memory.md R68). -/
def State.DstInside (s : State) : Prop := s.dstAddr.toNat + s.dstCap.toNat ≤ s.cfg.bufBytes

/-- The two regions have no byte in common (40_command_common.md R133). -/
def State.RegionsApart (s : State) : Prop :=
  s.srcLen.toNat = 0 ∨ s.dstCap.toNat = 0 ∨ s.dstAddr.toNat + s.dstCap.toNat ≤ s.srcAddr.toNat ∨
    s.srcAddr.toNat + s.srcLen.toNat ≤ s.dstAddr.toNat

/-- A command that uses both regions passes its pre-checks (40_command_common.md R133). -/
structure State.RegionsOk (s : State) : Prop where
  src : s.SrcInside
  dst : s.DstInside
  apart : s.RegionsApart

/-- Address `a` lies outside the `n` bytes at DST_ADDR. -/
def State.OutsideDst (s : State) (n a : Nat) : Prop := a < s.dstAddr.toNat ∨ s.dstAddr.toNat + n ≤ a

/-- `t` is `s` after a successful completion: BITLEN, FREQ, TREE and CODETAB as `u` has them, `out` at DST_ADDR and no
other byte of BUF changed, the result registers and flags of success, everything else as `u` has it
(40_command_common.md R134, R136). -/
structure Succeeds (s u : State) (out : List Byte) (inUsed : Nat) (t : State) : Prop where
  registers : t = { u with
    busy := false, done := true, err := false, errcode := .ok, errInfo := 0
    outLen := BitVec.ofNat 32 out.length, inUsed := BitVec.ofNat 32 inUsed
    buf := t.buf, draws := s.draws + 1 }
  written : ∀ k < out.length, t.buf.readByte (s.dstAddr.toNat + k) = out[k]?
  untouched : ∀ a, s.OutsideDst out.length a → t.buf.readByte a = s.buf.readByte a

/-- `t` is `s` after a completion with error `e(info)` of the command's own pseudocode: the destination region
unspecified, no other byte changed, OUT_LEN and IN_USED 0, everything else as `u` has it (40_command_common.md R137). -/
structure Fails (s u : State) (e : ErrCode) (info : Nat) (t : State) : Prop where
  registers : t = { u with
    busy := false, done := true, err := true, errcode := e, errInfo := BitVec.ofNat 32 info
    outLen := 0, inUsed := 0, buf := t.buf, draws := s.draws + 1 }
  unspecified : ∀ a, ¬ s.OutsideDst s.dstCap.toNat a → t.buf.readByte a = none
  untouched : ∀ a, s.OutsideDst s.dstCap.toNat a → t.buf.readByte a = s.buf.readByte a

/-- `s` after a completion with an error of the pre-checks: BUF and all internal state unchanged (40_command_common.md
R138). -/
def State.afterPreCheckError (s : State) (e : ErrCode) (info : Word) : State :=
  { s with busy := false, done := true, err := true, errcode := e, errInfo := info, outLen := 0, inUsed := 0
           draws := s.draws + 1 }

/-- A run of `n` steps that the spec gives a meaning: no access of it was refused
(70_reset_and_hazards.md R312). -/
def SafeRun (n : Nat) (s t : State) : Prop :=
  match n with
  | 0 => t = s
  | n + 1 => ∃ u, step s = .next u ∧ SafeRun n u t

/-- A run is finished when the host has no event left and no command is pending (70_reset_and_hazards.md R312). -/
def State.finished (s : State) : Bool := s.inputs.isEmpty && !s.busy

end Sys2Proof.Machine
end

