-- ==== Sys2Proof/Certificates/Slice0/Obligations.lean ====
section
/-! DEFINITION. The statements for the provers, from the numbered rules of spec/. They are stated in the terms of Safety.lean:
`Succeeds`, `Fails` and `State.afterPreCheckError` say what a completion writes and that it leaves everything else alone. -/

open Sys2Proof Sys2Proof.Machine

/-! ## The command word -/

/-- R91: the twelve words of the opcode map, written out, decode to their commands. -/
def Obligations.OpcodeMapWordsDecode : Prop :=
  decodeWord 0b00000000000000000000000000000000#32 = .ok .nop ∧
  decodeWord 0b00000000000000000000000000000001#32 = .ok .freqCount ∧
  decodeWord 0b00000000000000000000000000000010#32 = .ok .treeBuild ∧
  decodeWord 0b00000000000000000000000000000011#32 = .ok .codeAssign ∧
  decodeWord 0b00000000000000000000000000000100#32 = .ok .bitPack ∧
  decodeWord 0b00000000000000000000000000000101#32 = .ok .bitUnpack ∧
  decodeWord 0b00000000000000000000000000000110#32 = .ok .cbSerialize ∧
  decodeWord 0b00000000000000000000000000000111#32 = .ok .cbParse ∧
  decodeWord 0b00000000000000000000000000001000#32 = .ok .packCodes ∧
  decodeWord 0b00000000000000000000000000001001#32 = .ok .decodePayload ∧
  decodeWord 0b00000000000000000000000000001010#32 = .ok .encodeFrame ∧
  decodeWord 0b00000000000000000000000000001011#32 = .ok .decodeFrame

/-- Decoding an encoded command gives it back, for every command. -/
def Obligations.DecodeOfEncode : Prop := ∀ i : Instr, i.wf = true → decodeWord (encode i) = .ok i

/-- R90, R91, R92: a word selects a command exactly when bits 31:8 are 0 and bits 7:0 are at most 0x0B, and each command has
one word. -/
def Obligations.OneWordPerCommand : Prop :=
  (∀ (w : Word) (i : Instr), decodeWord w = .ok i ↔ w = encode i) ∧
  ∀ w : Word, (∃ i, decodeWord w = .ok i) ↔ w.toNat / 256 = 0 ∧ w.toNat % 256 ≤ 0x0B

/-! ## Steps -/

/-- R132: a step with a command pending, and no host event before its completion, is the completion of the command its word
decodes to; so is a turn the host leaves to the sequencer. -/
def Obligations.StepRunsPendingCommand : Prop :=
  ∀ (s : State) (i : Instr), s.busy = true → decodeWord s.cmd = .ok i →
    (s.inputs = [] → step s = exec i s) ∧
    ∀ rest, s.inputs = .turn :: rest → step s = exec i { s with inputs := rest }

/-- R141: an issued word that selects no command completes with ILLEGAL_CMD, code 0x01, ERR_INFO the word; BUF and the
internal state are unchanged. So it does at a turn with further host events to come. -/
def Obligations.IllegalWordCompletes : Prop :=
  errCodeValue .illegalCmd = 0x01 ∧
  ∀ s : State, s.busy = true → (s.cmd.toNat / 256 ≠ 0 ∨ 0x0B < s.cmd.toNat % 256) →
    (s.inputs = [] → step s = .next (s.afterPreCheckError .illegalCmd s.cmd)) ∧
    ∀ rest, s.inputs = .turn :: rest →
      step s = .next ({ s with inputs := rest }.afterPreCheckError .illegalCmd s.cmd)

/-- R285: with no command pending and no host event to come, nothing changes; at a turn of the sequencer with no command
pending, nothing but the list of events, from which the turn is taken (the model's own field, log 2). -/
def Obligations.IdleMachineHoldsState : Prop :=
  ∀ s : State, s.busy = false →
    (s.inputs = [] → step s = .next s) ∧
    ∀ rest, s.inputs = .turn :: rest → step s = .next { s with inputs := rest }

/-- R132: whatever word was issued, a pending command completes in one step of the sequencer, with no host event to come or at
a turn with more of them to come: BUSY falls, DONE rises. No command faults and none is refused. -/
def Obligations.PendingCommandCompletes : Prop :=
  ∀ (s : State) (rest : List HostEvent), s.busy = true → (s.inputs = [] ∧ rest = [] ∨ s.inputs = .turn :: rest) →
    ∃ t, step s = .next t ∧ t.busy = false ∧ t.done = true ∧ t.cmd = s.cmd ∧ t.inputs = rest ∧
      (t.err = true ↔ t.errcode ≠ .ok)

/-! ## The host port -/

/-- R130: a CMD write while idle issues the word, legal or not; OVR and everything else stays, and the interrupt line is low. -/
def Obligations.CmdWriteIssues : Prop :=
  ∀ (s : State) (w : Word) (rest : List HostEvent), s.busy = false →
    s.inputs = .access (.csrWrite .w32 0x018 w) :: rest →
    ∃ t, step s = .next t ∧ t.irq = false ∧ t = { s with
      inputs := rest, cmd := w, busy := true, done := false, err := false, errcode := .ok, errInfo := 0 }

/-- R45, R131: while BUSY = 1 a write to CMD, SRC_ADDR, SRC_LEN, DST_ADDR, DST_CAP or BITLEN only sets OVR. -/
def Obligations.BusyLockedWriteSetsOvr : Prop :=
  ∀ (s : State) (offset : BitVec 12) (v : Word) (rest : List HostEvent), s.busy = true →
    offset ∈ [0x018#12, 0x024#12, 0x028#12, 0x02C#12, 0x030#12, 0x034#12] →
    s.inputs = .access (.csrWrite .w32 offset v) :: rest →
    step s = .next { s with inputs := rest, ovr := true }

/-- R28, R29, R30: while idle a write to an operand register stores all 32 bits. -/
def Obligations.OperandRegisterWrites : Prop :=
  ∀ (s : State) (v : Word) (rest : List HostEvent), s.busy = false →
    (s.inputs = .access (.csrWrite .w32 0x024 v) :: rest → step s = .next { s with inputs := rest, srcAddr := v }) ∧
    (s.inputs = .access (.csrWrite .w32 0x028 v) :: rest → step s = .next { s with inputs := rest, srcLen := v }) ∧
    (s.inputs = .access (.csrWrite .w32 0x02C v) :: rest → step s = .next { s with inputs := rest, dstAddr := v }) ∧
    (s.inputs = .access (.csrWrite .w32 0x030 v) :: rest → step s = .next { s with inputs := rest, dstCap := v }) ∧
    (s.inputs = .access (.csrWrite .w32 0x034 v) :: rest → step s = .next { s with inputs := rest, bitlen := v })

/-- R23, R24: CTRL and STATUS writes take effect at once, busy or not; STATUS bits 1, 2, 3 are cleared by writing 1, and BUSY
is read-only. -/
def Obligations.ControlAndStatusWrites : Prop :=
  ∀ (s : State) (v : Word) (rest : List HostEvent),
    (s.inputs = .access (.csrWrite .w32 0x010 v) :: rest → step s = .next { s with inputs := rest, ie := v.getLsbD 0 }) ∧
    (s.inputs = .access (.csrWrite .w32 0x014 v) :: rest → step s = .next { s with
      inputs := rest
      done := if v.getLsbD 1 then false else s.done
      err := if v.getLsbD 2 then false else s.err
      ovr := if v.getLsbD 3 then false else s.ovr })

/-- R37, R45, R63: a write to a read-only register or a reserved offset is ignored, busy or not, and does not set OVR. -/
def Obligations.OtherCsrWritesIgnored : Prop :=
  ∀ (s : State) (offset : BitVec 12) (v : Word) (rest : List HostEvent), offset.toNat % 4 = 0 →
    offset ∉ [0x010#12, 0x014#12, 0x018#12, 0x024#12, 0x028#12, 0x02C#12, 0x030#12, 0x034#12] →
    s.inputs = .access (.csrWrite .w32 offset v) :: rest →
    step s = .next { s with inputs := rest }

/-- What a host read of a CSR offset returns while idle: the CSR map of 10_state.md. With codes of legal length,
MAX_CODE_LEN bounds the lengths and is one of them (R35: 0 when every entry is empty). -/
def Obligations.CsrReadsWhileIdle : Prop :=
  ∀ (s : State) (offset : BitVec 12) (rest : List HostEvent), s.busy = false → offset.toNat % 4 = 0 →
    s.inputs = .access (.csrRead .w32 offset) :: rest →
    ∃ v, step s = .next { s with inputs := rest, readData := v, draws := s.draws + 1 } ∧
      (offset = 0x000 → v = 0x48554646) ∧
      (offset = 0x004 → v = 0x00010000) ∧
      (offset = 0x008 → v = if s.cfg.wireBE then 1 else 0) ∧
      (offset = 0x00C → v = BitVec.ofNat 32 s.cfg.bufBytes) ∧
      (offset = 0x010 → v = if s.ie then 1 else 0) ∧
      (offset = 0x014 → v.toNat = 2 * s.done.toNat + 4 * s.err.toNat + 8 * s.ovr.toNat) ∧
      (offset = 0x018 → v = s.cmd) ∧
      (offset = 0x01C → v.toNat = (errCodeValue s.errcode).toNat) ∧
      (offset = 0x020 → v = s.errInfo) ∧
      (offset = 0x024 → v = s.srcAddr) ∧
      (offset = 0x028 → v = s.srcLen) ∧
      (offset = 0x02C → v = s.dstAddr) ∧
      (offset = 0x030 → v = s.dstCap) ∧
      (offset = 0x034 → v = s.bitlen) ∧
      (offset = 0x038 → v = s.outLen) ∧
      (offset = 0x03C → v = s.inUsed) ∧
      (offset = 0x040 → v = BitVec.ofNat 32 (symCount s.codetab)) ∧
      (offset = 0x044 → v = BitVec.ofNat 32 s.tree.nodes) ∧
      (offset = 0x048 → v = BitVec.ofNat 32 (maxCodeLen s.codetab)) ∧
      (offset = 0x048 → (∀ c, (codeOf s.codetab c).length ≤ 255) →
        (∀ c, (codeOf s.codetab c).length ≤ v.toNat) ∧ ∃ c, (codeOf s.codetab c).length = v.toNat) ∧
      (0x04C ≤ offset.toNat → offset.toNat < 0x400 → v = 0) ∧
      (∀ c : Symbol, offset.toNat = 0x400 + 4 * c.toNat → v = countOf s.freq c) ∧
      (0x800 ≤ offset.toNat → v = 0)

/-- R44, R37, R63: while BUSY = 1, STATUS, CTRL, CMD, ID, VERSION, CFG, BUF_SIZE, SRC_ADDR, SRC_LEN, DST_ADDR and DST_CAP read
exactly, a reserved offset reads 0, and a read of any offset only returns a value. -/
def Obligations.CsrReadsWhileBusy : Prop :=
  ∀ (s : State) (offset : BitVec 12) (rest : List HostEvent), s.busy = true → offset.toNat % 4 = 0 →
    s.inputs = .access (.csrRead .w32 offset) :: rest →
    ∃ v, step s = .next { s with inputs := rest, readData := v, draws := s.draws + 1 } ∧
      (offset = 0x000 → v = 0x48554646) ∧
      (offset = 0x004 → v = 0x00010000) ∧
      (offset = 0x008 → v = if s.cfg.wireBE then 1 else 0) ∧
      (offset = 0x00C → v = BitVec.ofNat 32 s.cfg.bufBytes) ∧
      (offset = 0x010 → v = if s.ie then 1 else 0) ∧
      (offset = 0x014 → v.toNat = 1 + 2 * s.done.toNat + 4 * s.err.toNat + 8 * s.ovr.toNat) ∧
      (offset = 0x018 → v = s.cmd) ∧
      (offset = 0x024 → v = s.srcAddr) ∧
      (offset = 0x028 → v = s.srcLen) ∧
      (offset = 0x02C → v = s.dstAddr) ∧
      (offset = 0x030 → v = s.dstCap) ∧
      (0x04C ≤ offset.toNat → offset.toNat < 0x400 → v = 0) ∧
      (0x800 ≤ offset.toNat → v = 0)

/-- R271: the number each error has in ERRCODE. -/
def Obligations.ErrorCodesAreNumbered : Prop :=
  errCodeValue .ok = 0x00 ∧ errCodeValue .illegalCmd = 0x01 ∧ errCodeValue .range = 0x02 ∧ errCodeValue .overlap = 0x03 ∧
  errCodeValue .capacity = 0x04 ∧ errCodeValue .shortInput = 0x05 ∧ errCodeValue .unknownSymbol = 0x10 ∧
  errCodeValue .malformedCodebook = 0x11 ∧ errCodeValue .truncatedStream = 0x12 ∧ errCodeValue .badPath = 0x13 ∧
  errCodeValue .malformedFrame = 0x14

/-- R62: a host CSR access that is not 32 bits wide, or at an offset that is no multiple of 4, is refused. -/
def Obligations.UndefinedCsrAccessRefused : Prop :=
  ∀ (s : State) (width : Width) (offset : BitVec 12) (v : Word) (rest : List HostEvent),
    (width ≠ .w32 ∨ offset.toNat % 4 ≠ 0) →
    (s.inputs = .access (.csrRead width offset) :: rest → ∃ r, step s = .refused r) ∧
    (s.inputs = .access (.csrWrite width offset v) :: rest → ∃ r, step s = .refused r)

/-- R64, R304, R312: a host BUF access that is misaligned, or not wholly below P_BUF_BYTES, is refused, and so is any BUF write
while BUSY = 1. Which name a refusal has is the model's choice (log 8). -/
def Obligations.UndefinedBufAccessStops : Prop :=
  ∀ (s : State) (width : Width) (a v : Word) (rest : List HostEvent) (access : Access),
    (access = .bufRead width a ∨ access = .bufWrite width a v) → s.inputs = .access access :: rest →
    (a.toNat % width.bytes ≠ 0 → step s = .refused .bufMisaligned) ∧
    (a.toNat % width.bytes = 0 → s.cfg.bufBytes < a.toNat + width.bytes → step s = .refused .bufAddressAbsent) ∧
    (a.toNat % width.bytes = 0 → a.toNat + width.bytes ≤ s.cfg.bufBytes → s.busy = true →
      access = .bufWrite width a v → step s = .refused .bufWriteWhileBusy)

/-- R64, R65: a host BUF write while idle, whatever event comes next, stores the value's low bytes, BUF[a] its bits 7:0, and
changes no other byte and nothing else; reading the same access back next gives them. That a write narrower than 32 bits
carries its value in the low bits of `v` is the model's reading (log 13). -/
def Obligations.BufWriteIsLittleEndian : Prop :=
  ∀ (s : State) (width : Width) (a v : Word) (rest : List HostEvent), s.busy = false →
    a.toNat % width.bytes = 0 → a.toNat + width.bytes ≤ s.cfg.bufBytes →
    s.inputs = .access (.bufWrite width a v) :: rest →
    ∃ t, step s = .next t ∧ t = { s with inputs := rest, buf := t.buf } ∧
      (∀ k < width.bytes, t.buf.readByte (a.toNat + k) = some (BitVec.ofNat 8 (v.toNat / 256 ^ k))) ∧
      (∀ b, (b < a.toNat ∨ a.toNat + width.bytes ≤ b) → t.buf.readByte b = s.buf.readByte b) ∧
      ∀ rest', rest = .access (.bufRead width a) :: rest' →
        ∃ u, step t = .next u ∧ u = { t with inputs := rest', readData := u.readData, draws := t.draws + 1 } ∧
          u.readData.toNat = v.toNat % 256 ^ width.bytes

/-- R64, R65: a host BUF read of any width while idle has no effect and returns the little-endian value of its bytes: byte k
of the value is BUF[a + k], where that holds a defined value, and nothing stands above them. -/
def Obligations.BufReadIsLittleEndian : Prop :=
  ∀ (s : State) (width : Width) (a : Word) (rest : List HostEvent), s.busy = false →
    a.toNat % width.bytes = 0 → a.toNat + width.bytes ≤ s.cfg.bufBytes →
    s.inputs = .access (.bufRead width a) :: rest →
    ∃ v, step s = .next { s with inputs := rest, readData := v, draws := s.draws + 1 } ∧ v.toNat < 256 ^ width.bytes ∧
      ∀ k < width.bytes, ∀ b, s.buf.readByte (a.toNat + k) = some b → v.toNat / 256 ^ k % 256 = b.toNat

/-- R71, R305, R64, R65: a host BUF read of any width while BUSY = 1 has no effect on the command, and each of its bytes that
lies outside the pending command's destination region is exact. -/
def Obligations.BufReadWhileBusy : Prop :=
  ∀ (s : State) (width : Width) (a : Word) (rest : List HostEvent), s.busy = true →
    a.toNat % width.bytes = 0 → a.toNat + width.bytes ≤ s.cfg.bufBytes →
    s.inputs = .access (.bufRead width a) :: rest →
    ∃ v, step s = .next { s with inputs := rest, readData := v, draws := s.draws + 1 } ∧ v.toNat < 256 ^ width.bytes ∧
      ∀ k < width.bytes, ∀ b, s.OutsideDst s.dstCap.toNat (a.toNat + k) → s.buf.readByte (a.toNat + k) = some b →
        v.toNat / 256 ^ k % 256 = b.toNat

/-- R276: after a completion the line shows CTRL.IE, after an issue it is low, and writing 1 to STATUS bit 1 lowers it. -/
def Obligations.InterruptFollowsCompletion : Prop :=
  (∀ (s : State) (i : Instr), ∃ t, exec i s = .next t ∧ t.irq = s.ie ∧ t.ie = s.ie) ∧
  (∀ (s : State) (w : Word), (s.issue w).irq = false) ∧
  (∀ (s : State) (r : Csr) (v : Word), r = .status → v.getLsbD 1 = true → (s.csrWrite r v).irq = false) ∧
  (∀ (s : State) (v : Word), v.getLsbD 0 = false →
    (s.csrWrite .ctrl v).irq = false ∧ (s.csrWrite .ctrl v).done = s.done)

/-! ## Reset -/

/-- R300: the state after reset, for the parameters the spec takes (R10; log 1). BUF is unspecified: no byte of it holds a
value (log 3). -/
def Obligations.ResetValues : Prop :=
  State.reset.csrValue .id = 0x48554646 ∧ State.reset.csrValue .version = 0x00010000 ∧
  State.reset.csrValue .cfg = 0 ∧ State.reset.csrValue .bufSize = 65536 ∧
  State.reset.ie = false ∧ State.reset.busy = false ∧ State.reset.done = false ∧ State.reset.err = false ∧
  State.reset.ovr = false ∧ State.reset.cmd = 0 ∧ errCodeValue State.reset.errcode = 0 ∧ State.reset.errInfo = 0 ∧
  State.reset.srcAddr = 0 ∧ State.reset.srcLen = 0 ∧ State.reset.dstAddr = 0 ∧ State.reset.dstCap = 0 ∧
  State.reset.bitlen = 0 ∧ State.reset.outLen = 0 ∧ State.reset.inUsed = 0 ∧
  (∀ s, countOf State.reset.freq s = 0) ∧ (∀ s, codeOf State.reset.codetab s = []) ∧
  State.reset.tree = .inner .absent .absent ∧ State.reset.tree.nodes = 1 ∧
  symCount State.reset.codetab = 0 ∧ maxCodeLen State.reset.codetab = 0 ∧ State.reset.irq = false ∧
  ∀ a, State.reset.buf.readByte a = none

/-- R300, R301: a reset pulse, whatever runs, abandons the pending command and leaves the reset values; BUF is unspecified.
The parameters, the host's events to come and the value last read stay (the model's choice, log 9). -/
def Obligations.ResetPulseAbandonsCommand : Prop :=
  ∀ (s : State) (rest : List HostEvent), s.inputs = .resetPulse :: rest →
    ∃ t, step s = .next t ∧
      t = { State.resetWith s.cfg with inputs := rest, readData := s.readData, draws := t.draws } ∧
      ∀ a, t.buf.readByte a = none

/-! ## The pre-checks -/

/-- R133, R138, R275: the region pre-checks in their order; the first that fails gives its error, and BUF and the internal
state are unchanged. The first two clauses write out the columns UsesSrc and UsesDst of R91. -/
def Obligations.PreChecksInOrder : Prop :=
  (∀ i : Instr, usesSrc i = true ↔ i ∈ [Instr.freqCount, .bitPack, .bitUnpack, .cbParse, .packCodes, .decodePayload,
    .encodeFrame, .decodeFrame]) ∧
  (∀ i : Instr, usesDst i = true ↔ i ∈ [Instr.bitPack, .bitUnpack, .cbSerialize, .packCodes, .decodePayload,
    .encodeFrame, .decodeFrame]) ∧
  ∀ (s : State) (i : Instr),
    (usesSrc i = true → ¬ s.SrcInside → exec i s = .next (s.afterPreCheckError .range 0)) ∧
    ((usesSrc i = true → s.SrcInside) → usesDst i = true → ¬ s.DstInside →
      exec i s = .next (s.afterPreCheckError .range 1)) ∧
    (usesSrc i = true → usesDst i = true → s.SrcInside → s.DstInside → ¬ s.RegionsApart →
      exec i s = .next (s.afterPreCheckError .overlap 0))

/-! ## NOP, FREQ_COUNT, TREE_BUILD, CODE_ASSIGN -/

/-- R140: NOP, word 0x00000000, completes with success in every state, whatever its regions, with OUT_LEN and IN_USED 0 and no
effect beyond the common completion; the line then shows CTRL.IE. -/
def Obligations.NopCompletes : Prop :=
  encode .nop = 0x00000000 ∧ ∀ s : State, ∃ t, exec .nop s = .next t ∧ Succeeds s s [] 0 t ∧ t.irq = s.ie

/-- R150, R151: FREQ_COUNT completes with FREQ the counts of the source region's symbols, which sum to SRC_LEN. -/
def Obligations.FreqCountCountsSymbols : Prop :=
  ∀ s : State, s.SrcInside →
    ∃ t f, exec .freqCount s = .next t ∧ Succeeds s { s with freq := f } [] s.srcLen.toNat t ∧
      (∀ c, (countOf f c).toNat = s.source.count c) ∧ totalCount f = s.srcLen.toNat

/-- R156, R157: TREE_BUILD on an alphabet of no symbol gives the empty root, on one symbol a root with that leaf as its left
child only. -/
def Obligations.TreeBuildDegenerateAlphabets : Prop :=
  ∀ s : State,
    ((∀ c, countOf s.freq c = 0) → ∃ t, exec .treeBuild s = .next t ∧
      Succeeds s { s with tree := .inner .absent .absent } [] 0 t ∧ t.tree.nodes = 1) ∧
    ∀ x, (∀ c, countOf s.freq c ≠ 0 ↔ c = x) → ∃ t, exec .treeBuild s = .next t ∧
      Succeeds s { s with tree := .inner (.leaf x) .absent } [] 0 t ∧ t.tree.nodes = 2

/-- R152 to R155, R159, R160: TREE_BUILD on n ≥ 2 symbols completes with the tree a run of the merge loop ends in: a strict
binary tree under an `Inner` root whose leaves are the symbols, each once, with 2n - 1 nodes and no leaf deeper than n - 1. It
writes only TREE. -/
def Obligations.TreeBuildIsStrict : Prop :=
  ∀ s : State, 2 ≤ (alphabet s.freq).length →
    ∃ t T, exec .treeBuild s = .next t ∧ Succeeds s { s with tree := T } [] 0 t ∧
      T = buildTree s.freq ∧ MergeRun (alphabet s.freq).length (leafEntries s.freq (alphabet s.freq)) T ∧
      T.strict = true ∧ T.isInner = true ∧ (T.paths.map Prod.fst).Perm (alphabet s.freq) ∧
      T.nodes = 2 * (alphabet s.freq).length - 1 ∧
      ∀ p ∈ T.paths, 1 ≤ p.2.length ∧ p.2.length ≤ (alphabet s.freq).length - 1

/-- R153, R154, R155, R158: for two or more symbols the merge loop on a queue with no order of its own ends in `BuildTree` of
the counts and in no other tree; and that is the tree TREE_BUILD leaves. -/
def Obligations.TreeBuildIndependentOfQueue : Prop :=
  (∀ f : FreqTable, 2 ≤ (alphabet f).length →
    ∀ T, MergeRun (alphabet f).length (leafEntries f (alphabet f)) T ↔ T = buildTree f) ∧
  ∀ s : State, 2 ≤ (alphabet s.freq).length →
    ∃ t, exec .treeBuild s = .next t ∧
      ∀ T, MergeRun (alphabet s.freq).length (leafEntries s.freq (alphabet s.freq)) T ↔ T = t.tree

/-- R155's worked trace: the frequencies of "aaabbc" give `Inner(Leaf(a), Inner(Leaf(c), Leaf(b)))`. -/
def Obligations.WorkedExampleTree : Prop :=
  buildTree (countSymbols [0x61, 0x61, 0x61, 0x62, 0x62, 0x63])
    = .inner (.leaf 0x61) (.inner (.leaf 0x63) (.leaf 0x62))

/-- R170, R172: CODE_ASSIGN completes with success on every tree; with each symbol at one leaf at most, a symbol's code is its
leaf's path and a symbol with no leaf has no code. On a tree HUFFCORE may hold, the codebook is prefix-free, with codes of
length at most 255 and one entry per leaf. -/
def Obligations.CodeAssignRecordsPaths : Prop :=
  ∀ s : State, ∃ t tab, exec .codeAssign s = .next t ∧ Succeeds s { s with codetab := tab } [] 0 t ∧
    ((s.tree.paths.map Prod.fst).Nodup →
      (∀ c p, s.tree.follow p = .leaf c → codeOf tab c = p) ∧
      ∀ c, (∀ p, s.tree.follow p ≠ .leaf c) → codeOf tab c = []) ∧
    (s.tree.Legal → CodesLegal tab ∧ symCount tab = s.tree.paths.length)

/-! ## BIT_PACK and BIT_UNPACK -/

/-- R180, R95: BIT_PACK packs bit 0 of each source byte MSB-first, pad bits 0, into ceil8(SRC_LEN) bytes and writes BITLEN; it
fails with CAPACITY exactly when they exceed DST_CAP. -/
def Obligations.BitPackPacksMsbFirst : Prop :=
  ∀ s : State, s.RegionsOk →
    ((s.srcLen.toNat + 7) / 8 ≤ s.dstCap.toNat →
      ∃ t P, exec .bitPack s = .next t ∧ Succeeds s { s with bitlen := s.srcLen } P s.srcLen.toNat t ∧
        P.length = (s.srcLen.toNat + 7) / 8 ∧
        ∀ i < 8 * P.length, (P.getD (i / 8) 0).getLsbD (7 - i % 8) =
          if i < s.srcLen.toNat then (s.byteAt (s.srcAddr.toNat + i)).getLsbD 0 else false) ∧
    (s.dstCap.toNat < (s.srcLen.toNat + 7) / 8 → ∃ t, exec .bitPack s = .next t ∧ Fails s s .capacity 0 t)

/-- R181, R96: BIT_UNPACK writes the first BITLEN bits of the source, one per byte; it fails with SHORT_INPUT, then with
CAPACITY, exactly when the source or the destination is too small. -/
def Obligations.BitUnpackUnpacksMsbFirst : Prop :=
  ∀ s : State, s.RegionsOk →
    (s.bitlen.toNat ≤ 8 * s.srcLen.toNat → s.bitlen.toNat ≤ s.dstCap.toNat →
      ∃ t out, exec .bitUnpack s = .next t ∧ Succeeds s s out ((s.bitlen.toNat + 7) / 8) t ∧
        out.length = s.bitlen.toNat ∧
        ∀ i < s.bitlen.toNat, out[i]? =
          some (if (s.byteAt (s.srcAddr.toNat + i / 8)).getLsbD (7 - i % 8) then 1 else 0)) ∧
    (8 * s.srcLen.toNat < s.bitlen.toNat → ∃ t, exec .bitUnpack s = .next t ∧ Fails s s .shortInput 0 t) ∧
    (s.bitlen.toNat ≤ 8 * s.srcLen.toNat → s.dstCap.toNat < s.bitlen.toNat →
      ∃ t, exec .bitUnpack s = .next t ∧ Fails s s .capacity 0 t)

/-- R182: unpacking a packed bit sequence gives it back; at the command level, BIT_UNPACK of what BIT_PACK wrote, with the
BITLEN it left, writes the bit-per-byte form of BIT_PACK's source. -/
def Obligations.BitPackRoundTrip : Prop :=
  (∀ bits : List Bool, bits.length ≤ 2 ^ 28 → unpack (pack bits) bits.length = bits) ∧
  ∀ s t u : State, s.RegionsOk → exec .bitPack s = .next t → t.err = false →
    u.RegionsOk → u.bitlen = t.bitlen → u.srcAddr = s.dstAddr → t.outLen.toNat ≤ u.srcLen.toNat →
    s.srcLen.toNat ≤ u.dstCap.toNat →
    (∀ k < t.outLen.toNat, u.buf.readByte (s.dstAddr.toNat + k) = t.buf.readByte (s.dstAddr.toNat + k)) →
    ∃ v, exec .bitUnpack u = .next v ∧ v.err = false ∧ v.outLen = s.srcLen ∧
      ∀ k < s.srcLen.toNat, v.buf.readByte (u.dstAddr.toNat + k) = some (s.byteAt (s.srcAddr.toNat + k) &&& 1)

/-- R183: `Unpack(P, n)` depends on the first n bits of P only; so BIT_UNPACK and DECODE_PAYLOAD depend on the first BITLEN
bits of the source only. -/
def Obligations.PaddingIsInvisible : Prop :=
  (∀ (p q : List Byte) (n : Nat),
    (∀ k < n, (p.getD (k / 8) 0).getLsbD (7 - k % 8) = (q.getD (k / 8) 0).getLsbD (7 - k % 8)) → unpack p n = unpack q n) ∧
  ∀ (i : Instr) (s₁ s₂ : State), i = .bitUnpack ∨ i = .decodePayload →
    s₂ = { s₁ with buf := s₂.buf } →
    (∀ k < s₁.bitlen.toNat, (s₁.byteAt (s₁.srcAddr.toNat + k / 8)).getLsbD (7 - k % 8)
      = (s₂.byteAt (s₂.srcAddr.toNat + k / 8)).getLsbD (7 - k % 8)) →
    ∃ t₁ t₂, exec i s₁ = .next t₁ ∧ exec i s₂ = .next t₂ ∧ t₂ = { t₁ with buf := t₂.buf } ∧
      ∀ k < t₁.outLen.toNat, t₂.buf.readByte (s₁.dstAddr.toNat + k) = t₁.buf.readByte (s₁.dstAddr.toNat + k)

/-! ## CB_SERIALIZE and CB_PARSE -/

/-- R15: the byte order of a wire integer. Byte k of `WireBytes32(v)` is v / 256^k for LE and v / 256^(3 - k) for BE, and
`WireU32` of four bytes is the sum R15 writes. -/
def Obligations.WireIntegerByteOrder : Prop :=
  (∀ v : Nat, v < 2 ^ 32 → ∀ k < 4,
    (wireBytes32 false v)[k]? = some (BitVec.ofNat 8 (v / 256 ^ k)) ∧
    (wireBytes32 true v)[k]? = some (BitVec.ofNat 8 (v / 256 ^ (3 - k)))) ∧
  (∀ be v, (wireBytes32 be v).length = 4) ∧
  ∀ b0 b1 b2 b3 : Byte,
    wireU32 false [b0, b1, b2, b3] = b0.toNat + 256 * b1.toNat + 65536 * b2.toNat + 16777216 * b3.toNat ∧
    wireU32 true [b0, b1, b2, b3] = b3.toNat + 256 * b2.toNat + 65536 * b1.toNat + 16777216 * b0.toNat

/-- R190, R191, R103: CB_SERIALIZE writes the count and then, in ascending symbol order, each coded symbol, its length and its
packed code: 4 + the sum of 2 + ceil8(L) bytes; it fails with CAPACITY exactly when that exceeds DST_CAP. -/
def Obligations.CbSerializeWritesBlock : Prop :=
  ∀ s : State, s.DstInside →
    ∃ es : List WireEntry,
      (es.map WireEntry.symbol).Pairwise (fun a b => a.toNat < b.toNat) ∧
      (∀ e, e ∈ es ↔ e.code ≠ [] ∧ codeOf s.codetab e.symbol = e.code ∧ e.body = pack e.code) ∧
      (blockBytes s.cfg.wireBE es.length es).length = 4 + (es.map fun e => 2 + (e.code.length + 7) / 8).sum ∧
      ((blockBytes s.cfg.wireBE es.length es).length ≤ s.dstCap.toNat →
        ∃ t, exec .cbSerialize s = .next t ∧ Succeeds s s (blockBytes s.cfg.wireBE es.length es) 0 t) ∧
      (s.dstCap.toNat < (blockBytes s.cfg.wireBE es.length es).length →
        ∃ t, exec .cbSerialize s = .next t ∧ Fails s s .capacity 0 t)

/-- R193, R199: CB_PARSE accepts every block of valid entries, in any order, with any pad bits, whatever bytes follow. CODETAB
then holds exactly the entries, the leaves of TREE are exactly their codes, CODE_ASSIGN would write the same CODETAB, and
TREE_NODES is 1 + the distinct non-empty proper prefixes + the number of entries. -/
def Obligations.CbParseAcceptsValidBlocks : Prop :=
  ∀ (s : State) (es : List WireEntry) (rest : List Byte), s.SrcInside → es.length ≤ 256 → ValidEntries es →
    s.source = blockBytes s.cfg.wireBE es.length es ++ rest →
    ∃ t T tab, exec .cbParse s = .next t ∧
      Succeeds s { s with tree := T, codetab := tab } [] (blockBytes s.cfg.wireBE es.length es).length t ∧
      PrefixFree tab ∧ symCount tab = es.length ∧ HoldsEntries tab es ∧ LeavesAre T es ∧ assignCodes T = tab ∧
      T.nodes = 1 + (properPrefixes es).length + es.length

/-- R199: every successful parse accepted a block of valid entries, and its codebook and tree have the properties the rule
lists: prefix-free, exactly the entries, the leaves exactly their codes, CODE_ASSIGN gives it again, the node count. -/
def Obligations.CbParseAcceptsOnlyValidBlocks : Prop :=
  ∀ s t : State, s.SrcInside → exec .cbParse s = .next t → t.err = false →
    ∃ es rest, es.length ≤ 256 ∧ ValidEntries es ∧ s.source = blockBytes s.cfg.wireBE es.length es ++ rest ∧
      t.inUsed.toNat = (blockBytes s.cfg.wireBE es.length es).length ∧ PrefixFree t.codetab ∧
      symCount t.codetab = es.length ∧ HoldsEntries t.codetab es ∧ LeavesAre t.tree es ∧ assignCodes t.tree = t.codetab ∧
      t.tree.nodes = 1 + (properPrefixes es).length + es.length

/-- R194, R198: the count stage's errors of CB_PARSE, and the cleared tree and codebook. `Fails` also says that the bytes of
[DST_ADDR, DST_ADDR + DST_CAP) become unspecified, for a command with no destination region: the model's reading of R137
(DEDUCED, log 6). -/
def Obligations.CbParseCountErrors : Prop :=
  ∀ s : State, s.SrcInside →
    (s.srcLen.toNat < 4 → ∃ t, exec .cbParse s = .next t ∧
      Fails s { s with tree := emptyRoot, codetab := noCodes } .shortInput 0 t) ∧
    (4 ≤ s.srcLen.toNat → 256 < wireU32 s.cfg.wireBE s.source → ∃ t, exec .cbParse s = .next t ∧
      Fails s { s with tree := emptyRoot, codetab := noCodes } .malformedCodebook 0xFFFFFFFF t)

/-- R195, R197, R198: after valid entries, the first bad one gives CB_PARSE its error: a missing symbol byte, a missing length
byte, length 0, short code bytes, a repeated symbol, a prefix conflict. Tree and codebook are then cleared. `Fails` also
says that the bytes of [DST_ADDR, DST_ADDR + DST_CAP) become unspecified, for a command with no destination region: the
model's reading of R137 (DEDUCED, log 6). -/
def Obligations.CbParseEntryErrors : Prop :=
  ∀ (s : State) (es : List WireEntry) (more : Nat) (rest : List Byte), s.SrcInside → ValidEntries es →
    es.length + (more + 1) ≤ 256 → s.source = blockBytes s.cfg.wireBE (es.length + (more + 1)) es ++ rest →
    let p := (blockBytes s.cfg.wireBE (es.length + (more + 1)) es).length
    let failsWith := fun (e : ErrCode) (info : Nat) =>
      ∃ t, exec .cbParse s = .next t ∧ Fails s { s with tree := emptyRoot, codetab := noCodes } e info t
    (rest = [] → failsWith .shortInput p) ∧
    (∀ x, rest = [x] → failsWith .shortInput (p + 1)) ∧
    ∀ x len body, rest = x :: len :: body →
      (len = 0 → failsWith .malformedCodebook es.length) ∧
      (len ≠ 0 → body.length < (len.toNat + 7) / 8 → failsWith .shortInput (p + 2)) ∧
      (len ≠ 0 → (len.toNat + 7) / 8 ≤ body.length → x ∈ es.map WireEntry.symbol →
        failsWith .malformedCodebook es.length) ∧
      (len ≠ 0 → (len.toNat + 7) / 8 ≤ body.length → x ∉ es.map WireEntry.symbol →
        (∃ e ∈ es, e.code <+: unpack body len.toNat ∨ unpack body len.toNat <+: e.code) →
        failsWith .malformedCodebook es.length)

/-- R200: CB_SERIALIZE then CB_PARSE of the block gives the codebook back; CB_PARSE of a valid block then CB_SERIALIZE writes the
block's canonical form, equal to the input exactly when the input was canonical. -/
def Obligations.WireRoundTrip : Prop :=
  (∀ s t u : State, s.DstInside → CodesLegal s.codetab → exec .cbSerialize s = .next t → t.err = false →
    u.cfg = s.cfg → u.SrcInside → u.srcAddr = s.dstAddr → t.outLen.toNat ≤ u.srcLen.toNat →
    (∀ k < t.outLen.toNat, u.buf.readByte (s.dstAddr.toNat + k) = t.buf.readByte (s.dstAddr.toNat + k)) →
    ∃ v, exec .cbParse u = .next v ∧ v.err = false ∧ v.codetab = s.codetab ∧ v.inUsed = t.outLen) ∧
  ∀ (s t : State) (es : List WireEntry) (rest : List Byte), s.SrcInside → es.length ≤ 256 → ValidEntries es →
    s.source = blockBytes s.cfg.wireBE es.length es ++ rest → exec .cbParse s = .next t →
    ∃ es', es'.Perm (es.map WireEntry.canonical) ∧ CanonicalEntries es' ∧
      (blockBytes s.cfg.wireBE es'.length es' = blockBytes s.cfg.wireBE es.length es ↔ CanonicalEntries es) ∧
      ∀ u : State, u.cfg = t.cfg → u.codetab = t.codetab → u.DstInside →
        (blockBytes s.cfg.wireBE es'.length es').length ≤ u.dstCap.toNat →
        ∃ v, exec .cbSerialize u = .next v ∧ Succeeds u u (blockBytes s.cfg.wireBE es'.length es') 0 v

/-! ## PACK_CODES and DECODE_PAYLOAD -/

/-- R210: PACK_CODES writes the source symbols' codes, concatenated and packed, and their bit count; it fails with
UNKNOWN_SYMBOL at the first symbol with no code, and only then with CAPACITY. -/
def Obligations.PackCodesPacksText : Prop :=
  ∀ s : State, s.RegionsOk →
    let bits := (s.source.map (codeOf s.codetab)).flatten
    ((∀ c ∈ s.source, codeOf s.codetab c ≠ []) → (bits.length + 7) / 8 ≤ s.dstCap.toNat →
      ∃ t, exec .packCodes s = .next t ∧
        Succeeds s { s with bitlen := BitVec.ofNat 32 bits.length } (pack bits) s.srcLen.toNat t ∧
        (s.cfg.legal = true → t.bitlen.toNat = bits.length)) ∧
    ((∀ c ∈ s.source, codeOf s.codetab c ≠ []) → s.dstCap.toNat < (bits.length + 7) / 8 →
      ∃ t, exec .packCodes s = .next t ∧ Fails s s .capacity 0 t) ∧
    ∀ n c, s.source[n]? = some c → codeOf s.codetab c = [] → (∀ b ∈ s.source.take n, codeOf s.codetab b ≠ []) →
      ∃ t, exec .packCodes s = .next t ∧ Fails s s .unknownSymbol n t

/-- R211, R212: DECODE_PAYLOAD whose BITLEN bits are whole codes of TREE's leaves, with room for their symbols, writes the
symbols, one byte each. -/
def Obligations.DecodePayloadDecodes : Prop :=
  ∀ (s : State) (symbols : List Symbol), s.RegionsOk → s.tree.isInner = true →
    s.bitlen.toNat ≤ 8 * s.srcLen.toNat →
    WalkGives s.tree s.dstCap.toNat (unpack s.source s.bitlen.toNat) symbols →
    ∃ t, exec .decodePayload s = .next t ∧ Succeeds s s symbols ((s.bitlen.toNat + 7) / 8) t

/-- R211 to R214: DECODE_PAYLOAD's errors: SHORT_INPUT before the walk, then the walk's TRUNCATED_STREAM, BAD_PATH or
CAPACITY, each with its ERR_INFO. -/
def Obligations.DecodePayloadErrors : Prop :=
  ∀ s : State, s.RegionsOk →
    (8 * s.srcLen.toNat < s.bitlen.toNat → ∃ t, exec .decodePayload s = .next t ∧ Fails s s .shortInput 0 t) ∧
    ∀ (e : ErrCode) (info : Nat), s.tree.isInner = true → s.bitlen.toNat ≤ 8 * s.srcLen.toNat →
      WalkFails s.tree s.dstCap.toNat (unpack s.source s.bitlen.toNat) e info →
      ∃ t, exec .decodePayload s = .next t ∧ Fails s s e info t

/-- R212 to R214: every bit string either decodes or fails in one of the three ways, with one result. -/
def Obligations.DecodeWalkIsTotal : Prop :=
  ∀ (t : Tree) (cap : Nat) (bits : List Bool), t.isInner = true →
    ((∃ symbols, WalkGives t cap bits symbols) ∨ ∃ e info, WalkFails t cap bits e info) ∧
    (∀ symbols, WalkGives t cap bits symbols ↔ decodeBits t cap bits = .ok symbols) ∧
    ∀ e info, WalkFails t cap bits e info ↔ decodeBits t cap bits = .error (e, info)

/-! ## ENCODE_FRAME and DECODE_FRAME -/

/-- R215, R103: ENCODE_FRAME rebuilds FREQ, TREE and CODETAB from the text and writes the block, the two lengths and the
payload; it fails with CAPACITY exactly when FrameLen exceeds DST_CAP, keeping the three tables it rebuilt. -/
def Obligations.EncodeFrameWritesFrame : Prop :=
  ∀ s : State, s.RegionsOk →
    ∃ (f : FreqTable) (T : Tree) (tab : CodeTable) (block : List Byte) (bits : List Bool),
      (∀ c, (countOf f c).toNat = s.source.count c) ∧ T = buildTree f ∧ tab = assignCodes T ∧
      (∀ c ∈ s.source, codeOf tab c ≠ []) ∧
      block = serializeBlock s.cfg.wireBE tab ∧ bits = (s.source.map (codeOf tab)).flatten ∧
      (block.length + 8 + (bits.length + 7) / 8 ≤ s.dstCap.toNat →
        ∃ t, exec .encodeFrame s = .next t ∧
          Succeeds s { s with freq := f, tree := T, codetab := tab, bitlen := BitVec.ofNat 32 bits.length }
            (block ++ wireBytes32 s.cfg.wireBE bits.length
              ++ wireBytes32 s.cfg.wireBE ((bits.length + 7) / 8) ++ pack bits) s.srcLen.toNat t ∧
          (s.cfg.legal = true → t.bitlen.toNat = bits.length)) ∧
      (s.dstCap.toNat < block.length + 8 + (bits.length + 7) / 8 →
        ∃ t, exec .encodeFrame s = .next t ∧ Fails s { s with freq := f, tree := T, codetab := tab } .capacity 0 t)

/-- R173: the bits ENCODE_FRAME writes for a text are the sum over the symbols of FREQ[s] times the length of its code. -/
def Obligations.EncodedLengthIsWeightedSum : Prop :=
  ∀ s t : State, s.cfg.legal = true → s.RegionsOk → exec .encodeFrame s = .next t → t.err = false →
    t.bitlen.toNat = (allSymbols.map fun c => (countOf t.freq c).toNat * (codeOf t.codetab c).length).sum

/-- R216, R217: DECODE_FRAME of a frame whose block is valid, whose lengths agree and whose bits are whole codes of it writes
the symbols, takes the codebook and BITLEN, and counts block, lengths and payload as consumed. -/
def Obligations.DecodeFrameDecodes : Prop :=
  ∀ (s : State) (es : List WireEntry) (bl pl : Nat) (payload rest : List Byte) (symbols : List Symbol),
    s.RegionsOk → es.length ≤ 256 → ValidEntries es → bl < 2 ^ 32 → pl < 2 ^ 32 → (bl + 7) / 8 ≤ pl → payload.length = pl →
    s.source = blockBytes s.cfg.wireBE es.length es ++ (wireBytes32 s.cfg.wireBE bl
      ++ (wireBytes32 s.cfg.wireBE pl ++ (payload ++ rest))) →
    (∀ T, LeavesAre T es → WalkGives T s.dstCap.toNat (unpack payload bl) symbols) →
    ∃ t T tab, exec .decodeFrame s = .next t ∧
      Succeeds s { s with tree := T, codetab := tab, bitlen := BitVec.ofNat 32 bl } symbols
        ((blockBytes s.cfg.wireBE es.length es).length + 8 + pl) t ∧
      HoldsEntries tab es ∧ LeavesAre T es

/-- R216, R217: DECODE_FRAME's errors after a valid block: a short bit_length, a short payload_byte_length, MALFORMED_FRAME, a
short payload, then the walk's. TREE and CODETAB keep the parsed codebook, BITLEN is unchanged. -/
def Obligations.DecodeFrameTailErrors : Prop :=
  ∀ (s : State) (es : List WireEntry) (rest : List Byte), s.RegionsOk → es.length ≤ 256 → ValidEntries es →
    s.source = blockBytes s.cfg.wireBE es.length es ++ rest →
    let q := (blockBytes s.cfg.wireBE es.length es).length
    let failsWith := fun (e : ErrCode) (info : Nat) =>
      ∃ t T tab, exec .decodeFrame s = .next t ∧ Fails s { s with tree := T, codetab := tab } e info t ∧
        HoldsEntries tab es ∧ LeavesAre T es
    (rest.length < 4 → failsWith .shortInput q) ∧
    (4 ≤ rest.length → rest.length < 8 → failsWith .shortInput (q + 4)) ∧
    ∀ bl pl body, bl < 2 ^ 32 → pl < 2 ^ 32 →
      rest = wireBytes32 s.cfg.wireBE bl ++ (wireBytes32 s.cfg.wireBE pl ++ body) →
      (pl < (bl + 7) / 8 → failsWith .malformedFrame (q + 4)) ∧
      ((bl + 7) / 8 ≤ pl → body.length < pl → failsWith .shortInput (q + 8)) ∧
      ∀ e info, (bl + 7) / 8 ≤ pl → pl ≤ body.length →
        (∀ T, LeavesAre T es → WalkFails T s.dstCap.toNat (unpack body bl) e info) → failsWith e info

/-- R198, R216: DECODE_FRAME fails on a bad block exactly as CB_PARSE does: with its error, and with TREE and CODETAB cleared. -/
def Obligations.DecodeFrameBlockErrors : Prop :=
  ∀ s t u : State, s.RegionsOk → exec .cbParse s = .next t → t.err = true → exec .decodeFrame s = .next u →
    Fails s { s with tree := emptyRoot, codetab := noCodes } t.errcode t.errInfo.toNat u

/-- R218: DECODE_FRAME of the frame ENCODE_FRAME wrote gives the text back. -/
def Obligations.FrameRoundTrip : Prop :=
  ∀ s t u : State, s.cfg.legal = true → s.RegionsOk → exec .encodeFrame s = .next t → t.err = false →
    u.cfg = s.cfg → u.RegionsOk → u.srcAddr = s.dstAddr → t.outLen.toNat ≤ u.srcLen.toNat →
    s.srcLen.toNat ≤ u.dstCap.toNat →
    (∀ k < t.outLen.toNat, u.buf.readByte (s.dstAddr.toNat + k) = t.buf.readByte (s.dstAddr.toNat + k)) →
    ∃ v, exec .decodeFrame u = .next v ∧ v.err = false ∧ v.outLen = s.srcLen ∧ v.inUsed = t.outLen ∧
      v.bitlen = t.bitlen ∧
      ∀ k < s.srcLen.toNat, v.buf.readByte (u.dstAddr.toNat + k) = some (s.byteAt (s.srcAddr.toNat + k))

/-- R219: the empty text encodes to twelve zero bytes; a text of one symbol m ≥ 1 times encodes with the code "0" for it,
bit_length m. -/
def Obligations.DegenerateTextsEncode : Prop :=
  (∀ s : State, s.RegionsOk → s.srcLen = 0 → 12 ≤ s.dstCap.toNat →
    ∃ t, exec .encodeFrame s = .next t ∧ t.err = false ∧ t.outLen = 12 ∧ t.bitlen = 0 ∧
      ∀ k < 12, t.buf.readByte (s.dstAddr.toNat + k) = some 0) ∧
  ∀ (s : State) (c : Symbol), s.RegionsOk → s.srcLen ≠ 0 → (∀ b ∈ s.source, b = c) →
    15 + (s.srcLen.toNat + 7) / 8 ≤ s.dstCap.toNat →
    ∃ t, exec .encodeFrame s = .next t ∧ t.err = false ∧ codeOf t.codetab c = [false] ∧ symCount t.codetab = 1 ∧
      t.bitlen = s.srcLen ∧ t.outLen.toNat = 15 + (s.srcLen.toNat + 7) / 8 ∧
      ∀ k < (s.srcLen.toNat + 7) / 8, t.buf.readByte (s.dstAddr.toNat + 15 + k) = some 0

/-! ## Every command -/

/-- R43: what each command may change of FREQ, TREE and CODETAB, whatever it ends with; no command writes SRC_ADDR, SRC_LEN,
DST_ADDR, DST_CAP, CMD, CTRL, STATUS.OVR or the parameters (R22, R24, R28, R29). -/
def Obligations.CommandsWriteOnlyTheirState : Prop :=
  ∀ (i : Instr) (s t : State), exec i s = .next t →
    (i ∉ [Instr.freqCount, .encodeFrame] → t.freq = s.freq) ∧
    (i ∉ [Instr.treeBuild, .cbParse, .encodeFrame, .decodeFrame] → t.tree = s.tree) ∧
    (i ∉ [Instr.codeAssign, .cbParse, .encodeFrame, .decodeFrame] → t.codetab = s.codetab) ∧
    t.cfg = s.cfg ∧ t.ie = s.ie ∧ t.ovr = s.ovr ∧ t.cmd = s.cmd ∧ t.srcAddr = s.srcAddr ∧ t.srcLen = s.srcLen ∧
    t.dstAddr = s.dstAddr ∧ t.dstCap = s.dstCap ∧ t.inputs = s.inputs ∧ t.readData = s.readData

/-- R30, R31, R32, R137: a completion with error leaves BITLEN alone and zeroes OUT_LEN and IN_USED; only BIT_PACK, PACK_CODES,
ENCODE_FRAME and DECODE_FRAME ever write BITLEN. -/
def Obligations.ErrorsReportNoOutput : Prop :=
  ∀ (i : Instr) (s t : State), exec i s = .next t →
    (t.err = true → t.outLen = 0 ∧ t.inUsed = 0 ∧ t.bitlen = s.bitlen ∧ t.errcode ≠ .ok) ∧
    (t.err = false → t.errcode = .ok ∧ t.errInfo = 0) ∧
    (i ∉ [Instr.bitPack, .packCodes, .encodeFrame, .decodeFrame] → t.bitlen = s.bitlen)

/-- R67, R136: no completion changes a BUF byte outside the destination region; on success it writes exactly OUT_LEN bytes at
DST_ADDR, each with a defined value, and changes no other byte. -/
def Obligations.CommandsWriteOnlyDestination : Prop :=
  ∀ (i : Instr) (s t : State), exec i s = .next t →
    (∀ a, s.OutsideDst s.dstCap.toNat a → t.buf.readByte a = s.buf.readByte a) ∧
    (t.err = false → (∀ a, s.OutsideDst t.outLen.toNat a → t.buf.readByte a = s.buf.readByte a) ∧
      t.outLen.toNat ≤ s.dstCap.toNat ∧
      ∀ k < t.outLen.toNat, ∃ b, t.buf.readByte (s.dstAddr.toNat + k) = some b)

/-- R69: a command's result depends on no BUF byte outside its source region. -/
def Obligations.ResultDependsOnSourceOnly : Prop :=
  ∀ (i : Instr) (s₁ s₂ : State), s₂ = { s₁ with buf := s₂.buf } →
    (∀ k < s₁.srcLen.toNat, s₁.byteAt (s₁.srcAddr.toNat + k) = s₂.byteAt (s₁.srcAddr.toNat + k)) →
    ∃ t₁ t₂, exec i s₁ = .next t₁ ∧ exec i s₂ = .next t₂ ∧ t₂ = { t₁ with buf := t₂.buf } ∧
      ∀ k < t₁.outLen.toNat, t₂.buf.readByte (s₁.dstAddr.toNat + k) = t₁.buf.readByte (s₁.dstAddr.toNat + k)

/-! ## The invariant -/

/-- The invariant holds after reset. -/
def Obligations.ResetSatisfiesInvariant : Prop :=
  State.reset.Inv ∧ ∀ c : Config, c.legal = true → (State.resetWith c).Inv

/-- Every step keeps the invariant, from every state that has it: BUF canonical and inside its size, TREE rooted in an `Inner`
node with each symbol once and no leaf deeper than 255, CODETAB prefix-free, the counts bounded by BUF's size, the flags'
rules (R11, R16, R24, R38, R39, R172, R199). -/
def Obligations.StepKeepsInvariant : Prop :=
  ∀ s t : State, s.Inv → step s = .next t → t.Inv
end

