-- ==== Sys2Proof/Laws/Bits.lean ====
section
/-! SUPPORT. The laws of the bit and byte formats: pack and unpack, wire integers (30_encoding.md R95, R96; 00_scope.md
R15). -/

namespace Sys2Proof.Machine

theorem ceil8_mul (n : Nat) : n ≤ 8 * ceil8 n := by unfold ceil8; omega

theorem ceil8_le_iff (n k : Nat) : ceil8 n ≤ k ↔ n ≤ 8 * k := by unfold ceil8; omega

@[simp] theorem pack_length (bits : List Bool) : (pack bits).length = ceil8 bits.length := by simp [pack]

@[simp] theorem unpack_length (bytes : List Byte) (n : Nat) : (unpack bytes n).length = n := by simp [unpack]

theorem unpack_getElem? (bytes : List Byte) (n i : Nat) :
    (unpack bytes n)[i]? = if i < n then some (packedBit bytes i) else none := by
  simp only [unpack, List.getElem?_map]
  split <;> simp_all

/-- `Unpack` depends on the first `n` bits only (43_bitpack.md R183). -/
theorem unpack_congr {p q : List Byte} {n : Nat} (h : ∀ i < n, packedBit p i = packedBit q i) :
    unpack p n = unpack q n := List.map_congr_left fun i hi => h i (List.mem_range.1 hi)

theorem byteOf_getLsbD (b0 b1 b2 b3 b4 b5 b6 b7 : Bool) (j : Nat) (hj : j < 8) :
    (BitVec.ofBoolListBE [b0, b1, b2, b3, b4, b5, b6, b7]).getLsbD (7 - j)
      = [b0, b1, b2, b3, b4, b5, b6, b7].getD j false := by
  have := BitVec.getMsbD_ofBoolListBE (bs := [b0, b1, b2, b3, b4, b5, b6, b7]) (i := j)
  rw [BitVec.getMsbD_eq_getLsbD] at this
  simpa [hj] using this

theorem packByte_getLsbD (bits : List Bool) (k j : Nat) (hj : j < 8) :
    (packByte bits k).getLsbD (7 - j) = bits.getD (8 * k + j) false := by
  rw [packByte, byteOf_getLsbD _ _ _ _ _ _ _ _ _ hj]
  interval_cases j <;> rfl

/-- Bit i of the packed string is bit i of the stream, 0 past its end (30_encoding.md R95). -/
theorem packedBit_pack (bits : List Bool) (i : Nat) : packedBit (pack bits) i = bits.getD i false := by
  unfold packedBit pack
  by_cases h : i / 8 < ceil8 bits.length
  · rw [List.getD_eq_getElem?_getD, List.getElem?_map, List.getElem?_range h]
    simp only [Option.map_some, Option.getD_some]
    rw [packByte_getLsbD _ _ _ (Nat.mod_lt _ (by omega)), Nat.div_add_mod]
  · rw [List.getD_eq_getElem?_getD, List.getElem?_eq_none (by simpa using h)]
    have : bits.length ≤ i := by unfold ceil8 at h; omega
    simp [List.getElem?_eq_none this]

theorem packedBit_append (p q : List Byte) (i : Nat) (h : i < 8 * p.length) :
    packedBit (p ++ q) i = packedBit p i := by
  unfold packedBit
  rw [List.getD_append _ _ _ _ (by omega)]

theorem packedBit_take (p : List Byte) (n i : Nat) (h : i < 8 * n) : packedBit (p.take n) i = packedBit p i := by
  unfold packedBit
  rw [List.getD_eq_getElem?_getD, List.getD_eq_getElem?_getD, List.getElem?_take, if_pos (by omega)]

theorem unpack_append (p q : List Byte) (n : Nat) (h : n ≤ 8 * p.length) : unpack (p ++ q) n = unpack p n :=
  unpack_congr fun i hi => packedBit_append p q i (by omega)

theorem unpack_take (p : List Byte) (k n : Nat) (h : n ≤ 8 * k) : unpack (p.take k) n = unpack p n :=
  unpack_congr fun i hi => packedBit_take p k i (by omega)

/-- The round trip of packing, as functions (43_bitpack.md R182). -/
theorem unpack_pack (bits : List Bool) : unpack (pack bits) bits.length = bits := by
  apply List.ext_getElem?
  intro i
  rw [unpack_getElem?, packedBit_pack]
  by_cases h : i < bits.length
  · simp [h]
  · simp [h]

theorem byteBit_bitByte (b : Bool) : byteBit (bitByte b) = b := by cases b <;> rfl

theorem wireU32_lt (be : Bool) (b : List Byte) : wireU32 be b < 2 ^ 32 := by
  have h (k : Nat) := (b.getD k 0).isLt
  have h0 := h 0; have h1 := h 1; have h2 := h 2; have h3 := h 3
  unfold wireU32
  split <;> omega

@[simp] theorem wireBytes32_length (be : Bool) (v : Nat) : (wireBytes32 be v).length = 4 := by
  unfold wireBytes32; split <;> rfl

theorem wireU32_append (be : Bool) (b rest : List Byte) (h : 4 ≤ b.length) :
    wireU32 be (b ++ rest) = wireU32 be b := by
  unfold wireU32
  simp only [List.getD_append _ _ _ _ (show 0 < b.length by omega), List.getD_append _ _ _ _ (show 1 < b.length by omega),
    List.getD_append _ _ _ _ (show 2 < b.length by omega), List.getD_append _ _ _ _ (show 3 < b.length by omega)]

/-- `WireU32` undoes `WireBytes32` (00_scope.md R15). -/
theorem wireU32_wireBytes32 (be : Bool) (v : Nat) (hv : v < 2 ^ 32) : wireU32 be (wireBytes32 be v) = v := by
  unfold wireU32 wireBytes32
  cases be <;> simp <;> omega

/-- `WireBytes32` undoes `WireU32` (00_scope.md R15). -/
theorem wireBytes32_wireU32 (be : Bool) (b : List Byte) (h : b.length = 4) : wireBytes32 be (wireU32 be b) = b := by
  match b, h with
  | [x, y, z, w], _ =>
    have hx := x.isLt; have hy := y.isLt; have hz := z.isLt; have hw := w.isLt
    unfold wireU32 wireBytes32
    cases be <;> simp <;> refine ⟨?_, ?_, ?_, ?_⟩ <;> apply BitVec.eq_of_toNat_eq <;> simp <;> omega

theorem wireBytes32_zero (be : Bool) : wireBytes32 be 0 = [0, 0, 0, 0] := by cases be <;> rfl

theorem pack_replicate_false (n : Nat) : pack (List.replicate n false) = List.replicate (ceil8 n) 0 := by
  apply List.ext_getElem?
  intro k
  have h : ∀ i, (List.replicate n false).getD i false = false := fun i => by
    rw [List.getD_eq_getElem?_getD, List.getElem?_replicate]; split <;> rfl
  simp only [pack, List.getElem?_map, List.length_replicate, List.getElem?_replicate]
  split
  · rw [List.getElem?_range ‹_›]; simp only [Option.map_some]
    congr 1
    apply BitVec.eq_of_getLsbD_eq
    intro i hi
    have := packByte_getLsbD (List.replicate n false) k (7 - i) (by omega)
    rw [h, show 7 - (7 - i) = i by omega] at this
    rw [this]; simp
  · rw [List.getElem?_eq_none (by simp; omega)]; rfl

end Sys2Proof.Machine
end

