-- ==== Sys2Proof/Laws/Tables.lean ====
section
/-! SUPPORT. The laws of the tables: reading an entry after writing one, the list of all symbols, the empty tables. -/

namespace Sys2Proof.Machine

theorem mem_allSymbols (s : Symbol) : s ∈ allSymbols := by
  refine List.mem_map.2 ⟨s.toNat, List.mem_range.2 s.isLt, ?_⟩
  simp

theorem allSymbols_nodup : allSymbols.Nodup := by
  refine List.Nodup.map_on (fun a ha b hb h => ?_) List.nodup_range
  have ha := List.mem_range.1 ha
  have hb := List.mem_range.1 hb
  have := congrArg BitVec.toNat h
  simp only [BitVec.toNat_ofNat] at this
  omega

theorem allSymbols_length : allSymbols.length = 256 := by simp [allSymbols]

/-- The symbols ascend. -/
theorem allSymbols_pairwise : allSymbols.Pairwise fun a b => a.toNat < b.toNat := by
  rw [allSymbols, List.pairwise_map]
  refine List.pairwise_lt_range.imp_of_mem fun ha hb h => ?_
  have ha := List.mem_range.1 ha
  have hb := List.mem_range.1 hb
  simp only [BitVec.toNat_ofNat]
  omega

theorem countOf_setCount (f : FreqTable) (a b : Symbol) (v : Word) :
    countOf (setCount f a v) b = if a = b then v else countOf f b := by
  unfold countOf setCount
  rw [Vector.getElem_set]
  simp [BitVec.toNat_inj]

theorem codeOf_setCode (t : CodeTable) (a b : Symbol) (c : Code) :
    codeOf (setCode t a c) b = if a = b then c else codeOf t b := by
  unfold codeOf setCode
  rw [Vector.getElem_set]
  simp [BitVec.toNat_inj]

@[simp] theorem countOf_noCounts (s : Symbol) : countOf noCounts s = 0 := by simp [countOf, noCounts]

@[simp] theorem codeOf_noCodes (s : Symbol) : codeOf noCodes s = [] := by simp [codeOf, noCodes]

theorem codeTable_ext {t t' : CodeTable} (h : ∀ s, codeOf t s = codeOf t' s) : t = t' := by
  ext i hi : 1
  have := h (BitVec.ofNat 8 i)
  have hm : (BitVec.ofNat 8 i).toNat = i := Nat.mod_eq_of_lt (show i < 2 ^ 8 from hi)
  simpa only [codeOf, hm] using this

theorem freqTable_ext {f f' : FreqTable} (h : ∀ s, countOf f s = countOf f' s) : f = f' := by
  ext i hi : 1
  have := h (BitVec.ofNat 8 i)
  have hm : (BitVec.ofNat 8 i).toNat = i := Nat.mod_eq_of_lt (show i < 2 ^ 8 from hi)
  simpa only [countOf, hm] using this

theorem mem_codedSymbols (t : CodeTable) (s : Symbol) : s ∈ codedSymbols t ↔ codeOf t s ≠ [] := by
  simp [codedSymbols, mem_allSymbols]

theorem codedSymbols_nodup (t : CodeTable) : (codedSymbols t).Nodup := allSymbols_nodup.filter _

theorem symCount_le (t : CodeTable) : symCount t ≤ 256 :=
  (List.length_filter_le _ _).trans (by rw [allSymbols_length])

theorem foldl_max_spec (l : List Nat) (a : Nat) :
    a ≤ l.foldl max a ∧ (∀ x ∈ l, x ≤ l.foldl max a) ∧ (l.foldl max a = a ∨ l.foldl max a ∈ l) := by
  induction l generalizing a with
  | nil => simp
  | cons y l ih =>
    obtain ⟨h1, h2, h3⟩ := ih (max a y)
    rw [List.foldl_cons]
    refine ⟨by omega, fun x hx => ?_, ?_⟩
    · rcases List.mem_cons.1 hx with rfl | hx
      · omega
      · exact h2 x hx
    · rcases h3 with h3 | h3
      · rw [h3, List.mem_cons]; omega
      · exact .inr (List.mem_cons_of_mem _ h3)

/-- MAX_CODE_LEN bounds every length (10_state.md R35). -/
theorem length_codeOf_le_maxCodeLen (t : CodeTable) (s : Symbol) : (codeOf t s).length ≤ maxCodeLen t :=
  (foldl_max_spec _ 0).2.1 _ (List.mem_map.2 ⟨s, mem_allSymbols s, rfl⟩)

/-- MAX_CODE_LEN is some entry's length (10_state.md R35). -/
theorem exists_length_codeOf_eq_maxCodeLen (t : CodeTable) : ∃ s, (codeOf t s).length = maxCodeLen t := by
  rcases (foldl_max_spec (allSymbols.map fun s => (codeOf t s).length) 0).2.2 with h | h
  · have := length_codeOf_le_maxCodeLen t 0
    have h : maxCodeLen t = 0 := h
    exact ⟨0, by omega⟩
  · obtain ⟨s, -, hs⟩ := List.mem_map.1 h
    exact ⟨s, hs⟩

end Sys2Proof.Machine
end

