-- ==== Sys2Proof/Laws/Tree.lean ====
section
/-! SUPPORT. The laws of trees and of the tree walker: leaves and their paths, prefix-freedom, and the codebook a walk
writes (42_code_assign.md R170, R172). -/

namespace Sys2Proof.Machine

@[simp] theorem Tree.follow_nil (t : Tree) : t.follow [] = t := rfl

@[simp] theorem Tree.follow_absent (p : Code) : Tree.follow .absent p = .absent := by
  induction p with
  | nil => rfl
  | cons b p ih => cases b <;> exact ih

@[simp] theorem Tree.follow_leaf_cons (s : Symbol) (b : Bool) (p : Code) : Tree.follow (.leaf s) (b :: p) = .absent := by
  cases b <;> exact Tree.follow_absent p

theorem Tree.follow_append (t : Tree) (p q : Code) : t.follow (p ++ q) = (t.follow p).follow q := by
  induction p generalizing t with
  | nil => rfl
  | cons b p ih => exact ih _

/-- The leaves are the positions where a path ends in a `Leaf`. -/
theorem Tree.mem_paths (t : Tree) (s : Symbol) (p : Code) : (s, p) ∈ t.paths ↔ t.follow p = .leaf s := by
  induction t generalizing p with
  | absent => simp [Tree.paths]
  | leaf x =>
    cases p with
    | nil => simp [Tree.paths, Tree.follow, eq_comm]
    | cons b p => simp [Tree.paths]
  | inner l r ihl ihr =>
    cases p with
    | nil => simp [Tree.paths, Tree.follow]
    | cons b p => cases b <;> simp [Tree.paths, Tree.follow, Tree.child, ihl, ihr]

/-- No leaf's path is a prefix of another leaf's path: leaves have no descendants (42_code_assign.md R172). -/
theorem Tree.paths_prefix_eq {t : Tree} {s s' : Symbol} {p q : Code} (h : (s, p) ∈ t.paths) (h' : (s', q) ∈ t.paths)
    (hpq : p <+: q) : s = s' ∧ p = q := by
  obtain ⟨u, rfl⟩ := hpq
  rw [Tree.mem_paths] at h h'
  rw [Tree.follow_append, h] at h'
  cases u with
  | nil => simpa [Tree.follow] using h'
  | cons b u => simp at h'

theorem Tree.path_ne_nil {t : Tree} (hr : t.isInner = true) {s : Symbol} {p : Code} (h : (s, p) ∈ t.paths) : p ≠ [] := by
  rintro rfl
  rw [Tree.mem_paths] at h
  cases t <;> simp_all [Tree.follow, Tree.isInner]

/-- With every symbol at one leaf only, a symbol has one path. -/
theorem Tree.path_unique {t : Tree} (hn : (t.paths.map Prod.fst).Nodup) {s : Symbol} {p q : Code} (h : (s, p) ∈ t.paths)
    (h' : (s, q) ∈ t.paths) : p = q :=
  congrArg Prod.snd (List.inj_on_of_nodup_map hn h h' rfl)

theorem codeOf_walkCodes_of_not_mem (t : Tree) (p : Code) (tab : CodeTable) (s : Symbol)
    (h : s ∉ t.paths.map Prod.fst) : codeOf (walkCodes t p tab) s = codeOf tab s := by
  induction t generalizing p tab with
  | absent => rfl
  | leaf x =>
    have hx : x ≠ s := by rintro rfl; simp [Tree.paths] at h
    rw [walkCodes, codeOf_setCode, if_neg hx]
  | inner l r ihl ihr =>
    have : s ∉ l.paths.map Prod.fst ∧ s ∉ r.paths.map Prod.fst := by
      simpa [Tree.paths, not_or] using h
    rw [walkCodes, ihr _ _ this.2, ihl _ _ this.1]

theorem codeOf_walkCodes_of_mem (t : Tree) (p : Code) (tab : CodeTable) {s : Symbol} {c : Code}
    (hn : (t.paths.map Prod.fst).Nodup) (h : (s, c) ∈ t.paths) : codeOf (walkCodes t p tab) s = p ++ c := by
  induction t generalizing p tab c with
  | absent => simp [Tree.paths] at h
  | leaf x =>
    simp only [Tree.paths, List.mem_singleton, Prod.mk.injEq] at h
    rw [walkCodes, codeOf_setCode, if_pos h.1.symm, h.2, List.append_nil]
  | inner l r ihl ihr =>
    have hsplit : (l.paths.map Prod.fst ++ r.paths.map Prod.fst).Nodup := by
      simpa [Tree.paths, Function.comp_def] using hn
    obtain ⟨hl, hr, hd⟩ := List.nodup_append.1 hsplit
    simp only [Tree.paths, List.mem_append, List.mem_map, Prod.mk.injEq] at h
    rw [walkCodes]
    rcases h with ⟨⟨s', q⟩, hq, rfl, rfl⟩ | ⟨⟨s', q⟩, hq, rfl, rfl⟩
    · rw [codeOf_walkCodes_of_not_mem _ _ _ _ fun hm => hd _ (List.mem_map_of_mem hq) _ hm rfl, ihl _ _ hl hq]
      simp
    · rw [ihr _ _ hr hq]
      simp

/-- CODE_ASSIGN's codebook: the path of a symbol's leaf, nothing for a symbol without one (42_code_assign.md R170). -/
theorem codeOf_assignCodes_of_mem {t : Tree} (hn : (t.paths.map Prod.fst).Nodup) {s : Symbol} {c : Code}
    (h : (s, c) ∈ t.paths) : codeOf (assignCodes t) s = c := by
  simpa [assignCodes] using codeOf_walkCodes_of_mem t [] noCodes hn h

theorem codeOf_assignCodes_of_not_mem {t : Tree} {s : Symbol} (h : s ∉ t.paths.map Prod.fst) :
    codeOf (assignCodes t) s = [] := by
  rw [assignCodes, codeOf_walkCodes_of_not_mem _ _ _ _ h, codeOf_noCodes]

/-- A symbol's code is its leaf's path, and only a leaf gives a code. -/
theorem mem_paths_of_codeOf_assignCodes {t : Tree} (hn : (t.paths.map Prod.fst).Nodup) {s : Symbol}
    (h : codeOf (assignCodes t) s ≠ []) : (s, codeOf (assignCodes t) s) ∈ t.paths := by
  by_cases hm : s ∈ t.paths.map Prod.fst
  · obtain ⟨⟨s', c⟩, hc, rfl⟩ := List.mem_map.1 hm
    rw [codeOf_assignCodes_of_mem hn hc]
    exact hc
  · exact absurd (codeOf_assignCodes_of_not_mem hm) h

end Sys2Proof.Machine
end

