-- ==== Sys2Proof/Laws/Codebook.lean ====
section
/-! SUPPORT. The laws of the codebook block: what Insert does to the leaves, and that parsing steps over every valid entry
(44_codebook.md R195, R197, R199, R200). -/

namespace Sys2Proof.Machine

/-- Every `Inner` node at or below this position has a child: decode trees grow only towards leaves. -/
def Tree.live : Tree → Bool
  | .absent => true
  | .leaf _ => true
  | .inner l r => (decide (l ≠ .absent) || decide (r ≠ .absent)) && l.live && r.live

/-- The positions below the root are live (the root itself may be the empty root). -/
def Tree.grown : Tree → Bool
  | .inner l r => l.live && r.live
  | _ => false

theorem Tree.isInner_of_grown {t : Tree} (h : t.grown = true) : t.isInner = true := by
  cases t <;> simp_all [Tree.grown, Tree.isInner]

theorem Tree.live_of_grown {l r : Tree} (h : (Tree.inner l r).grown = true) (hne : l ≠ .absent ∨ r ≠ .absent) :
    (Tree.inner l r).live = true := by
  simp only [Tree.grown, Bool.and_eq_true] at h
  simp only [Tree.live, Bool.and_eq_true, Bool.or_eq_true, decide_eq_true_eq]
  exact ⟨⟨hne, h.1⟩, h.2⟩

theorem Tree.grown_of_live {l r : Tree} (h : (Tree.inner l r).live = true) : (Tree.inner l r).grown = true := by
  simp_all [Tree.live, Tree.grown]

theorem Tree.exists_path_of_live {t : Tree} (h : t.live = true) (hne : t ≠ .absent) : ∃ e, e ∈ t.paths := by
  induction t with
  | absent => exact absurd rfl hne
  | leaf s => exact ⟨_, List.mem_singleton.2 rfl⟩
  | inner l r ihl ihr =>
    simp only [Tree.live, Bool.and_eq_true, Bool.or_eq_true, decide_eq_true_eq] at h
    rcases h.1.1 with hl | hr
    · obtain ⟨e, he⟩ := ihl h.1.2 hl
      exact ⟨(e.1, false :: e.2), by simp [Tree.paths, he]⟩
    · obtain ⟨e, he⟩ := ihr h.2 hr
      exact ⟨(e.1, true :: e.2), by simp [Tree.paths, he]⟩

/-- Setting a child puts a new set of leaves below one edge. -/
theorem Tree.setChild_paths {l r k : Tree} (b : Bool) {e : Symbol × Code}
    (h : k.paths.Perm (e :: ((Tree.inner l r).child b).paths)) :
    ((Tree.inner l r).setChild b k).paths.Perm ((e.1, b :: e.2) :: (Tree.inner l r).paths) := by
  cases b
  · simp only [Tree.setChild, Tree.paths, Tree.child] at h ⊢
    exact (h.map _).append_right _
  · simp only [Tree.setChild, Tree.paths, Tree.child] at h ⊢
    exact (List.Perm.append_left _ (h.map _)).trans List.perm_middle

theorem Tree.setChild_grown {l r k : Tree} (b : Bool) (h : (Tree.inner l r).grown = true) (hk : k.live = true) :
    ((Tree.inner l r).setChild b k).grown = true := by
  cases b <;> simp_all [Tree.setChild, Tree.grown]

theorem Tree.setChild_nodes {l r k : Tree} (b : Bool) :
    ((Tree.inner l r).setChild b k).nodes + ((Tree.inner l r).child b).nodes = (Tree.inner l r).nodes + k.nodes := by
  cases b <;> simp only [Tree.setChild, Tree.child, Tree.nodes] <;> omega

/-- A successful Insert adds the one leaf, at the code's path, and at most as many nodes as the code has bits
(44_codebook.md R197). -/
theorem insertLeaf_spec {s : Symbol} {c : Code} {t t' : Tree} (hg : t.grown = true) (h : insertLeaf s c t = some t') :
    t'.grown = true ∧ t'.paths.Perm ((s, c) :: t.paths) ∧ t'.nodes ≤ t.nodes + c.length ∧
      (∀ l r, t' = .inner l r → l ≠ .absent ∨ r ≠ .absent) := by
  induction c generalizing t t' with
  | nil => simp [insertLeaf] at h
  | cons b c ih =>
    obtain ⟨l, r, rfl⟩ : ∃ l r, t = .inner l r := by cases t <;> simp_all [Tree.grown]
    have hne : ∀ k : Tree, k ≠ .absent → ∀ l' r', (Tree.inner l r).setChild b k = .inner l' r' → l' ≠ .absent ∨ r' ≠ .absent := by
      intro k hk l' r' he
      cases b <;> simp only [Tree.setChild, Tree.inner.injEq] at he
      · left; rw [← he.1]; exact hk
      · right; rw [← he.2]; exact hk
    cases c with
    | nil =>
      rw [insertLeaf] at h
      split at h
      · rename_i hc
        simp only [Option.some.injEq] at h
        subst h
        refine ⟨Tree.setChild_grown b hg rfl, Tree.setChild_paths (e := (s, [])) b (by rw [hc]; exact .refl _), ?_, hne _ (by simp)⟩
        have := Tree.setChild_nodes (l := l) (r := r) (k := .leaf s) b
        simp only [List.length_singleton]
        rw [hc] at this
        simp only [Tree.nodes] at this ⊢
        omega
      · simp at h
    | cons b' c =>
      rw [insertLeaf] at h
      split at h
      · rename_i hc
        obtain ⟨k, hk, rfl⟩ := Option.map_eq_some_iff.1 h
        obtain ⟨h1, h2, h3, h4⟩ := ih (t := emptyRoot) rfl hk
        obtain ⟨kl, kr, rfl⟩ : ∃ l r, k = .inner l r := by cases k <;> simp_all [Tree.grown]
        refine ⟨Tree.setChild_grown b hg (Tree.live_of_grown h1 (h4 _ _ rfl)),
          Tree.setChild_paths (e := (s, b' :: c)) b (by rw [hc]; simpa [emptyRoot, Tree.paths] using h2), ?_, hne _ (by simp)⟩
        have := Tree.setChild_nodes (l := l) (r := r) (k := .inner kl kr) b
        rw [hc] at this
        simp only [emptyRoot, Tree.nodes, List.length_cons] at this h3 ⊢
        omega
      · simp at h
      · rename_i l' r' hc
        obtain ⟨k, hk, rfl⟩ := Option.map_eq_some_iff.1 h
        have hlive : (Tree.inner l' r').live = true := by
          rw [← hc]; cases b <;> simp_all [Tree.grown, Tree.child]
        obtain ⟨h1, h2, h3, h4⟩ := ih (Tree.grown_of_live hlive) hk
        obtain ⟨kl, kr, rfl⟩ : ∃ l r, k = .inner l r := by cases k <;> simp_all [Tree.grown]
        refine ⟨Tree.setChild_grown b hg (Tree.live_of_grown h1 (h4 _ _ rfl)),
          Tree.setChild_paths (e := (s, b' :: c)) b (by rw [hc]; exact h2), ?_, hne _ (by simp)⟩
        have := Tree.setChild_nodes (l := l) (r := r) (k := .inner kl kr) b
        rw [hc] at this
        simp only [List.length_cons] at this h3 ⊢
        omega

/-- Insert fails exactly on a prefix conflict: a code held is a prefix of `c` (or equal), or `c` of a code held
(44_codebook.md R197). -/
theorem insertLeaf_eq_none {s : Symbol} {c : Code} {t : Tree} (hg : t.grown = true) (hc : c ≠ []) :
    insertLeaf s c t = none ↔ ∃ e ∈ t.paths, e.2 <+: c ∨ c <+: e.2 := by
  induction c generalizing t with
  | nil => exact absurd rfl hc
  | cons b c ih =>
    obtain ⟨l, r, rfl⟩ : ∃ l r, t = .inner l r := by cases t <;> simp_all [Tree.grown]
    have hchild : ((Tree.inner l r).child b).live = true := by cases b <;> simp_all [Tree.grown, Tree.child]
    have hpaths : (∃ e ∈ (Tree.inner l r).paths, e.2 <+: b :: c ∨ b :: c <+: e.2) ↔
        ∃ e ∈ ((Tree.inner l r).child b).paths, e.2 <+: c ∨ c <+: e.2 := by
      constructor
      · rintro ⟨⟨x, p⟩, he, hp⟩
        cases p with
        | nil => rw [Tree.mem_paths] at he; simp [Tree.follow] at he
        | cons b' p =>
          simp only [List.cons_prefix_cons] at hp
          have : b' = b := by tauto
          subst this
          rw [Tree.mem_paths, Tree.follow] at he
          exact ⟨(x, p), (Tree.mem_paths _ _ _).2 he, by tauto⟩
      · rintro ⟨⟨x, p⟩, he, hp⟩
        refine ⟨(x, b :: p), (Tree.mem_paths _ x (b :: p)).2 ((Tree.mem_paths _ x p).1 he), ?_⟩
        simpa only [List.cons_prefix_cons, true_and] using hp
    rw [hpaths]
    cases c with
    | nil =>
      rw [insertLeaf]
      cases hk : (Tree.inner l r).child b with
      | absent => simp [Tree.paths]
      | leaf x => simp [Tree.paths]
      | inner l' r' =>
        rw [hk] at hchild
        obtain ⟨e, he⟩ := Tree.exists_path_of_live hchild (by simp)
        simp only [true_iff]
        exact ⟨e, he, .inr List.nil_prefix⟩
    | cons b' c =>
      rw [insertLeaf]
      cases hk : (Tree.inner l r).child b with
      | absent =>
        rw [Option.map_eq_none_iff, ih (t := emptyRoot) rfl (by simp)]
        simp [emptyRoot, Tree.paths]
      | leaf x => simp [Tree.paths]
      | inner l' r' =>
        rw [hk] at hchild
        rw [Option.map_eq_none_iff, ih (Tree.grown_of_live hchild) (by simp)]

/-- What a tree and a code table hold after the entries `es` are parsed. -/
structure Holds (t : Tree) (tab : CodeTable) (es : List WireEntry) : Prop where
  grown : t.grown = true
  paths : t.paths.Perm (es.map fun e => (e.symbol, e.code))
  codes : HoldsEntries tab es
  nodes : t.nodes ≤ 1 + (es.map fun e => e.code.length).sum

theorem holds_nil : Holds emptyRoot noCodes [] :=
  ⟨rfl, by simp [emptyRoot, Tree.paths], ⟨by simp, by simp⟩, by simp [emptyRoot, Tree.nodes]⟩

/-- Adding one entry to what a tree and a table hold. -/
theorem Holds.add {t t' : Tree} {tab : CodeTable} {es : List WireEntry} {e : WireEntry} (h : Holds t tab es)
    (hne : e.symbol ∉ es.map WireEntry.symbol) (hi : insertLeaf e.symbol e.code t = some t') :
    Holds t' (setCode tab e.symbol e.code) (es ++ [e]) := by
  obtain ⟨h1, h2, h3, -⟩ := insertLeaf_spec h.grown hi
  refine ⟨h1, ?_, ⟨fun x hx => ?_, fun s hs => ?_⟩, ?_⟩
  · rw [List.map_append]
    exact (h2.trans (h.paths.cons _)).trans (List.perm_append_comm (l₁ := [(e.symbol, e.code)]))
  · rw [codeOf_setCode]
    rcases List.mem_append.1 hx with hx | hx
    · rw [if_neg, h.codes.1 x hx]
      intro heq
      exact hne (heq ▸ List.mem_map_of_mem hx)
    · rw [List.mem_singleton.1 hx, if_pos rfl]
  · simp only [List.map_append, List.mem_append, not_or] at hs
    rw [codeOf_setCode, if_neg, h.codes.2 s hs.1]
    rintro rfl
    simp at hs
  · have := h.nodes
    simp only [List.map_append, List.sum_append, List.map_cons, List.map_nil, List.sum_cons, List.sum_nil]
    omega

/-- Insert fails exactly when the code conflicts with an entry held. -/
theorem Holds.insertLeaf_eq_none {t : Tree} {tab : CodeTable} {es : List WireEntry} (h : Holds t tab es) {s : Symbol}
    {c : Code} (hc : c ≠ []) : insertLeaf s c t = none ↔ ∃ e ∈ es, e.code <+: c ∨ c <+: e.code := by
  rw [Machine.insertLeaf_eq_none h.grown hc]
  constructor
  · rintro ⟨x, hx, hp⟩
    obtain ⟨e, he, rfl⟩ := List.mem_map.1 (h.paths.mem_iff.1 hx)
    exact ⟨e, he, hp⟩
  · rintro ⟨e, he, hp⟩
    exact ⟨(e.symbol, e.code), h.paths.mem_iff.2 (List.mem_map_of_mem he), hp⟩

/-- A symbol has no code yet exactly when no entry held is for it. -/
theorem Holds.length_codeOf_eq_zero {t : Tree} {tab : CodeTable} {es : List WireEntry} (h : Holds t tab es)
    (hok : ∀ e ∈ es, e.Ok) (s : Symbol) : (codeOf tab s).length = 0 ↔ s ∉ es.map WireEntry.symbol := by
  constructor
  · intro h0 hm
    obtain ⟨e, he, rfl⟩ := List.mem_map.1 hm
    rw [h.codes.1 e he] at h0
    have := (hok e he).pos
    omega
  · intro hm
    rw [h.codes.2 s hm]
    rfl

theorem ofNat8_toNat_of_le {n : Nat} (h : n ≤ 255) : (BitVec.ofNat 8 n).toNat = n := by
  rw [BitVec.toNat_ofNat]; omega

theorem ValidEntries.of_append {es es' : List WireEntry} (h : ValidEntries (es ++ es')) : ValidEntries es :=
  ⟨fun e he => h.ok e (by simp [he]), by have := h.symbolsOnce; rw [List.map_append] at this; exact this.of_append_left,
    (List.pairwise_append.1 h.prefixFree).1⟩

/-- Parsing steps over valid entries: after `new` it stands at the next entry, holding all of them (44_codebook.md
R195). -/
theorem parseEntries_append (new : List WireEntry) {old : List WireEntry} {left e p : Nat} {rest : List Byte} {t : Tree}
    {tab : CodeTable} (hv : ValidEntries (old ++ new)) (h : Holds t tab old) :
    ∃ t' tab', Holds t' tab' (old ++ new) ∧
      parseEntries (new.length + left) e p (new.flatMap WireEntry.bytes ++ rest) t tab
        = parseEntries left (e + new.length) (p + (new.flatMap WireEntry.bytes).length) rest t' tab' := by
  induction new generalizing old e p t tab with
  | nil => exact ⟨t, tab, by simpa using h, by simp⟩
  | cons x new ih =>
    have hx : x.Ok := hv.ok x (by simp)
    have hlen := ofNat8_toNat_of_le hx.le
    have hsym : x.symbol ∉ old.map WireEntry.symbol := by
      have := hv.symbolsOnce
      rw [List.map_append, List.map_cons] at this
      intro hm
      exact (List.nodup_append.1 this).2.2 _ hm _ (by simp) rfl
    have hcode : ¬ ∃ y ∈ old, y.code <+: x.code ∨ x.code <+: y.code := by
      rintro ⟨y, hy, hp⟩
      have := (List.pairwise_append.1 hv.prefixFree).2.2 y hy x (by simp)
      tauto
    have hne : x.code ≠ [] := fun h0 => by have := hx.pos; rw [h0] at this; simp at this
    obtain ⟨t₁, ht₁⟩ : ∃ t₁, insertLeaf x.symbol x.code t = some t₁ := by
      rw [← h.insertLeaf_eq_none (s := x.symbol) hne] at hcode
      exact Option.ne_none_iff_exists'.1 hcode
    obtain ⟨t', tab', hh, heq⟩ := ih (old := old ++ [x]) (e := e + 1) (p := p + 2 + ceil8 x.code.length) (by simpa using hv)
      (h.add hsym ht₁)
    refine ⟨t', tab', by simpa using hh, ?_⟩
    rw [List.length_cons, show new.length + 1 + left = (new.length + left) + 1 by omega, List.flatMap_cons]
    simp only [WireEntry.bytes, List.cons_append, List.append_assoc, parseEntries, hlen, ← hx.size]
    rw [if_neg (by have := hx.pos; omega), if_neg (by simp),
      if_neg (by rw [not_not, h.length_codeOf_eq_zero fun e he => hv.ok e (by simp [he])]; exact hsym)]
    rw [List.take_left, List.drop_left, hx.unpacks, ht₁]
    simp only
    rw [hx.size, heq]
    simp only [List.length_cons, List.length_append, hx.size]
    congr 1 <;> omega

/-- A block that parses is a row of valid entries (44_codebook.md R195, R197). -/
theorem parseEntries_ok {old : List WireEntry} {left e p : Nat} {rest : List Byte} {t : Tree} {tab : CodeTable}
    {b : ParsedBlock} (hv : ValidEntries old) (h : Holds t tab old) (hb : parseEntries left e p rest t tab = .ok b) :
    ∃ new tail, new.length = left ∧ rest = new.flatMap WireEntry.bytes ++ tail ∧ ValidEntries (old ++ new) ∧
      b.used = p + (new.flatMap WireEntry.bytes).length ∧ Holds b.tree b.codetab (old ++ new) := by
  induction left generalizing old e p rest t tab with
  | zero =>
    simp only [parseEntries, Except.ok.injEq] at hb
    subst hb
    exact ⟨[], rest, rfl, by simp, by simpa using hv, by simp, by simpa using h⟩
  | succ left ih =>
    match rest with
    | [] => simp [parseEntries] at hb
    | [_] => simp [parseEntries] at hb
    | s :: len :: body =>
      rw [parseEntries] at hb
      simp only at hb
      split at hb
      · simp at hb
      split at hb
      · simp at hb
      split at hb
      · simp at hb
      rename_i hpos hsize hnew
      split at hb
      · simp at hb
      rename_i t₁ ht₁
      have hl := len.isLt
      rw [not_not] at hnew
      have hulen : (unpack (body.take (ceil8 len.toNat)) len.toNat).length = len.toNat := unpack_length _ _
      have hx : WireEntry.Ok ⟨s, unpack (body.take (ceil8 len.toNat)) len.toNat, body.take (ceil8 len.toNat)⟩ :=
        ⟨by rw [hulen]; omega, by rw [hulen]; omega, by rw [hulen, List.length_take]; omega, by rw [hulen]⟩
      have hsym := (h.length_codeOf_eq_zero hv.ok s).1 hnew
      have hne : unpack (body.take (ceil8 len.toNat)) len.toNat ≠ [] := fun h0 => by rw [h0] at hulen; simp at hulen; omega
      have hfree : ¬ ∃ y ∈ old, y.code <+: unpack (body.take (ceil8 len.toNat)) len.toNat ∨
          unpack (body.take (ceil8 len.toNat)) len.toNat <+: y.code := by
        rw [← h.insertLeaf_eq_none (s := s) hne, ht₁]; simp
      have hv' : ValidEntries (old ++ [⟨s, unpack (body.take (ceil8 len.toNat)) len.toNat, body.take (ceil8 len.toNat)⟩]) := by
        refine ⟨fun e he => ?_, ?_, ?_⟩
        · rcases List.mem_append.1 he with he | he
          · exact hv.ok e he
          · rw [List.mem_singleton.1 he]; exact hx
        · rw [List.map_append, List.nodup_append]
          refine ⟨hv.symbolsOnce, by simp, fun a ha b hb hab => ?_⟩
          simp only [List.map_cons, List.map_nil, List.mem_singleton] at hb
          exact hsym (by rw [← hb, ← hab]; exact ha)
        · rw [List.pairwise_append]
          refine ⟨hv.prefixFree, by simp, fun a ha b hb => ?_⟩
          rw [List.mem_singleton.1 hb]
          exact ⟨fun hp => hfree ⟨a, ha, .inl hp⟩, fun hp => hfree ⟨a, ha, .inr hp⟩⟩
      obtain ⟨new, tail, h1, h2, h3, h4, h5⟩ := ih hv' (h.add (e := ⟨s, _, body.take (ceil8 len.toNat)⟩) hsym ht₁) hb
      refine ⟨⟨s, unpack (body.take (ceil8 len.toNat)) len.toNat, body.take (ceil8 len.toNat)⟩ :: new, tail, by simp [h1], ?_,
        by simpa using h3, ?_, by simpa using h5⟩
      · rw [List.flatMap_cons, List.append_assoc, ← h2]
        simp only [WireEntry.bytes, hulen, List.cons_append, List.take_append_drop]
        simp
      · rw [h4, List.flatMap_cons, WireEntry.bytes]
        simp only [List.length_append, List.length_cons, List.length_take]
        omega

/-- Parsing a block steps over its valid entries, whatever follows (44_codebook.md R194, R195). -/
theorem parseBlock_append {be : Bool} {left : Nat} {es : List WireEntry} {rest : List Byte} (hv : ValidEntries es)
    (hcount : es.length + left ≤ 256) :
    ∃ t tab, Holds t tab es ∧ parseBlock be (blockBytes be (es.length + left) es ++ rest)
      = parseEntries left es.length (blockBytes be (es.length + left) es).length rest t tab := by
  obtain ⟨t, tab, hh, heq⟩ := parseEntries_append es (left := left) (e := 0) (p := 4) (rest := rest) (by simpa using hv) holds_nil
  refine ⟨t, tab, by simpa using hh, ?_⟩
  have hw : wireU32 be (blockBytes be (es.length + left) es ++ rest) = es.length + left := by
    rw [blockBytes, List.append_assoc, wireU32_append _ _ _ (by simp), wireU32_wireBytes32 _ _ (by omega)]
  rw [parseBlock, hw, if_neg (by simp [blockBytes]), if_neg (by omega)]
  rw [show (blockBytes be (es.length + left) es ++ rest).drop 4 = es.flatMap WireEntry.bytes ++ rest by
    rw [blockBytes, List.append_assoc]; exact List.drop_left' (by simp)]
  rw [heq]
  simp [blockBytes]

/-- A source that parses starts with a block of valid entries (44_codebook.md R194, R195, R199). -/
theorem parseBlock_ok {be : Bool} {src : List Byte} {b : ParsedBlock} (hb : parseBlock be src = .ok b) :
    ∃ es rest, es.length ≤ 256 ∧ ValidEntries es ∧ src = blockBytes be es.length es ++ rest ∧
      b.used = (blockBytes be es.length es).length ∧ Holds b.tree b.codetab es := by
  rw [parseBlock] at hb
  split at hb
  · simp at hb
  split at hb
  · simp at hb
  rename_i h4 hc
  obtain ⟨es, rest, h1, h2, h3, h5, h6⟩ := parseEntries_ok (old := []) ⟨by simp, by simp, by simp⟩ holds_nil hb
  refine ⟨es, rest, by omega, by simpa using h3, ?_, ?_, by simpa using h6⟩
  · rw [blockBytes, h1, List.append_assoc, ← h2]
    have : src.take 4 = wireBytes32 be (wireU32 be src) := by
      have ht : wireU32 be src = wireU32 be (src.take 4) := by
        conv_lhs => rw [← List.take_append_drop 4 src]
        exact wireU32_append _ _ _ (by rw [List.length_take]; omega)
      rw [ht, wireBytes32_wireU32 _ _ (by rw [List.length_take]; omega)]
    rw [← this, List.take_append_drop]
  · rw [h5, blockBytes]; simp

/-- The entries a code table is serialized to (44_codebook.md R191). -/
def tableEntries (tab : CodeTable) : List WireEntry :=
  (codedSymbols tab).map fun s => ⟨s, codeOf tab s, pack (codeOf tab s)⟩

theorem serializeBlock_eq (be : Bool) (tab : CodeTable) :
    serializeBlock be tab = blockBytes be (tableEntries tab).length (tableEntries tab) := by
  rw [serializeBlock, blockBytes, tableEntries, List.length_map, List.flatMap_map]
  rfl

theorem tableEntries_length_le (tab : CodeTable) : (tableEntries tab).length ≤ 256 := by
  rw [tableEntries, List.length_map]; exact symCount_le tab

theorem tableEntries_valid {tab : CodeTable} (h : CodesLegal tab) : ValidEntries (tableEntries tab) := by
  refine ⟨fun e he => ?_, ?_, ?_⟩
  · obtain ⟨s, hs, rfl⟩ := List.mem_map.1 he
    have hs := (mem_codedSymbols tab s).1 hs
    exact ⟨List.length_pos_iff.2 hs, h.lengths s, pack_length _, unpack_pack _⟩
  · simpa [tableEntries, Function.comp_def] using codedSymbols_nodup tab
  · rw [tableEntries, List.pairwise_map]
    refine (codedSymbols_nodup tab).imp_of_mem fun ha hb hab => ?_
    have ha := (mem_codedSymbols tab _).1 ha
    have hb := (mem_codedSymbols tab _).1 hb
    exact ⟨h.prefixFree _ _ hab ha hb, h.prefixFree _ _ (Ne.symm hab) hb ha⟩

/-- A table that holds the entries of another is that table. -/
theorem eq_of_holds_tableEntries {tab tab' : CodeTable} (h : HoldsEntries tab' (tableEntries tab)) : tab' = tab := by
  apply codeTable_ext
  intro s
  by_cases hs : codeOf tab s = []
  · rw [hs]
    apply h.2
    simp [tableEntries, mem_codedSymbols, hs]
  · exact h.1 ⟨s, codeOf tab s, pack (codeOf tab s)⟩ (List.mem_map.2 ⟨s, (mem_codedSymbols tab s).2 hs, rfl⟩)

theorem Tree.live_follow {t : Tree} (h : t.live = true) (p : Code) : (t.follow p).live = true := by
  induction p generalizing t with
  | nil => exact h
  | cons b p ih => exact ih (by cases t <;> cases b <;> simp_all [Tree.live, Tree.child])

theorem Tree.live_follow_of_grown {t : Tree} (h : t.grown = true) {p : Code} (hp : p ≠ []) :
    (t.follow p).live = true := by
  cases p with
  | nil => exact absurd rfl hp
  | cons b p => exact Tree.live_follow (by cases t <;> cases b <;> simp_all [Tree.grown, Tree.child]) p

/-- What parsing holds is the tree of its entries. -/
theorem Holds.leavesAre {t : Tree} {tab : CodeTable} {es : List WireEntry} (h : Holds t tab es) : LeavesAre t es := by
  have hmem : ∀ s p, t.follow p = .leaf s ↔ ∃ e ∈ es, e.symbol = s ∧ e.code = p := by
    intro s p
    rw [← Tree.mem_paths, h.paths.mem_iff]
    simp only [List.mem_map, Prod.mk.injEq]
  refine ⟨Tree.isInner_of_grown h.grown, hmem, fun p l r hp hf => ?_⟩
  have hl := Tree.live_follow_of_grown h.grown hp
  obtain ⟨⟨s, q⟩, hq⟩ := Tree.exists_path_of_live hl (by rw [hf]; simp)
  rw [Tree.mem_paths, ← Tree.follow_append] at hq
  obtain ⟨e, he, -, hc⟩ := (hmem s (p ++ q)).1 hq
  exact ⟨e, he, q, hc.symm⟩

/-- Two trees with the same `Inner` positions and the same leaves are equal. -/
theorem Tree.ext_follow {t t' : Tree} (hl : ∀ s p, t.follow p = .leaf s ↔ t'.follow p = .leaf s)
    (hi : ∀ p, (t.follow p).isInner = (t'.follow p).isInner) : t = t' := by
  induction t generalizing t' with
  | absent =>
    cases t' with
    | absent => rfl
    | leaf s => have := (hl s []).2 rfl; cases this
    | inner l r => have := hi []; simp [Tree.follow, Tree.isInner] at this
  | leaf s => exact ((hl s []).1 rfl).symm
  | inner l r ihl ihr =>
    cases t' with
    | absent => have := hi []; simp [Tree.follow, Tree.isInner] at this
    | leaf s => have := (hl s []).2 rfl; cases this
    | inner l' r' =>
      rw [ihl (fun s p => hl s (false :: p)) (fun p => hi (false :: p)), ihr (fun s p => hl s (true :: p)) (fun p => hi (true :: p))]
      rfl

/-- The entries determine their tree. -/
theorem LeavesAre.unique {t t' : Tree} {es : List WireEntry} (h : LeavesAre t es) (h' : LeavesAre t' es) : t = t' := by
  have aux : ∀ {t t' : Tree}, LeavesAre t es → LeavesAre t' es → ∀ p, (t.follow p).isInner = true → (t'.follow p).isInner = true := by
    intro t t' h h' p hp
    by_cases hn : p = []
    · subst hn; exact h'.rootInner
    · obtain ⟨l, r, hf⟩ : ∃ l r, t.follow p = .inner l r := by
        cases hf : t.follow p <;> simp_all [Tree.isInner]
      obtain ⟨e, he, q, hq⟩ := h.inner p l r hn hf
      have hleaf := (h'.leaves e.symbol e.code).2 ⟨e, he, rfl, rfl⟩
      rw [← hq, Tree.follow_append] at hleaf
      cases hf' : t'.follow p with
      | absent => rw [hf'] at hleaf; simp at hleaf
      | leaf s =>
        obtain ⟨e', he', hs', hc'⟩ := (h'.leaves s p).1 hf'
        have := (h.leaves s p).2 ⟨e', he', hs', hc'⟩
        rw [hf] at this
        cases this
      | inner l r => rfl
  refine Tree.ext_follow (fun s p => by rw [h.leaves, h'.leaves]) fun p => ?_
  exact Bool.eq_iff_iff.2 ⟨aux h h' p, aux h' h p⟩

/-- The positions of the `Inner` nodes. -/
def Tree.innerPaths : Tree → List Code
  | .absent => []
  | .leaf _ => []
  | .inner l r => [] :: ((l.innerPaths.map (false :: ·)) ++ (r.innerPaths.map (true :: ·)))

theorem Tree.mem_innerPaths (t : Tree) (p : Code) : p ∈ t.innerPaths ↔ (t.follow p).isInner = true := by
  induction t generalizing p with
  | absent => simp [Tree.innerPaths, Tree.isInner]
  | leaf s => cases p <;> simp [Tree.innerPaths, Tree.isInner, Tree.follow_nil]
  | inner l r ihl ihr =>
    cases p with
    | nil => simp [Tree.innerPaths, Tree.follow, Tree.isInner]
    | cons b p => cases b <;> simp [Tree.innerPaths, Tree.follow, Tree.child, ihl, ihr]

theorem Tree.innerPaths_nodup (t : Tree) : t.innerPaths.Nodup := by
  induction t with
  | absent => simp [Tree.innerPaths]
  | leaf s => simp [Tree.innerPaths]
  | inner l r ihl ihr =>
    rw [Tree.innerPaths, List.nodup_cons]
    refine ⟨by simp, List.nodup_append.2 ⟨ihl.map fun _ _ h => (List.cons.inj h).2, ihr.map fun _ _ h => (List.cons.inj h).2, ?_⟩⟩
    rintro a ha b hb rfl
    obtain ⟨x, -, rfl⟩ := List.mem_map.1 ha
    obtain ⟨y, -, hy⟩ := List.mem_map.1 hb
    simp at hy

theorem Tree.nodes_eq (t : Tree) : t.nodes = t.innerPaths.length + t.paths.length := by
  induction t with
  | absent => rfl
  | leaf s => rfl
  | inner l r ihl ihr =>
    simp only [Tree.nodes, Tree.innerPaths, Tree.paths, List.length_cons, List.length_append, List.length_map, ihl, ihr]
    omega

theorem mem_properPrefixes (es : List WireEntry) (p : Code) :
    p ∈ properPrefixes es ↔ ∃ e ∈ es, p <+: e.code ∧ p ≠ [] ∧ p ≠ e.code := by
  simp only [properPrefixes, List.mem_dedup, List.mem_flatMap, List.mem_map, List.mem_range'_1]
  constructor
  · rintro ⟨e, he, k, hk, rfl⟩
    refine ⟨e, he, List.take_prefix _ _, fun h => ?_, fun h => ?_⟩
    · have := congrArg List.length h; simp only [List.length_take, List.length_nil] at this; omega
    · have := congrArg List.length h; simp only [List.length_take] at this; omega
  · rintro ⟨e, he, ⟨q, hq⟩, h0, h1⟩
    have hlen : e.code.length = p.length + q.length := by rw [← hq, List.length_append]
    have hp := List.length_pos_iff.2 h0
    have hqn : q ≠ [] := by rintro rfl; exact h1 (by simpa using hq)
    have hq0 := List.length_pos_iff.2 hqn
    refine ⟨e, he, p.length, by omega, ?_⟩
    rw [← hq]; exact List.take_left

/-- TREE_NODES after a parse: the root, the non-empty proper prefixes of the codes, the leaves (44_codebook.md R199). -/
theorem Holds.nodes_eq {t : Tree} {tab : CodeTable} {es : List WireEntry} (h : Holds t tab es) :
    t.nodes = 1 + (properPrefixes es).length + es.length := by
  have hl := h.leavesAre
  have hperm : t.innerPaths.Perm ([] :: properPrefixes es) := by
    refine (List.perm_ext_iff_of_nodup t.innerPaths_nodup ?_).2 fun p => ?_
    · rw [List.nodup_cons]
      exact ⟨fun hm => by obtain ⟨e, -, -, h0, -⟩ := (mem_properPrefixes es []).1 hm; exact h0 rfl, List.nodup_dedup _⟩
    · rw [Tree.mem_innerPaths, List.mem_cons, mem_properPrefixes]
      constructor
      · intro hi
        by_cases hn : p = []
        · exact .inl hn
        · obtain ⟨l, r, hf⟩ : ∃ l r, t.follow p = .inner l r := by
            cases hf : t.follow p <;> simp_all [Tree.isInner]
          obtain ⟨e, he, hp⟩ := hl.inner p l r hn hf
          refine .inr ⟨e, he, hp, hn, ?_⟩
          rintro rfl
          rw [(hl.leaves e.symbol e.code).2 ⟨e, he, rfl, rfl⟩] at hf
          cases hf
      · rintro (rfl | ⟨e, he, ⟨q, hq⟩, -, h1⟩)
        · exact hl.rootInner
        · have hleaf := (hl.leaves e.symbol e.code).2 ⟨e, he, rfl, rfl⟩
          rw [← hq, Tree.follow_append] at hleaf
          cases hf : t.follow p with
          | absent => rw [hf] at hleaf; simp at hleaf
          | leaf s =>
            rw [hf] at hleaf
            cases q with
            | nil => exact absurd (by simpa using hq) h1
            | cons b q => simp at hleaf
          | inner l r => rfl
  have hp := h.paths.length_eq
  rw [List.length_map] at hp
  rw [Tree.nodes_eq, hperm.length_eq, hp, List.length_cons]
  omega

/-- The tree's leaves carry each symbol once, so the walk writes exactly the codebook parsed (44_codebook.md R199). -/
theorem Holds.assignCodes_eq {t : Tree} {tab : CodeTable} {es : List WireEntry} (h : Holds t tab es)
    (hv : ValidEntries es) : assignCodes t = tab := by
  have hsym : (t.paths.map Prod.fst).Perm (es.map WireEntry.symbol) := by
    have := h.paths.map Prod.fst
    rwa [List.map_map] at this
  have hn : (t.paths.map Prod.fst).Nodup := hsym.nodup_iff.2 hv.symbolsOnce
  apply codeTable_ext
  intro s
  by_cases hs : s ∈ es.map WireEntry.symbol
  · obtain ⟨e, he, rfl⟩ := List.mem_map.1 hs
    rw [h.codes.1 e he]
    exact codeOf_assignCodes_of_mem hn (h.paths.mem_iff.2 (List.mem_map_of_mem he))
  · rw [h.codes.2 s hs]
    exact codeOf_assignCodes_of_not_mem fun hm => hs (hsym.mem_iff.1 hm)

/-- A parsed codebook is legal: prefix-free, no code longer than 255 bits. -/
theorem Holds.codesLegal {t : Tree} {tab : CodeTable} {es : List WireEntry} (h : Holds t tab es) (hv : ValidEntries es) :
    CodesLegal tab := by
  have hfind : ∀ s, codeOf tab s ≠ [] → ∃ e ∈ es, e.symbol = s ∧ codeOf tab s = e.code := by
    intro s hs
    by_cases hm : s ∈ es.map WireEntry.symbol
    · obtain ⟨e, he, rfl⟩ := List.mem_map.1 hm
      exact ⟨e, he, rfl, h.codes.1 e he⟩
    · exact absurd (h.codes.2 s hm) hs
  refine ⟨fun a b hab ha hb hp => ?_, fun s => ?_⟩
  · obtain ⟨e, he, rfl, hc⟩ := hfind a ha
    obtain ⟨e', he', rfl, hc'⟩ := hfind b hb
    rw [hc, hc'] at hp
    have h1 := (Tree.paths_prefix_eq (h.paths.mem_iff.2 (List.mem_map_of_mem he)) (h.paths.mem_iff.2 (List.mem_map_of_mem he')) hp).1
    exact hab h1
  · by_cases hs : codeOf tab s = []
    · simp [hs]
    · obtain ⟨e, he, -, hc⟩ := hfind s hs
      rw [hc]; exact (hv.ok e he).le

theorem Holds.symCount_eq {t : Tree} {tab : CodeTable} {es : List WireEntry} (h : Holds t tab es) (hv : ValidEntries es) :
    symCount tab = es.length := by
  have : (codedSymbols tab).Perm (es.map WireEntry.symbol) := by
    refine (List.perm_ext_iff_of_nodup (codedSymbols_nodup tab) hv.symbolsOnce).2 fun s => ?_
    rw [mem_codedSymbols]
    constructor
    · intro hs
      by_contra hm
      exact hs (h.codes.2 s hm)
    · intro hm
      obtain ⟨e, he, rfl⟩ := List.mem_map.1 hm
      rw [h.codes.1 e he]
      have := (hv.ok e he).pos
      exact List.length_pos_iff.1 this
  rw [symCount, this.length_eq, List.length_map]

/-- A tree HUFFCORE may hold comes of a parse (44_codebook.md R197). -/
theorem Holds.treeLegal {t : Tree} {tab : CodeTable} {es : List WireEntry} (h : Holds t tab es) (hv : ValidEntries es)
    (hl : es.length ≤ 256) : t.Legal := by
  have hsym : (t.paths.map Prod.fst).Perm (es.map WireEntry.symbol) := by
    have := h.paths.map Prod.fst
    rwa [List.map_map] at this
  refine ⟨Tree.isInner_of_grown h.grown, hsym.nodup_iff.2 hv.symbolsOnce, fun p hp => ?_, ?_⟩
  · obtain ⟨e, he, rfl⟩ := List.mem_map.1 (h.paths.mem_iff.1 hp)
    exact (hv.ok e he).le
  · have hsum : (es.map fun e => e.code.length).sum ≤ es.length * 255 := by
      have := hv.ok
      clear hl h hv hsym
      induction es with
      | nil => simp
      | cons e es ih =>
        have h1 := (this e (by simp)).le
        have h2 := ih fun x hx => this x (by simp [hx])
        simp only [List.map_cons, List.sum_cons, List.length_cons]
        omega
    have := h.nodes
    omega

/-- The bytes of a block: 4, and 2 plus its code bytes for each entry (30_encoding.md R103). -/
theorem blockBytes_length (be : Bool) (n : Nat) (es : List WireEntry) (hok : ∀ e ∈ es, e.body.length = ceil8 e.code.length) :
    (blockBytes be n es).length = 4 + (es.map fun e => 2 + (e.code.length + 7) / 8).sum := by
  rw [blockBytes, List.length_append, wireBytes32_length, List.length_flatMap]
  congr 2
  apply List.map_congr_left
  intro e he
  simp only [WireEntry.bytes, List.length_cons, hok e he, ceil8]
  omega

/-- A block of valid entries parses to them, whatever follows (44_codebook.md R193). -/
theorem parse_valid {be : Bool} {es : List WireEntry} {rest : List Byte} (hl : es.length ≤ 256) (hv : ValidEntries es) :
    ∃ b, parseBlock be (blockBytes be es.length es ++ rest) = .ok b ∧ Holds b.tree b.codetab es ∧
      b.used = (blockBytes be es.length es).length := by
  obtain ⟨t, tab, hh, heq⟩ := parseBlock_append (be := be) (left := 0) (rest := rest) hv (by omega)
  exact ⟨_, heq, hh, rfl⟩

/-- The bytes of legal entries determine them. -/
theorem entries_bytes_inj {es es' : List WireEntry} (h : ∀ e ∈ es, e.Ok) (h' : ∀ e ∈ es', e.Ok) (hl : es.length = es'.length)
    (hb : es.flatMap WireEntry.bytes = es'.flatMap WireEntry.bytes) : es = es' := by
  induction es generalizing es' with
  | nil => cases es' with
    | nil => rfl
    | cons e es' => simp at hl
  | cons e es ih =>
    cases es' with
    | nil => simp at hl
    | cons e' es' =>
      have h1 := h e (by simp)
      have h2 := h' e' (by simp)
      simp only [List.flatMap_cons, WireEntry.bytes, List.cons_append, List.cons.injEq] at hb
      obtain ⟨hs, hlen, hrest⟩ := hb
      have hlen : e.code.length = e'.code.length := by
        have := congrArg BitVec.toNat hlen
        rwa [ofNat8_toNat_of_le h1.le, ofNat8_toNat_of_le h2.le] at this
      obtain ⟨hbody, hrest⟩ := List.append_inj hrest (by rw [h1.size, h2.size, hlen])
      have hcode : e.code = e'.code := by rw [← h1.unpacks, ← h2.unpacks, hbody, hlen]
      rw [ih (fun x hx => h x (by simp [hx])) (fun x hx => h' x (by simp [hx])) (by simpa using hl) hrest]
      cases e; cases e'; simp_all

theorem mem_tableEntries (tab : CodeTable) (e : WireEntry) : e ∈ tableEntries tab ↔ e.code ≠ [] ∧ codeOf tab e.symbol = e.code ∧ e.body = pack e.code := by
  rw [tableEntries, List.mem_map]
  constructor
  · rintro ⟨c, hc, rfl⟩
    exact ⟨(mem_codedSymbols _ _).1 hc, rfl, rfl⟩
  · rintro ⟨h1, h2, h3⟩
    refine ⟨e.symbol, (mem_codedSymbols _ _).2 (by rw [h2]; exact h1), ?_⟩
    cases e
    simp_all

theorem tableEntries_canonical (tab : CodeTable) : CanonicalEntries (tableEntries tab) := by
  refine ⟨?_, fun e he => ?_⟩
  · rw [tableEntries, List.map_map]
    have : (codedSymbols tab).Pairwise fun a b => a.toNat < b.toNat := by
      exact allSymbols_pairwise.filter _
    rw [List.pairwise_map]
    simpa [Function.comp_def] using this
  · have := (mem_tableEntries tab e).1 he
    cases e
    simp_all [WireEntry.canonical]

/-- Serializing what a block was parsed to gives its entries with their pad bits 0 (44_codebook.md R200). -/
theorem tableEntries_perm {tab : CodeTable} {es : List WireEntry} (hv : ValidEntries es) (h : HoldsEntries tab es) :
    (tableEntries tab).Perm (es.map WireEntry.canonical) := by
  have hn1 : (tableEntries tab).Nodup := by
    have : ((tableEntries tab).map WireEntry.symbol).Nodup := by
      rw [tableEntries, List.map_map]; simpa [Function.comp_def] using codedSymbols_nodup tab
    exact this.of_map _
  have hn2 : (es.map WireEntry.canonical).Nodup := by
    have : ((es.map WireEntry.canonical).map WireEntry.symbol).Nodup := by
      rw [List.map_map]; exact hv.symbolsOnce
    exact this.of_map _
  refine (List.perm_ext_iff_of_nodup hn1 hn2).2 fun e => ?_
  rw [mem_tableEntries, List.mem_map]
  constructor
  · rintro ⟨h1, h2, h3⟩
    have hm : e.symbol ∈ es.map WireEntry.symbol := by
      by_contra hm
      rw [h.2 _ hm] at h2
      exact h1 h2.symm
    obtain ⟨x, hx, hxs⟩ := List.mem_map.1 hm
    have := h.1 x hx
    refine ⟨x, hx, ?_⟩
    cases e
    simp_all [WireEntry.canonical]
  · rintro ⟨x, hx, rfl⟩
    refine ⟨List.length_pos_iff.1 (hv.ok x hx).pos, h.1 x hx, rfl⟩

end Sys2Proof.Machine
end

