-- ==== Sys2Proof/Laws/Memory.lean ====
section
/-! SUPPORT. BUF's laws: what a read gives after a write or a forgotten region, and that every operation keeps the
canonical form. -/

namespace Sys2Proof.Machine

theorem Memory.readByte_writeByte (m : Memory) (a b : Nat) (v : Byte) :
    (m.writeByte a v).readByte b = if b = a then some v else m.readByte b := by
  induction m with
  | nil => simp [Memory.writeByte, Memory.readByte]
  | cons c m ih =>
    obtain ⟨x, w⟩ := c
    simp only [Memory.writeByte]
    split
    · simp [Memory.readByte]
    · split
      · subst a
        by_cases h : b = x <;> simp [Memory.readByte, h]
      · by_cases h : b = x
        · subst h; simp [Memory.readByte]; omega
        · simp [Memory.readByte, h, ih]

/-- A `MemWrite` gives each address of its range its byte and leaves every other address alone. -/
theorem Memory.readByte_writeBytes (out : List Byte) (m : Memory) (a b : Nat) :
    (m.writeBytes a out).readByte b = if a ≤ b ∧ b < a + out.length then out[b - a]? else m.readByte b := by
  induction out generalizing m a with
  | nil => simp [Memory.writeBytes]
  | cons v out ih =>
    rw [Memory.writeBytes, ih, Memory.readByte_writeByte]
    by_cases h : b = a
    · subst h; simp
    · by_cases h' : a + 1 ≤ b ∧ b < a + 1 + out.length
      · obtain ⟨k, rfl⟩ : ∃ k, b = a + 1 + k := ⟨b - (a + 1), by omega⟩
        rw [if_pos h', if_pos (by simp; omega)]
        rw [show a + 1 + k - (a + 1) = k by omega, show a + 1 + k - a = k + 1 by omega]
        simp
      · rw [if_neg h', if_neg h, if_neg (by simp; omega)]

theorem Memory.readByte_writeBytes_of_outside {out : List Byte} {m : Memory} {a b : Nat}
    (h : b < a ∨ a + out.length ≤ b) : (m.writeBytes a out).readByte b = m.readByte b := by
  rw [Memory.readByte_writeBytes, if_neg (by omega)]

/-- A forgotten region holds no defined value; no other byte changes. -/
theorem Memory.readByte_forget (m : Memory) (a n b : Nat) :
    (m.forget a n).readByte b = if a ≤ b ∧ b < a + n then none else m.readByte b := by
  induction m with
  | nil => simp [Memory.forget, Memory.readByte]
  | cons c m ih =>
    obtain ⟨x, w⟩ := c
    rw [Memory.forget] at ih ⊢
    rw [List.filter_cons]
    split
    · rename_i h
      simp at h
      rw [Memory.readByte, ih, Memory.readByte]
      by_cases hb : b = x
      · rw [if_pos hb, if_pos hb, if_neg (by omega)]
      · rw [if_neg hb, if_neg hb]
    · rename_i h
      simp at h
      rw [ih, Memory.readByte]
      by_cases hb : b = x
      · rw [if_pos hb, if_pos (by omega), if_pos (by omega)]
      · rw [if_neg hb]

theorem Memory.wf_cons (a : Nat) (v : Byte) (m : Memory) :
    Memory.wf ((a, v) :: m) = true ↔ (∀ c ∈ m, a < c.1) ∧ Memory.wf m = true := by
  simp [Memory.wf]

theorem Memory.mem_writeByte {m : Memory} {a : Nat} {v : Byte} {c : Host.Cell} (h : c ∈ m.writeByte a v) :
    c = (a, v) ∨ c ∈ m := by
  induction m with
  | nil => simpa [Memory.writeByte] using h
  | cons x m ih =>
    obtain ⟨x, w⟩ := x
    simp only [Memory.writeByte] at h
    split at h
    · simpa using h
    · split at h
      · simp only [List.mem_cons] at h ⊢; tauto
      · simp only [List.mem_cons] at h ⊢
        rcases h with h | h
        · tauto
        · rcases ih h with h | h <;> tauto

theorem Memory.wf_writeByte {m : Memory} (h : Memory.wf m = true) (a : Nat) (v : Byte) :
    Memory.wf (m.writeByte a v) = true := by
  induction m with
  | nil => simp [Memory.writeByte, Memory.wf]
  | cons c m ih =>
    obtain ⟨x, w⟩ := c
    rw [Memory.wf_cons] at h
    simp only [Memory.writeByte]
    split
    · rw [Memory.wf_cons, Memory.wf_cons]
      refine ⟨fun c hc => ?_, h⟩
      rcases List.mem_cons.1 hc with rfl | hc
      · assumption
      · exact lt_trans ‹a < x› (h.1 c hc)
    · split
      · subst a; exact (Memory.wf_cons _ _ _).2 h
      · rw [Memory.wf_cons]
        refine ⟨fun c hc => ?_, ih h.2⟩
        rcases Memory.mem_writeByte hc with rfl | hc
        · show x < a; omega
        · exact h.1 c hc

theorem Memory.wf_writeBytes {m : Memory} (h : Memory.wf m = true) (a : Nat) (out : List Byte) :
    Memory.wf (m.writeBytes a out) = true := by
  induction out generalizing m a with
  | nil => exact h
  | cons v out ih => exact ih (Memory.wf_writeByte h a v) (a + 1)

theorem Memory.wf_forget {m : Memory} (h : Memory.wf m = true) (a n : Nat) : Memory.wf (m.forget a n) = true := by
  induction m with
  | nil => rfl
  | cons c m ih =>
    obtain ⟨x, w⟩ := c
    rw [Memory.wf_cons] at h
    rw [Memory.forget] at ih ⊢
    rw [List.filter_cons]
    split
    · exact (Memory.wf_cons _ _ _).2 ⟨fun c hc => h.1 c (List.mem_of_mem_filter hc), ih h.2⟩
    · exact ih h.2

theorem Memory.below_iff (m : Memory) (n : Nat) : Memory.below m n = true ↔ ∀ c ∈ m, c.1 < n := by
  simp [Memory.below]

theorem Memory.below_writeByte {m : Memory} {n : Nat} (h : Memory.below m n = true) {a : Nat} (ha : a < n) (v : Byte) :
    Memory.below (m.writeByte a v) n = true := by
  rw [Memory.below_iff] at h ⊢
  intro c hc
  rcases Memory.mem_writeByte hc with rfl | hc
  · exact ha
  · exact h c hc

theorem Memory.below_writeBytes {m : Memory} {n : Nat} (h : Memory.below m n = true) {a : Nat} {out : List Byte}
    (ha : a + out.length ≤ n) : Memory.below (m.writeBytes a out) n = true := by
  induction out generalizing m a with
  | nil => exact h
  | cons v out ih =>
    simp only [List.length_cons] at ha
    exact ih (Memory.below_writeByte h (by omega) v) (by omega)

theorem Memory.below_forget {m : Memory} {n : Nat} (h : Memory.below m n = true) (a k : Nat) :
    Memory.below (m.forget a k) n = true := by
  rw [Memory.below_iff] at h ⊢
  exact fun c hc => h c (List.mem_of_mem_filter hc)

/-- In canonical form, equal reads are equal memories: the list is determined by what it reads as. -/
theorem Memory.readByte_none_of_lt {m : Memory} {a : Nat} (h : ∀ c ∈ m, a < c.1) : m.readByte a = none := by
  induction m with
  | nil => rfl
  | cons c m ih =>
    obtain ⟨x, w⟩ := c
    have hx : a < x := h (x, w) (by simp)
    rw [Memory.readByte, if_neg (by omega)]
    exact ih fun c hc => h c (by simp [hc])

theorem Memory.ext_of_readByte {m m' : Memory} (h : Memory.wf m = true) (h' : Memory.wf m' = true)
    (hr : ∀ a, m.readByte a = m'.readByte a) : m = m' := by
  induction m generalizing m' with
  | nil =>
    cases m' with
    | nil => rfl
    | cons c m' => have := hr c.1; simp [Memory.readByte] at this
  | cons c m ih =>
    obtain ⟨x, w⟩ := c
    rw [Memory.wf_cons] at h
    cases m' with
    | nil => have := hr x; simp [Memory.readByte] at this
    | cons c' m' =>
      obtain ⟨y, w'⟩ := c'
      rw [Memory.wf_cons] at h'
      have hxy : x = y := by
        rcases lt_trichotomy x y with hlt | rfl | hlt
        · have := hr x
          rw [Memory.readByte_none_of_lt (m := (y, w') :: m')] at this
          · simp [Memory.readByte] at this
          · intro c hc
            rcases List.mem_cons.1 hc with rfl | hc
            · exact hlt
            · exact lt_trans hlt (h'.1 c hc)
        · rfl
        · have := hr y
          rw [Memory.readByte_none_of_lt (m := (x, w) :: m)] at this
          · simp [Memory.readByte] at this
          · intro c hc
            rcases List.mem_cons.1 hc with rfl | hc
            · exact hlt
            · exact lt_trans hlt (h.1 c hc)
      subst hxy
      have hw : w = w' := by have := hr x; simpa [Memory.readByte] using this
      subst hw
      congr 1
      refine ih h.2 h'.2 fun a => ?_
      by_cases ha : a = x
      · subst ha
        rw [Memory.readByte_none_of_lt h.1, Memory.readByte_none_of_lt h'.1]
      · have := hr a
        simpa [Memory.readByte, ha] using this

end Sys2Proof.Machine
end

