-- ==== Sys2Proof/Laws/State.lean ====
section
/-! SUPPORT. One lemma per field per named update of State, true by rfl, so that no later proof unfolds a record update. -/

namespace Sys2Proof.Machine

variable (s : State)

@[simp] theorem State.writeStatus_cfg (v : Word) : (s.writeStatus v).cfg = s.cfg := rfl
@[simp] theorem State.writeStatus_ie (v : Word) : (s.writeStatus v).ie = s.ie := rfl
@[simp] theorem State.writeStatus_busy (v : Word) : (s.writeStatus v).busy = s.busy := rfl
@[simp] theorem State.writeStatus_done (v : Word) : (s.writeStatus v).done = (s.done && !v.getLsbD 1) := rfl
@[simp] theorem State.writeStatus_err (v : Word) : (s.writeStatus v).err = (s.err && !v.getLsbD 2) := rfl
@[simp] theorem State.writeStatus_ovr (v : Word) : (s.writeStatus v).ovr = (s.ovr && !v.getLsbD 3) := rfl
@[simp] theorem State.writeStatus_cmd (v : Word) : (s.writeStatus v).cmd = s.cmd := rfl
@[simp] theorem State.writeStatus_errcode (v : Word) : (s.writeStatus v).errcode = s.errcode := rfl
@[simp] theorem State.writeStatus_errInfo (v : Word) : (s.writeStatus v).errInfo = s.errInfo := rfl
@[simp] theorem State.writeStatus_srcAddr (v : Word) : (s.writeStatus v).srcAddr = s.srcAddr := rfl
@[simp] theorem State.writeStatus_srcLen (v : Word) : (s.writeStatus v).srcLen = s.srcLen := rfl
@[simp] theorem State.writeStatus_dstAddr (v : Word) : (s.writeStatus v).dstAddr = s.dstAddr := rfl
@[simp] theorem State.writeStatus_dstCap (v : Word) : (s.writeStatus v).dstCap = s.dstCap := rfl
@[simp] theorem State.writeStatus_bitlen (v : Word) : (s.writeStatus v).bitlen = s.bitlen := rfl
@[simp] theorem State.writeStatus_outLen (v : Word) : (s.writeStatus v).outLen = s.outLen := rfl
@[simp] theorem State.writeStatus_inUsed (v : Word) : (s.writeStatus v).inUsed = s.inUsed := rfl
@[simp] theorem State.writeStatus_freq (v : Word) : (s.writeStatus v).freq = s.freq := rfl
@[simp] theorem State.writeStatus_codetab (v : Word) : (s.writeStatus v).codetab = s.codetab := rfl
@[simp] theorem State.writeStatus_tree (v : Word) : (s.writeStatus v).tree = s.tree := rfl
@[simp] theorem State.writeStatus_buf (v : Word) : (s.writeStatus v).buf = s.buf := rfl
@[simp] theorem State.writeStatus_inputs (v : Word) : (s.writeStatus v).inputs = s.inputs := rfl
@[simp] theorem State.writeStatus_readData (v : Word) : (s.writeStatus v).readData = s.readData := rfl
@[simp] theorem State.writeStatus_draws (v : Word) : (s.writeStatus v).draws = s.draws := rfl

@[simp] theorem State.writeCtrl_cfg (v : Word) : (s.writeCtrl v).cfg = s.cfg := rfl
@[simp] theorem State.writeCtrl_ie (v : Word) : (s.writeCtrl v).ie = v.getLsbD 0 := rfl
@[simp] theorem State.writeCtrl_busy (v : Word) : (s.writeCtrl v).busy = s.busy := rfl
@[simp] theorem State.writeCtrl_done (v : Word) : (s.writeCtrl v).done = s.done := rfl
@[simp] theorem State.writeCtrl_err (v : Word) : (s.writeCtrl v).err = s.err := rfl
@[simp] theorem State.writeCtrl_ovr (v : Word) : (s.writeCtrl v).ovr = s.ovr := rfl
@[simp] theorem State.writeCtrl_cmd (v : Word) : (s.writeCtrl v).cmd = s.cmd := rfl
@[simp] theorem State.writeCtrl_errcode (v : Word) : (s.writeCtrl v).errcode = s.errcode := rfl
@[simp] theorem State.writeCtrl_errInfo (v : Word) : (s.writeCtrl v).errInfo = s.errInfo := rfl
@[simp] theorem State.writeCtrl_srcAddr (v : Word) : (s.writeCtrl v).srcAddr = s.srcAddr := rfl
@[simp] theorem State.writeCtrl_srcLen (v : Word) : (s.writeCtrl v).srcLen = s.srcLen := rfl
@[simp] theorem State.writeCtrl_dstAddr (v : Word) : (s.writeCtrl v).dstAddr = s.dstAddr := rfl
@[simp] theorem State.writeCtrl_dstCap (v : Word) : (s.writeCtrl v).dstCap = s.dstCap := rfl
@[simp] theorem State.writeCtrl_bitlen (v : Word) : (s.writeCtrl v).bitlen = s.bitlen := rfl
@[simp] theorem State.writeCtrl_outLen (v : Word) : (s.writeCtrl v).outLen = s.outLen := rfl
@[simp] theorem State.writeCtrl_inUsed (v : Word) : (s.writeCtrl v).inUsed = s.inUsed := rfl
@[simp] theorem State.writeCtrl_freq (v : Word) : (s.writeCtrl v).freq = s.freq := rfl
@[simp] theorem State.writeCtrl_codetab (v : Word) : (s.writeCtrl v).codetab = s.codetab := rfl
@[simp] theorem State.writeCtrl_tree (v : Word) : (s.writeCtrl v).tree = s.tree := rfl
@[simp] theorem State.writeCtrl_buf (v : Word) : (s.writeCtrl v).buf = s.buf := rfl
@[simp] theorem State.writeCtrl_inputs (v : Word) : (s.writeCtrl v).inputs = s.inputs := rfl
@[simp] theorem State.writeCtrl_readData (v : Word) : (s.writeCtrl v).readData = s.readData := rfl
@[simp] theorem State.writeCtrl_draws (v : Word) : (s.writeCtrl v).draws = s.draws := rfl

@[simp] theorem State.setOvr_cfg : (s.setOvr).cfg = s.cfg := rfl
@[simp] theorem State.setOvr_ie : (s.setOvr).ie = s.ie := rfl
@[simp] theorem State.setOvr_busy : (s.setOvr).busy = s.busy := rfl
@[simp] theorem State.setOvr_done : (s.setOvr).done = s.done := rfl
@[simp] theorem State.setOvr_err : (s.setOvr).err = s.err := rfl
@[simp] theorem State.setOvr_ovr : (s.setOvr).ovr = true := rfl
@[simp] theorem State.setOvr_cmd : (s.setOvr).cmd = s.cmd := rfl
@[simp] theorem State.setOvr_errcode : (s.setOvr).errcode = s.errcode := rfl
@[simp] theorem State.setOvr_errInfo : (s.setOvr).errInfo = s.errInfo := rfl
@[simp] theorem State.setOvr_srcAddr : (s.setOvr).srcAddr = s.srcAddr := rfl
@[simp] theorem State.setOvr_srcLen : (s.setOvr).srcLen = s.srcLen := rfl
@[simp] theorem State.setOvr_dstAddr : (s.setOvr).dstAddr = s.dstAddr := rfl
@[simp] theorem State.setOvr_dstCap : (s.setOvr).dstCap = s.dstCap := rfl
@[simp] theorem State.setOvr_bitlen : (s.setOvr).bitlen = s.bitlen := rfl
@[simp] theorem State.setOvr_outLen : (s.setOvr).outLen = s.outLen := rfl
@[simp] theorem State.setOvr_inUsed : (s.setOvr).inUsed = s.inUsed := rfl
@[simp] theorem State.setOvr_freq : (s.setOvr).freq = s.freq := rfl
@[simp] theorem State.setOvr_codetab : (s.setOvr).codetab = s.codetab := rfl
@[simp] theorem State.setOvr_tree : (s.setOvr).tree = s.tree := rfl
@[simp] theorem State.setOvr_buf : (s.setOvr).buf = s.buf := rfl
@[simp] theorem State.setOvr_inputs : (s.setOvr).inputs = s.inputs := rfl
@[simp] theorem State.setOvr_readData : (s.setOvr).readData = s.readData := rfl
@[simp] theorem State.setOvr_draws : (s.setOvr).draws = s.draws := rfl

@[simp] theorem State.issue_cfg (w : Word) : (s.issue w).cfg = s.cfg := rfl
@[simp] theorem State.issue_ie (w : Word) : (s.issue w).ie = s.ie := rfl
@[simp] theorem State.issue_busy (w : Word) : (s.issue w).busy = true := rfl
@[simp] theorem State.issue_done (w : Word) : (s.issue w).done = false := rfl
@[simp] theorem State.issue_err (w : Word) : (s.issue w).err = false := rfl
@[simp] theorem State.issue_ovr (w : Word) : (s.issue w).ovr = s.ovr := rfl
@[simp] theorem State.issue_cmd (w : Word) : (s.issue w).cmd = w := rfl
@[simp] theorem State.issue_errcode (w : Word) : (s.issue w).errcode = .ok := rfl
@[simp] theorem State.issue_errInfo (w : Word) : (s.issue w).errInfo = 0 := rfl
@[simp] theorem State.issue_srcAddr (w : Word) : (s.issue w).srcAddr = s.srcAddr := rfl
@[simp] theorem State.issue_srcLen (w : Word) : (s.issue w).srcLen = s.srcLen := rfl
@[simp] theorem State.issue_dstAddr (w : Word) : (s.issue w).dstAddr = s.dstAddr := rfl
@[simp] theorem State.issue_dstCap (w : Word) : (s.issue w).dstCap = s.dstCap := rfl
@[simp] theorem State.issue_bitlen (w : Word) : (s.issue w).bitlen = s.bitlen := rfl
@[simp] theorem State.issue_outLen (w : Word) : (s.issue w).outLen = s.outLen := rfl
@[simp] theorem State.issue_inUsed (w : Word) : (s.issue w).inUsed = s.inUsed := rfl
@[simp] theorem State.issue_freq (w : Word) : (s.issue w).freq = s.freq := rfl
@[simp] theorem State.issue_codetab (w : Word) : (s.issue w).codetab = s.codetab := rfl
@[simp] theorem State.issue_tree (w : Word) : (s.issue w).tree = s.tree := rfl
@[simp] theorem State.issue_buf (w : Word) : (s.issue w).buf = s.buf := rfl
@[simp] theorem State.issue_inputs (w : Word) : (s.issue w).inputs = s.inputs := rfl
@[simp] theorem State.issue_readData (w : Word) : (s.issue w).readData = s.readData := rfl
@[simp] theorem State.issue_draws (w : Word) : (s.issue w).draws = s.draws := rfl

@[simp] theorem State.close_cfg (e : ErrCode) (i o u : Word) : (s.close e i o u).cfg = s.cfg := rfl
@[simp] theorem State.close_ie (e : ErrCode) (i o u : Word) : (s.close e i o u).ie = s.ie := rfl
@[simp] theorem State.close_busy (e : ErrCode) (i o u : Word) : (s.close e i o u).busy = false := rfl
@[simp] theorem State.close_done (e : ErrCode) (i o u : Word) : (s.close e i o u).done = true := rfl
@[simp] theorem State.close_err (e : ErrCode) (i o u : Word) : (s.close e i o u).err = decide (e ≠ .ok) := rfl
@[simp] theorem State.close_ovr (e : ErrCode) (i o u : Word) : (s.close e i o u).ovr = s.ovr := rfl
@[simp] theorem State.close_cmd (e : ErrCode) (i o u : Word) : (s.close e i o u).cmd = s.cmd := rfl
@[simp] theorem State.close_errcode (e : ErrCode) (i o u : Word) : (s.close e i o u).errcode = e := rfl
@[simp] theorem State.close_errInfo (e : ErrCode) (i o u : Word) : (s.close e i o u).errInfo = i := rfl
@[simp] theorem State.close_srcAddr (e : ErrCode) (i o u : Word) : (s.close e i o u).srcAddr = s.srcAddr := rfl
@[simp] theorem State.close_srcLen (e : ErrCode) (i o u : Word) : (s.close e i o u).srcLen = s.srcLen := rfl
@[simp] theorem State.close_dstAddr (e : ErrCode) (i o u : Word) : (s.close e i o u).dstAddr = s.dstAddr := rfl
@[simp] theorem State.close_dstCap (e : ErrCode) (i o u : Word) : (s.close e i o u).dstCap = s.dstCap := rfl
@[simp] theorem State.close_bitlen (e : ErrCode) (i o u : Word) : (s.close e i o u).bitlen = s.bitlen := rfl
@[simp] theorem State.close_outLen (e : ErrCode) (i o u : Word) : (s.close e i o u).outLen = o := rfl
@[simp] theorem State.close_inUsed (e : ErrCode) (i o u : Word) : (s.close e i o u).inUsed = u := rfl
@[simp] theorem State.close_freq (e : ErrCode) (i o u : Word) : (s.close e i o u).freq = s.freq := rfl
@[simp] theorem State.close_codetab (e : ErrCode) (i o u : Word) : (s.close e i o u).codetab = s.codetab := rfl
@[simp] theorem State.close_tree (e : ErrCode) (i o u : Word) : (s.close e i o u).tree = s.tree := rfl
@[simp] theorem State.close_buf (e : ErrCode) (i o u : Word) : (s.close e i o u).buf = s.buf := rfl
@[simp] theorem State.close_inputs (e : ErrCode) (i o u : Word) : (s.close e i o u).inputs = s.inputs := rfl
@[simp] theorem State.close_readData (e : ErrCode) (i o u : Word) : (s.close e i o u).readData = s.readData := rfl
@[simp] theorem State.close_draws (e : ErrCode) (i o u : Word) : (s.close e i o u).draws = s.draws + 1 := rfl

@[simp] theorem State.storeOut_cfg (out : List Byte) : (s.storeOut out).cfg = s.cfg := rfl
@[simp] theorem State.storeOut_ie (out : List Byte) : (s.storeOut out).ie = s.ie := rfl
@[simp] theorem State.storeOut_busy (out : List Byte) : (s.storeOut out).busy = s.busy := rfl
@[simp] theorem State.storeOut_done (out : List Byte) : (s.storeOut out).done = s.done := rfl
@[simp] theorem State.storeOut_err (out : List Byte) : (s.storeOut out).err = s.err := rfl
@[simp] theorem State.storeOut_ovr (out : List Byte) : (s.storeOut out).ovr = s.ovr := rfl
@[simp] theorem State.storeOut_cmd (out : List Byte) : (s.storeOut out).cmd = s.cmd := rfl
@[simp] theorem State.storeOut_errcode (out : List Byte) : (s.storeOut out).errcode = s.errcode := rfl
@[simp] theorem State.storeOut_errInfo (out : List Byte) : (s.storeOut out).errInfo = s.errInfo := rfl
@[simp] theorem State.storeOut_srcAddr (out : List Byte) : (s.storeOut out).srcAddr = s.srcAddr := rfl
@[simp] theorem State.storeOut_srcLen (out : List Byte) : (s.storeOut out).srcLen = s.srcLen := rfl
@[simp] theorem State.storeOut_dstAddr (out : List Byte) : (s.storeOut out).dstAddr = s.dstAddr := rfl
@[simp] theorem State.storeOut_dstCap (out : List Byte) : (s.storeOut out).dstCap = s.dstCap := rfl
@[simp] theorem State.storeOut_bitlen (out : List Byte) : (s.storeOut out).bitlen = s.bitlen := rfl
@[simp] theorem State.storeOut_outLen (out : List Byte) : (s.storeOut out).outLen = s.outLen := rfl
@[simp] theorem State.storeOut_inUsed (out : List Byte) : (s.storeOut out).inUsed = s.inUsed := rfl
@[simp] theorem State.storeOut_freq (out : List Byte) : (s.storeOut out).freq = s.freq := rfl
@[simp] theorem State.storeOut_codetab (out : List Byte) : (s.storeOut out).codetab = s.codetab := rfl
@[simp] theorem State.storeOut_tree (out : List Byte) : (s.storeOut out).tree = s.tree := rfl
@[simp] theorem State.storeOut_buf (out : List Byte) : (s.storeOut out).buf = s.buf.writeBytes s.dstAddr.toNat out := rfl
@[simp] theorem State.storeOut_inputs (out : List Byte) : (s.storeOut out).inputs = s.inputs := rfl
@[simp] theorem State.storeOut_readData (out : List Byte) : (s.storeOut out).readData = s.readData := rfl
@[simp] theorem State.storeOut_draws (out : List Byte) : (s.storeOut out).draws = s.draws := rfl

@[simp] theorem State.forgetDst_cfg : (s.forgetDst).cfg = s.cfg := rfl
@[simp] theorem State.forgetDst_ie : (s.forgetDst).ie = s.ie := rfl
@[simp] theorem State.forgetDst_busy : (s.forgetDst).busy = s.busy := rfl
@[simp] theorem State.forgetDst_done : (s.forgetDst).done = s.done := rfl
@[simp] theorem State.forgetDst_err : (s.forgetDst).err = s.err := rfl
@[simp] theorem State.forgetDst_ovr : (s.forgetDst).ovr = s.ovr := rfl
@[simp] theorem State.forgetDst_cmd : (s.forgetDst).cmd = s.cmd := rfl
@[simp] theorem State.forgetDst_errcode : (s.forgetDst).errcode = s.errcode := rfl
@[simp] theorem State.forgetDst_errInfo : (s.forgetDst).errInfo = s.errInfo := rfl
@[simp] theorem State.forgetDst_srcAddr : (s.forgetDst).srcAddr = s.srcAddr := rfl
@[simp] theorem State.forgetDst_srcLen : (s.forgetDst).srcLen = s.srcLen := rfl
@[simp] theorem State.forgetDst_dstAddr : (s.forgetDst).dstAddr = s.dstAddr := rfl
@[simp] theorem State.forgetDst_dstCap : (s.forgetDst).dstCap = s.dstCap := rfl
@[simp] theorem State.forgetDst_bitlen : (s.forgetDst).bitlen = s.bitlen := rfl
@[simp] theorem State.forgetDst_outLen : (s.forgetDst).outLen = s.outLen := rfl
@[simp] theorem State.forgetDst_inUsed : (s.forgetDst).inUsed = s.inUsed := rfl
@[simp] theorem State.forgetDst_freq : (s.forgetDst).freq = s.freq := rfl
@[simp] theorem State.forgetDst_codetab : (s.forgetDst).codetab = s.codetab := rfl
@[simp] theorem State.forgetDst_tree : (s.forgetDst).tree = s.tree := rfl
@[simp] theorem State.forgetDst_buf : (s.forgetDst).buf = s.buf.forget s.dstAddr.toNat s.dstCap.toNat := rfl
@[simp] theorem State.forgetDst_inputs : (s.forgetDst).inputs = s.inputs := rfl
@[simp] theorem State.forgetDst_readData : (s.forgetDst).readData = s.readData := rfl
@[simp] theorem State.forgetDst_draws : (s.forgetDst).draws = s.draws := rfl

@[simp] theorem State.succeed_cfg (out : List Byte) (n : Nat) : (s.succeed out n).cfg = s.cfg := rfl
@[simp] theorem State.succeed_ie (out : List Byte) (n : Nat) : (s.succeed out n).ie = s.ie := rfl
@[simp] theorem State.succeed_busy (out : List Byte) (n : Nat) : (s.succeed out n).busy = false := rfl
@[simp] theorem State.succeed_done (out : List Byte) (n : Nat) : (s.succeed out n).done = true := rfl
@[simp] theorem State.succeed_err (out : List Byte) (n : Nat) : (s.succeed out n).err = false := rfl
@[simp] theorem State.succeed_ovr (out : List Byte) (n : Nat) : (s.succeed out n).ovr = s.ovr := rfl
@[simp] theorem State.succeed_cmd (out : List Byte) (n : Nat) : (s.succeed out n).cmd = s.cmd := rfl
@[simp] theorem State.succeed_errcode (out : List Byte) (n : Nat) : (s.succeed out n).errcode = .ok := rfl
@[simp] theorem State.succeed_errInfo (out : List Byte) (n : Nat) : (s.succeed out n).errInfo = 0 := rfl
@[simp] theorem State.succeed_srcAddr (out : List Byte) (n : Nat) : (s.succeed out n).srcAddr = s.srcAddr := rfl
@[simp] theorem State.succeed_srcLen (out : List Byte) (n : Nat) : (s.succeed out n).srcLen = s.srcLen := rfl
@[simp] theorem State.succeed_dstAddr (out : List Byte) (n : Nat) : (s.succeed out n).dstAddr = s.dstAddr := rfl
@[simp] theorem State.succeed_dstCap (out : List Byte) (n : Nat) : (s.succeed out n).dstCap = s.dstCap := rfl
@[simp] theorem State.succeed_bitlen (out : List Byte) (n : Nat) : (s.succeed out n).bitlen = s.bitlen := rfl
@[simp] theorem State.succeed_outLen (out : List Byte) (n : Nat) : (s.succeed out n).outLen = BitVec.ofNat 32 out.length := rfl
@[simp] theorem State.succeed_inUsed (out : List Byte) (n : Nat) : (s.succeed out n).inUsed = BitVec.ofNat 32 n := rfl
@[simp] theorem State.succeed_freq (out : List Byte) (n : Nat) : (s.succeed out n).freq = s.freq := rfl
@[simp] theorem State.succeed_codetab (out : List Byte) (n : Nat) : (s.succeed out n).codetab = s.codetab := rfl
@[simp] theorem State.succeed_tree (out : List Byte) (n : Nat) : (s.succeed out n).tree = s.tree := rfl
@[simp] theorem State.succeed_buf (out : List Byte) (n : Nat) : (s.succeed out n).buf = s.buf.writeBytes s.dstAddr.toNat out := rfl
@[simp] theorem State.succeed_inputs (out : List Byte) (n : Nat) : (s.succeed out n).inputs = s.inputs := rfl
@[simp] theorem State.succeed_readData (out : List Byte) (n : Nat) : (s.succeed out n).readData = s.readData := rfl
@[simp] theorem State.succeed_draws (out : List Byte) (n : Nat) : (s.succeed out n).draws = s.draws + 1 := rfl

@[simp] theorem State.failPre_cfg (e : ErrCode) (i : Word) : (s.failPre e i).cfg = s.cfg := rfl
@[simp] theorem State.failPre_ie (e : ErrCode) (i : Word) : (s.failPre e i).ie = s.ie := rfl
@[simp] theorem State.failPre_busy (e : ErrCode) (i : Word) : (s.failPre e i).busy = false := rfl
@[simp] theorem State.failPre_done (e : ErrCode) (i : Word) : (s.failPre e i).done = true := rfl
@[simp] theorem State.failPre_err (e : ErrCode) (i : Word) : (s.failPre e i).err = decide (e ≠ .ok) := rfl
@[simp] theorem State.failPre_ovr (e : ErrCode) (i : Word) : (s.failPre e i).ovr = s.ovr := rfl
@[simp] theorem State.failPre_cmd (e : ErrCode) (i : Word) : (s.failPre e i).cmd = s.cmd := rfl
@[simp] theorem State.failPre_errcode (e : ErrCode) (i : Word) : (s.failPre e i).errcode = e := rfl
@[simp] theorem State.failPre_errInfo (e : ErrCode) (i : Word) : (s.failPre e i).errInfo = i := rfl
@[simp] theorem State.failPre_srcAddr (e : ErrCode) (i : Word) : (s.failPre e i).srcAddr = s.srcAddr := rfl
@[simp] theorem State.failPre_srcLen (e : ErrCode) (i : Word) : (s.failPre e i).srcLen = s.srcLen := rfl
@[simp] theorem State.failPre_dstAddr (e : ErrCode) (i : Word) : (s.failPre e i).dstAddr = s.dstAddr := rfl
@[simp] theorem State.failPre_dstCap (e : ErrCode) (i : Word) : (s.failPre e i).dstCap = s.dstCap := rfl
@[simp] theorem State.failPre_bitlen (e : ErrCode) (i : Word) : (s.failPre e i).bitlen = s.bitlen := rfl
@[simp] theorem State.failPre_outLen (e : ErrCode) (i : Word) : (s.failPre e i).outLen = 0 := rfl
@[simp] theorem State.failPre_inUsed (e : ErrCode) (i : Word) : (s.failPre e i).inUsed = 0 := rfl
@[simp] theorem State.failPre_freq (e : ErrCode) (i : Word) : (s.failPre e i).freq = s.freq := rfl
@[simp] theorem State.failPre_codetab (e : ErrCode) (i : Word) : (s.failPre e i).codetab = s.codetab := rfl
@[simp] theorem State.failPre_tree (e : ErrCode) (i : Word) : (s.failPre e i).tree = s.tree := rfl
@[simp] theorem State.failPre_buf (e : ErrCode) (i : Word) : (s.failPre e i).buf = s.buf := rfl
@[simp] theorem State.failPre_inputs (e : ErrCode) (i : Word) : (s.failPre e i).inputs = s.inputs := rfl
@[simp] theorem State.failPre_readData (e : ErrCode) (i : Word) : (s.failPre e i).readData = s.readData := rfl
@[simp] theorem State.failPre_draws (e : ErrCode) (i : Word) : (s.failPre e i).draws = s.draws + 1 := rfl

@[simp] theorem State.failRun_cfg (e : ErrCode) (i : Nat) : (s.failRun e i).cfg = s.cfg := rfl
@[simp] theorem State.failRun_ie (e : ErrCode) (i : Nat) : (s.failRun e i).ie = s.ie := rfl
@[simp] theorem State.failRun_busy (e : ErrCode) (i : Nat) : (s.failRun e i).busy = false := rfl
@[simp] theorem State.failRun_done (e : ErrCode) (i : Nat) : (s.failRun e i).done = true := rfl
@[simp] theorem State.failRun_err (e : ErrCode) (i : Nat) : (s.failRun e i).err = decide (e ≠ .ok) := rfl
@[simp] theorem State.failRun_ovr (e : ErrCode) (i : Nat) : (s.failRun e i).ovr = s.ovr := rfl
@[simp] theorem State.failRun_cmd (e : ErrCode) (i : Nat) : (s.failRun e i).cmd = s.cmd := rfl
@[simp] theorem State.failRun_errcode (e : ErrCode) (i : Nat) : (s.failRun e i).errcode = e := rfl
@[simp] theorem State.failRun_errInfo (e : ErrCode) (i : Nat) : (s.failRun e i).errInfo = BitVec.ofNat 32 i := rfl
@[simp] theorem State.failRun_srcAddr (e : ErrCode) (i : Nat) : (s.failRun e i).srcAddr = s.srcAddr := rfl
@[simp] theorem State.failRun_srcLen (e : ErrCode) (i : Nat) : (s.failRun e i).srcLen = s.srcLen := rfl
@[simp] theorem State.failRun_dstAddr (e : ErrCode) (i : Nat) : (s.failRun e i).dstAddr = s.dstAddr := rfl
@[simp] theorem State.failRun_dstCap (e : ErrCode) (i : Nat) : (s.failRun e i).dstCap = s.dstCap := rfl
@[simp] theorem State.failRun_bitlen (e : ErrCode) (i : Nat) : (s.failRun e i).bitlen = s.bitlen := rfl
@[simp] theorem State.failRun_outLen (e : ErrCode) (i : Nat) : (s.failRun e i).outLen = 0 := rfl
@[simp] theorem State.failRun_inUsed (e : ErrCode) (i : Nat) : (s.failRun e i).inUsed = 0 := rfl
@[simp] theorem State.failRun_freq (e : ErrCode) (i : Nat) : (s.failRun e i).freq = s.freq := rfl
@[simp] theorem State.failRun_codetab (e : ErrCode) (i : Nat) : (s.failRun e i).codetab = s.codetab := rfl
@[simp] theorem State.failRun_tree (e : ErrCode) (i : Nat) : (s.failRun e i).tree = s.tree := rfl
@[simp] theorem State.failRun_buf (e : ErrCode) (i : Nat) : (s.failRun e i).buf = s.buf.forget s.dstAddr.toNat s.dstCap.toNat := rfl
@[simp] theorem State.failRun_inputs (e : ErrCode) (i : Nat) : (s.failRun e i).inputs = s.inputs := rfl
@[simp] theorem State.failRun_readData (e : ErrCode) (i : Nat) : (s.failRun e i).readData = s.readData := rfl
@[simp] theorem State.failRun_draws (e : ErrCode) (i : Nat) : (s.failRun e i).draws = s.draws + 1 := rfl

@[simp] theorem State.clearCodebook_cfg : (s.clearCodebook).cfg = s.cfg := rfl
@[simp] theorem State.clearCodebook_ie : (s.clearCodebook).ie = s.ie := rfl
@[simp] theorem State.clearCodebook_busy : (s.clearCodebook).busy = s.busy := rfl
@[simp] theorem State.clearCodebook_done : (s.clearCodebook).done = s.done := rfl
@[simp] theorem State.clearCodebook_err : (s.clearCodebook).err = s.err := rfl
@[simp] theorem State.clearCodebook_ovr : (s.clearCodebook).ovr = s.ovr := rfl
@[simp] theorem State.clearCodebook_cmd : (s.clearCodebook).cmd = s.cmd := rfl
@[simp] theorem State.clearCodebook_errcode : (s.clearCodebook).errcode = s.errcode := rfl
@[simp] theorem State.clearCodebook_errInfo : (s.clearCodebook).errInfo = s.errInfo := rfl
@[simp] theorem State.clearCodebook_srcAddr : (s.clearCodebook).srcAddr = s.srcAddr := rfl
@[simp] theorem State.clearCodebook_srcLen : (s.clearCodebook).srcLen = s.srcLen := rfl
@[simp] theorem State.clearCodebook_dstAddr : (s.clearCodebook).dstAddr = s.dstAddr := rfl
@[simp] theorem State.clearCodebook_dstCap : (s.clearCodebook).dstCap = s.dstCap := rfl
@[simp] theorem State.clearCodebook_bitlen : (s.clearCodebook).bitlen = s.bitlen := rfl
@[simp] theorem State.clearCodebook_outLen : (s.clearCodebook).outLen = s.outLen := rfl
@[simp] theorem State.clearCodebook_inUsed : (s.clearCodebook).inUsed = s.inUsed := rfl
@[simp] theorem State.clearCodebook_freq : (s.clearCodebook).freq = s.freq := rfl
@[simp] theorem State.clearCodebook_codetab : (s.clearCodebook).codetab = noCodes := rfl
@[simp] theorem State.clearCodebook_tree : (s.clearCodebook).tree = emptyRoot := rfl
@[simp] theorem State.clearCodebook_buf : (s.clearCodebook).buf = s.buf := rfl
@[simp] theorem State.clearCodebook_inputs : (s.clearCodebook).inputs = s.inputs := rfl
@[simp] theorem State.clearCodebook_readData : (s.clearCodebook).readData = s.readData := rfl
@[simp] theorem State.clearCodebook_draws : (s.clearCodebook).draws = s.draws := rfl

@[simp] theorem State.loadCodebook_cfg (b : ParsedBlock) : (s.loadCodebook b).cfg = s.cfg := rfl
@[simp] theorem State.loadCodebook_ie (b : ParsedBlock) : (s.loadCodebook b).ie = s.ie := rfl
@[simp] theorem State.loadCodebook_busy (b : ParsedBlock) : (s.loadCodebook b).busy = s.busy := rfl
@[simp] theorem State.loadCodebook_done (b : ParsedBlock) : (s.loadCodebook b).done = s.done := rfl
@[simp] theorem State.loadCodebook_err (b : ParsedBlock) : (s.loadCodebook b).err = s.err := rfl
@[simp] theorem State.loadCodebook_ovr (b : ParsedBlock) : (s.loadCodebook b).ovr = s.ovr := rfl
@[simp] theorem State.loadCodebook_cmd (b : ParsedBlock) : (s.loadCodebook b).cmd = s.cmd := rfl
@[simp] theorem State.loadCodebook_errcode (b : ParsedBlock) : (s.loadCodebook b).errcode = s.errcode := rfl
@[simp] theorem State.loadCodebook_errInfo (b : ParsedBlock) : (s.loadCodebook b).errInfo = s.errInfo := rfl
@[simp] theorem State.loadCodebook_srcAddr (b : ParsedBlock) : (s.loadCodebook b).srcAddr = s.srcAddr := rfl
@[simp] theorem State.loadCodebook_srcLen (b : ParsedBlock) : (s.loadCodebook b).srcLen = s.srcLen := rfl
@[simp] theorem State.loadCodebook_dstAddr (b : ParsedBlock) : (s.loadCodebook b).dstAddr = s.dstAddr := rfl
@[simp] theorem State.loadCodebook_dstCap (b : ParsedBlock) : (s.loadCodebook b).dstCap = s.dstCap := rfl
@[simp] theorem State.loadCodebook_bitlen (b : ParsedBlock) : (s.loadCodebook b).bitlen = s.bitlen := rfl
@[simp] theorem State.loadCodebook_outLen (b : ParsedBlock) : (s.loadCodebook b).outLen = s.outLen := rfl
@[simp] theorem State.loadCodebook_inUsed (b : ParsedBlock) : (s.loadCodebook b).inUsed = s.inUsed := rfl
@[simp] theorem State.loadCodebook_freq (b : ParsedBlock) : (s.loadCodebook b).freq = s.freq := rfl
@[simp] theorem State.loadCodebook_codetab (b : ParsedBlock) : (s.loadCodebook b).codetab = b.codetab := rfl
@[simp] theorem State.loadCodebook_tree (b : ParsedBlock) : (s.loadCodebook b).tree = b.tree := rfl
@[simp] theorem State.loadCodebook_buf (b : ParsedBlock) : (s.loadCodebook b).buf = s.buf := rfl
@[simp] theorem State.loadCodebook_inputs (b : ParsedBlock) : (s.loadCodebook b).inputs = s.inputs := rfl
@[simp] theorem State.loadCodebook_readData (b : ParsedBlock) : (s.loadCodebook b).readData = s.readData := rfl
@[simp] theorem State.loadCodebook_draws (b : ParsedBlock) : (s.loadCodebook b).draws = s.draws := rfl

@[simp] theorem State.rebuildFromSource_cfg : (s.rebuildFromSource).cfg = s.cfg := rfl
@[simp] theorem State.rebuildFromSource_ie : (s.rebuildFromSource).ie = s.ie := rfl
@[simp] theorem State.rebuildFromSource_busy : (s.rebuildFromSource).busy = s.busy := rfl
@[simp] theorem State.rebuildFromSource_done : (s.rebuildFromSource).done = s.done := rfl
@[simp] theorem State.rebuildFromSource_err : (s.rebuildFromSource).err = s.err := rfl
@[simp] theorem State.rebuildFromSource_ovr : (s.rebuildFromSource).ovr = s.ovr := rfl
@[simp] theorem State.rebuildFromSource_cmd : (s.rebuildFromSource).cmd = s.cmd := rfl
@[simp] theorem State.rebuildFromSource_errcode : (s.rebuildFromSource).errcode = s.errcode := rfl
@[simp] theorem State.rebuildFromSource_errInfo : (s.rebuildFromSource).errInfo = s.errInfo := rfl
@[simp] theorem State.rebuildFromSource_srcAddr : (s.rebuildFromSource).srcAddr = s.srcAddr := rfl
@[simp] theorem State.rebuildFromSource_srcLen : (s.rebuildFromSource).srcLen = s.srcLen := rfl
@[simp] theorem State.rebuildFromSource_dstAddr : (s.rebuildFromSource).dstAddr = s.dstAddr := rfl
@[simp] theorem State.rebuildFromSource_dstCap : (s.rebuildFromSource).dstCap = s.dstCap := rfl
@[simp] theorem State.rebuildFromSource_bitlen : (s.rebuildFromSource).bitlen = s.bitlen := rfl
@[simp] theorem State.rebuildFromSource_outLen : (s.rebuildFromSource).outLen = s.outLen := rfl
@[simp] theorem State.rebuildFromSource_inUsed : (s.rebuildFromSource).inUsed = s.inUsed := rfl
@[simp] theorem State.rebuildFromSource_freq : (s.rebuildFromSource).freq = countSymbols s.source := rfl
@[simp] theorem State.rebuildFromSource_codetab : (s.rebuildFromSource).codetab = assignCodes (buildTree (countSymbols s.source)) := rfl
@[simp] theorem State.rebuildFromSource_tree : (s.rebuildFromSource).tree = buildTree (countSymbols s.source) := rfl
@[simp] theorem State.rebuildFromSource_buf : (s.rebuildFromSource).buf = s.buf := rfl
@[simp] theorem State.rebuildFromSource_inputs : (s.rebuildFromSource).inputs = s.inputs := rfl
@[simp] theorem State.rebuildFromSource_readData : (s.rebuildFromSource).readData = s.readData := rfl
@[simp] theorem State.rebuildFromSource_draws : (s.rebuildFromSource).draws = s.draws := rfl

@[simp] theorem State.returned_cfg (v : Word) : (s.returned v).cfg = s.cfg := rfl
@[simp] theorem State.returned_ie (v : Word) : (s.returned v).ie = s.ie := rfl
@[simp] theorem State.returned_busy (v : Word) : (s.returned v).busy = s.busy := rfl
@[simp] theorem State.returned_done (v : Word) : (s.returned v).done = s.done := rfl
@[simp] theorem State.returned_err (v : Word) : (s.returned v).err = s.err := rfl
@[simp] theorem State.returned_ovr (v : Word) : (s.returned v).ovr = s.ovr := rfl
@[simp] theorem State.returned_cmd (v : Word) : (s.returned v).cmd = s.cmd := rfl
@[simp] theorem State.returned_errcode (v : Word) : (s.returned v).errcode = s.errcode := rfl
@[simp] theorem State.returned_errInfo (v : Word) : (s.returned v).errInfo = s.errInfo := rfl
@[simp] theorem State.returned_srcAddr (v : Word) : (s.returned v).srcAddr = s.srcAddr := rfl
@[simp] theorem State.returned_srcLen (v : Word) : (s.returned v).srcLen = s.srcLen := rfl
@[simp] theorem State.returned_dstAddr (v : Word) : (s.returned v).dstAddr = s.dstAddr := rfl
@[simp] theorem State.returned_dstCap (v : Word) : (s.returned v).dstCap = s.dstCap := rfl
@[simp] theorem State.returned_bitlen (v : Word) : (s.returned v).bitlen = s.bitlen := rfl
@[simp] theorem State.returned_outLen (v : Word) : (s.returned v).outLen = s.outLen := rfl
@[simp] theorem State.returned_inUsed (v : Word) : (s.returned v).inUsed = s.inUsed := rfl
@[simp] theorem State.returned_freq (v : Word) : (s.returned v).freq = s.freq := rfl
@[simp] theorem State.returned_codetab (v : Word) : (s.returned v).codetab = s.codetab := rfl
@[simp] theorem State.returned_tree (v : Word) : (s.returned v).tree = s.tree := rfl
@[simp] theorem State.returned_buf (v : Word) : (s.returned v).buf = s.buf := rfl
@[simp] theorem State.returned_inputs (v : Word) : (s.returned v).inputs = s.inputs := rfl
@[simp] theorem State.returned_readData (v : Word) : (s.returned v).readData = v := rfl
@[simp] theorem State.returned_draws (v : Word) : (s.returned v).draws = s.draws + 1 := rfl

@[simp] theorem State.hostWrite_cfg (a n : Nat) (v : Word) : (s.hostWrite a n v).cfg = s.cfg := rfl
@[simp] theorem State.hostWrite_ie (a n : Nat) (v : Word) : (s.hostWrite a n v).ie = s.ie := rfl
@[simp] theorem State.hostWrite_busy (a n : Nat) (v : Word) : (s.hostWrite a n v).busy = s.busy := rfl
@[simp] theorem State.hostWrite_done (a n : Nat) (v : Word) : (s.hostWrite a n v).done = s.done := rfl
@[simp] theorem State.hostWrite_err (a n : Nat) (v : Word) : (s.hostWrite a n v).err = s.err := rfl
@[simp] theorem State.hostWrite_ovr (a n : Nat) (v : Word) : (s.hostWrite a n v).ovr = s.ovr := rfl
@[simp] theorem State.hostWrite_cmd (a n : Nat) (v : Word) : (s.hostWrite a n v).cmd = s.cmd := rfl
@[simp] theorem State.hostWrite_errcode (a n : Nat) (v : Word) : (s.hostWrite a n v).errcode = s.errcode := rfl
@[simp] theorem State.hostWrite_errInfo (a n : Nat) (v : Word) : (s.hostWrite a n v).errInfo = s.errInfo := rfl
@[simp] theorem State.hostWrite_srcAddr (a n : Nat) (v : Word) : (s.hostWrite a n v).srcAddr = s.srcAddr := rfl
@[simp] theorem State.hostWrite_srcLen (a n : Nat) (v : Word) : (s.hostWrite a n v).srcLen = s.srcLen := rfl
@[simp] theorem State.hostWrite_dstAddr (a n : Nat) (v : Word) : (s.hostWrite a n v).dstAddr = s.dstAddr := rfl
@[simp] theorem State.hostWrite_dstCap (a n : Nat) (v : Word) : (s.hostWrite a n v).dstCap = s.dstCap := rfl
@[simp] theorem State.hostWrite_bitlen (a n : Nat) (v : Word) : (s.hostWrite a n v).bitlen = s.bitlen := rfl
@[simp] theorem State.hostWrite_outLen (a n : Nat) (v : Word) : (s.hostWrite a n v).outLen = s.outLen := rfl
@[simp] theorem State.hostWrite_inUsed (a n : Nat) (v : Word) : (s.hostWrite a n v).inUsed = s.inUsed := rfl
@[simp] theorem State.hostWrite_freq (a n : Nat) (v : Word) : (s.hostWrite a n v).freq = s.freq := rfl
@[simp] theorem State.hostWrite_codetab (a n : Nat) (v : Word) : (s.hostWrite a n v).codetab = s.codetab := rfl
@[simp] theorem State.hostWrite_tree (a n : Nat) (v : Word) : (s.hostWrite a n v).tree = s.tree := rfl
@[simp] theorem State.hostWrite_buf (a n : Nat) (v : Word) : (s.hostWrite a n v).buf = s.buf.writeBytes a (hostBytes v n) := rfl
@[simp] theorem State.hostWrite_inputs (a n : Nat) (v : Word) : (s.hostWrite a n v).inputs = s.inputs := rfl
@[simp] theorem State.hostWrite_readData (a n : Nat) (v : Word) : (s.hostWrite a n v).readData = s.readData := rfl
@[simp] theorem State.hostWrite_draws (a n : Nat) (v : Word) : (s.hostWrite a n v).draws = s.draws := rfl

end Sys2Proof.Machine
end

