-- ==== Sys2Proof/Laws/Completion.lean ====
section
/-! SUPPORT. What a completion does, said once: the pre-checks, how a command's pseudocode ends, and the state each ending
leaves (40_command_common.md R132 to R138). Later proofs cite these and never unfold `exec`. -/

namespace Sys2Proof.Machine

/-- How each command's pseudocode ends. -/
def ending : Instr → State → Ending
  | .nop => nopEnding
  | .freqCount => freqCountEnding
  | .treeBuild => treeBuildEnding
  | .codeAssign => codeAssignEnding
  | .bitPack => bitPackEnding
  | .bitUnpack => bitUnpackEnding
  | .cbSerialize => cbSerializeEnding
  | .cbParse => cbParseEnding
  | .packCodes => packCodesEnding
  | .decodePayload => decodePayloadEnding
  | .encodeFrame => encodeFrameEnding
  | .decodeFrame => decodeFrameEnding

theorem exec_eq_completion (i : Instr) (s : State) : exec i s = completion i (ending i) s := by cases i <;> rfl

/-- Every command completes: `exec` always answers a next state, in one of three ways. -/
theorem exec_cases (i : Instr) (s : State) :
    (∃ e info, preCheck i s = some (e, info) ∧ exec i s = .next (s.failPre e info)) ∨
    (preCheck i s = none ∧
      ((∃ u out n, ending i s = .success u out n ∧ exec i s = .next (u.succeed out n)) ∨
        ∃ u e info, ending i s = .error u e info ∧ exec i s = .next (u.failRun e info))) := by
  rw [exec_eq_completion, completion]
  cases h : preCheck i s with
  | some r => exact .inl ⟨r.1, r.2, rfl, rfl⟩
  | none =>
    refine .inr ⟨rfl, ?_⟩
    cases h' : ending i s with
    | success u out n => exact .inl ⟨u, out, n, rfl, by simp only [Ending.finish]⟩
    | error u e info => exact .inr ⟨u, e, info, rfl, by simp only [Ending.finish]⟩

theorem exec_next (i : Instr) (s : State) : ∃ t, exec i s = .next t := by
  rcases exec_cases i s with ⟨_, _, _, h⟩ | ⟨_, ⟨_, _, _, _, h⟩ | ⟨_, _, _, _, h⟩⟩ <;> exact ⟨_, h⟩

/-- The pre-checks pass exactly when the regions the command uses lie inside BUF and apart (40_command_common.md R133). -/
theorem preCheck_eq_none_iff (i : Instr) (s : State) :
    preCheck i s = none ↔ (usesSrc i = true → s.SrcInside) ∧ (usesDst i = true → s.DstInside) ∧
      (usesSrc i = true → usesDst i = true → s.RegionsApart) := by
  unfold preCheck State.SrcInside State.DstInside State.RegionsApart State.srcOutside State.dstOutside State.regionsOverlap
  cases usesSrc i <;> cases usesDst i <;> simp
  split_ifs <;> simp <;> omega

theorem preCheck_eq_none_of_regionsOk {s : State} (h : s.RegionsOk) (i : Instr) : preCheck i s = none :=
  (preCheck_eq_none_iff i s).2 ⟨fun _ => h.src, fun _ => h.dst, fun _ _ => h.apart⟩

theorem preCheck_err {i : Instr} {s : State} {e : ErrCode} {info : Word} (h : preCheck i s = some (e, info)) :
    e ≠ .ok := by
  unfold preCheck at h
  split at h
  · simp_all
    rw [← h.1]; decide
  · split at h
    · simp_all
      rw [← h.1]; decide
    · split at h
      · simp_all
        rw [← h.1]; decide
      · simp at h

/-- A command whose pre-checks pass and whose pseudocode ends without `raise` succeeds. -/
theorem exec_succeeds {i : Instr} {s u : State} {out : List Byte} {n : Nat} (hp : preCheck i s = none)
    (h : ending i s = .success u out n) (hbuf : u.buf = s.buf) (hdst : u.dstAddr = s.dstAddr) (hd : u.draws = s.draws) :
    ∃ t, exec i s = .next t ∧ Succeeds s u out n t := by
  refine ⟨u.succeed out n, by rw [exec_eq_completion, completion, hp, h]; rfl, ?_, fun k hk => ?_, fun a ha => ?_⟩
  · simp [State.succeed, State.close, State.storeOut, State.flagsAtCompletion, hd]
  · have : (u.succeed out n).buf = u.buf.writeBytes u.dstAddr.toNat out := rfl
    rw [this, hbuf, hdst, Memory.readByte_writeBytes, if_pos (by omega)]
    congr 1
    omega
  · have : (u.succeed out n).buf = u.buf.writeBytes u.dstAddr.toNat out := rfl
    rw [this, hbuf, hdst, Memory.readByte_writeBytes_of_outside ha]

/-- A command whose pre-checks pass and whose pseudocode raises an error fails with it. -/
theorem exec_fails {i : Instr} {s u : State} {e : ErrCode} {info : Nat} (hp : preCheck i s = none)
    (h : ending i s = .error u e info) (he : e ≠ .ok) (hbuf : u.buf = s.buf) (hdst : u.dstAddr = s.dstAddr)
    (hcap : u.dstCap = s.dstCap) (hd : u.draws = s.draws) : ∃ t, exec i s = .next t ∧ Fails s u e info t := by
  have hb : (u.failRun e info).buf = s.buf.forget s.dstAddr.toNat s.dstCap.toNat := by
    rw [← hbuf, ← hdst, ← hcap]; rfl
  refine ⟨u.failRun e info, by rw [exec_eq_completion, completion, hp, h]; rfl, ?_, fun a ha => ?_, fun a ha => ?_⟩
  · simp [State.failRun, State.close, State.forgetDst, State.flagsAtCompletion, hd, he]
  · rw [hb, Memory.readByte_forget, if_pos (by unfold State.OutsideDst at ha; omega)]
  · rw [hb, Memory.readByte_forget, if_neg (by unfold State.OutsideDst at ha; omega)]

end Sys2Proof.Machine
end

