-- ==== Sys2Proof/Laws/Decode.lean ====
section
/-! SUPPORT. The laws of the command word: which words select a command, and which one (30_encoding.md R90 to R92). -/

namespace Sys2Proof

theorem decodeOpcode_opcode (i : Instr) : decodeOpcode (opcode i) = some i := by cases i <;> rfl

theorem decodeOpcode_eq_some {b : Byte} {i : Instr} (h : decodeOpcode b = some i) : b.toNat = (opcode i).toNat := by
  unfold decodeOpcode at h
  split at h <;> simp_all <;> subst h <;> rfl

/-- An opcode is assigned exactly up to 0x0B. -/
theorem decodeOpcode_eq_none_iff (b : Byte) : decodeOpcode b = none ↔ 0x0B < b.toNat := by
  unfold decodeOpcode
  split <;> simp_all
  have := b.isLt
  rename_i h0 h1 h2 h3 h4 h5 h6 h7 h8 h9 ha hb
  by_contra hc
  push Not at hc
  interval_cases hn : b.toNat <;> simp_all

theorem encode_toNat (i : Instr) : (encode i).toNat = (opcode i).toNat := by cases i <;> rfl

theorem opcode_le (i : Instr) : (opcode i).toNat ≤ 0x0B := by cases i <;> decide

theorem extract_reserved_eq_zero_iff (w : Word) : w.extractLsb' 8 24 = 0 ↔ w.toNat / 256 = 0 := by
  have := w.isLt
  constructor
  · intro h
    have h := congrArg BitVec.toNat h
    simp [BitVec.extractLsb'_toNat, Nat.shiftRight_eq_div_pow] at h
    omega
  · intro h
    apply BitVec.eq_of_toNat_eq
    simp [BitVec.extractLsb'_toNat, Nat.shiftRight_eq_div_pow, h]

theorem extract_opcode_toNat (w : Word) : (w.extractLsb' 0 8).toNat = w.toNat % 256 := by
  simp [BitVec.extractLsb'_toNat]

/-- A word selects a command exactly when it is that command's word. -/
theorem decodeWord_eq_ok_iff (w : Word) (i : Instr) : decodeWord w = .ok i ↔ w = encode i := by
  constructor
  · intro h
    unfold decodeWord at h
    split at h
    · rename_i hw
      rw [extract_reserved_eq_zero_iff] at hw
      split at h
      · rename_i j hj
        have hj := decodeOpcode_eq_some hj
        rw [extract_opcode_toNat] at hj
        cases h
        apply BitVec.eq_of_toNat_eq
        rw [encode_toNat]
        omega
      · cases h
    · cases h
  · rintro rfl
    cases i <;> rfl

/-- A word with a reserved bit set, or an opcode above 0x0B, selects no command. -/
theorem decodeWord_eq_error_of_illegal {w : Word} (h : w.toNat / 256 ≠ 0 ∨ 0x0B < w.toNat % 256) :
    ∃ e, decodeWord w = .error e := by
  cases hd : decodeWord w with
  | error e => exact ⟨e, rfl⟩
  | ok i =>
    have h1 := encode_toNat i
    have h2 := opcode_le i
    rw [← (decodeWord_eq_ok_iff w i).1 hd] at h1
    omega

end Sys2Proof
end

