-- ==== Sys2Proof/Laws/Payload.lean ====
section
/-! SUPPORT. The laws of the decode walk: what it makes of a whole code, of a rest that ends inside a code, of a bit that
leads nowhere (45_payload.md R212 to R214). -/

namespace Sys2Proof.Machine

/-- Inside a code the walk only moves on. -/
theorem walkDecode_inner {root node : Tree} {cap k j start : Nat} {p bits : Code} {l r : Tree}
    (h : node.follow p = .inner l r) (hn : p ≠ [] → node.isInner = true) :
    walkDecode root cap node k j start (p ++ bits) = walkDecode root cap (.inner l r) k (j + p.length) start bits := by
  induction p generalizing node j with
  | nil => simp only [Tree.follow] at h; subst h; rfl
  | cons b p ih =>
    rw [List.cons_append, walkDecode]
    rw [Tree.follow] at h
    cases hc : node.child b with
    | absent => rw [hc] at h; simp at h
    | leaf s =>
      rw [hc] at h
      cases p with
      | nil => simp [Tree.follow] at h
      | cons b' p => simp at h
    | inner l' r' =>
      rw [hc] at h
      simp only
      rw [ih h (fun _ => rfl), List.length_cons, Nat.add_assoc, Nat.add_comm 1]

/-- A whole code decodes to its symbol, and the walk stands at the root again. -/
theorem walkDecode_leaf {root node : Tree} {cap k j start : Nat} {p bits : Code} {s : Symbol}
    (h : node.follow p = .leaf s) (hn : node.isInner = true) :
    walkDecode root cap node k j start (p ++ bits) =
      if cap ≤ k then .error (.capacity, 0)
      else (walkDecode root cap root (k + 1) (j + p.length) (j + p.length) bits).map (s :: ·) := by
  induction p generalizing node j with
  | nil => simp only [Tree.follow] at h; subst h; simp [Tree.isInner] at hn
  | cons b p ih =>
    rw [List.cons_append, walkDecode]
    rw [Tree.follow] at h
    cases hc : node.child b with
    | absent => rw [hc] at h; simp at h
    | leaf x =>
      rw [hc] at h
      cases p with
      | nil =>
        simp only [Tree.follow, Tree.leaf.injEq] at h
        subst h
        rfl
      | cons b' p => simp at h
    | inner l' r' =>
      rw [hc] at h
      simp only
      rw [ih h rfl, List.length_cons, Nat.add_assoc, Nat.add_comm 1]

/-- A run of whole codes decodes to their symbols, as far as the capacity reaches (45_payload.md R212). -/
theorem walkDecode_codes {root : Tree} (hr : root.isInner = true) (cap : Nat) (out : List (Symbol × Code))
    (hout : ∀ e ∈ out, e ∈ root.paths) (k j : Nat) (bits : Code) (hcap : k + out.length ≤ cap) :
    walkDecode root cap root k j j ((out.map Prod.snd).flatten ++ bits) =
      (walkDecode root cap root (k + out.length) (j + (out.map Prod.snd).flatten.length)
        (j + (out.map Prod.snd).flatten.length) bits).map (out.map Prod.fst ++ ·) := by
  induction out generalizing k j with
  | nil =>
    simp only [List.map_nil, List.flatten_nil, List.nil_append, List.length_nil, Nat.add_zero]
    cases walkDecode root cap root k j j bits <;> rfl
  | cons e out ih =>
    obtain ⟨s, p⟩ := e
    have hp := (Tree.mem_paths root s p).1 (hout _ (by simp))
    simp only [List.length_cons] at hcap
    simp only [List.map_cons, List.flatten_cons, List.append_assoc, List.length_append, List.length_cons]
    rw [walkDecode_leaf hp hr, if_neg (by omega), ih (fun e he => hout e (by simp [he])) _ _ (by omega),
      show k + 1 + out.length = k + (out.length + 1) by omega, Nat.add_assoc]
    cases walkDecode root cap root (k + (out.length + 1)) (j + (p.length + ((out.map Prod.snd).flatten).length))
      (j + (p.length + ((out.map Prod.snd).flatten).length)) bits <;> rfl

/-- The bits of a text are the codes of its symbols, one after the other (45_payload.md R210). -/
theorem textBits_eq (tab : CodeTable) (text : List Byte) :
    textBits tab text = ((text.map fun b => (b, codeOf tab b)).map Prod.snd).flatten := by
  simp [textBits, List.flatMap, Function.comp_def]

theorem firstUncoded_eq_none {tab : CodeTable} {i : Nat} {text : List Byte} :
    firstUncoded tab i text = none ↔ ∀ b ∈ text, codeOf tab b ≠ [] := by
  induction text generalizing i with
  | nil => simp [firstUncoded]
  | cons b text ih =>
    rw [firstUncoded]
    by_cases h : codeOf tab b = [] <;> simp [h, ih]

theorem firstUncoded_eq_some {tab : CodeTable} {i k : Nat} {text : List Byte} (h : firstUncoded tab i text = some k) :
    ∃ n b, k = i + n ∧ text[n]? = some b ∧ codeOf tab b = [] ∧ ∀ b' ∈ text.take n, codeOf tab b' ≠ [] := by
  induction text generalizing i with
  | nil => simp [firstUncoded] at h
  | cons b text ih =>
    rw [firstUncoded] at h
    split at h
    · rename_i hb
      exact ⟨0, b, by simpa [eq_comm] using h, rfl, List.eq_nil_of_length_eq_zero hb, by simp⟩
    · rename_i hb
      obtain ⟨n, c, hk, hc, hc', hall⟩ := ih h
      refine ⟨n + 1, c, by omega, by simpa using hc, hc', ?_⟩
      intro b' hb'
      simp only [List.take_succ_cons, List.mem_cons] at hb'
      rcases hb' with rfl | hb'
      · intro h0; exact hb (by simp [h0])
      · exact hall b' hb'

/-- The first symbol with no code is the one PACK_CODES stops at (45_payload.md R210). -/
theorem firstUncoded_of {tab : CodeTable} {text : List Byte} {n : Nat} {c : Symbol} (h : text[n]? = some c) (hc : codeOf tab c = [])
    (hb : ∀ b ∈ text.take n, codeOf tab b ≠ []) : firstUncoded tab 0 text = some n := by
  cases hf : firstUncoded tab 0 text with
  | none => exact absurd hc (firstUncoded_eq_none.1 hf c (List.mem_of_getElem? h))
  | some k =>
    obtain ⟨m, b, hk, hm, hcb, hall⟩ := firstUncoded_eq_some hf
    have hmem : ∀ {i j : Nat} {x : Byte}, text[i]? = some x → i < j → x ∈ text.take j := fun {i j x} hx hij =>
      List.mem_of_getElem? (by rw [List.getElem?_take, if_pos hij]; exact hx)
    rcases lt_trichotomy m n with hlt | rfl | hlt
    · exact absurd hcb (hb b (hmem hm hlt))
    · simp [hk]
    · exact absurd hc (hall c (hmem h hlt))

/-- A walk that ends well gives its symbols (45_payload.md R212). -/
theorem WalkGives.decodeBits {t : Tree} {cap : Nat} {bits : List Bool} {symbols : List Symbol} (hr : t.isInner = true)
    (h : WalkGives t cap bits symbols) : decodeBits t cap bits = .ok symbols := by
  obtain ⟨out, ho, hc, rfl, rfl⟩ := h
  have := walkDecode_codes hr cap out (fun e he => (Tree.mem_paths _ _ _).2 (ho e he)) 0 0 [] (by omega)
  rw [List.append_nil] at this
  rw [Machine.decodeBits, this, walkDecode, if_pos rfl]
  simp [Except.map]

/-- A walk that fails gives its error and ERR_INFO (45_payload.md R212 to R214). -/
theorem WalkFails.decodeBits {t : Tree} {cap : Nat} {bits : List Bool} {e : ErrCode} {info : Nat} (hr : t.isInner = true)
    (h : WalkFails t cap bits e info) : decodeBits t cap bits = .error (e, info) := by
  obtain ⟨out, ho, hc, h⟩ := h
  have key := fun bits => walkDecode_codes hr cap out (fun e he => (Tree.mem_paths _ _ _).2 (ho e he)) 0 0 bits (by omega)
  rw [Machine.decodeBits]
  rcases h with ⟨rfl, rfl, p, l, r, hp, hf, rfl⟩ | ⟨rfl, p, b, rest, l, r, hf, hch, rfl, rfl⟩ | ⟨rfl, rfl, hcap, p, c, rest, hf, rfl⟩
  · have := walkDecode_inner (root := t) (cap := cap) (k := 0 + out.length)
      (j := 0 + (out.map Prod.snd).flatten.length) (start := 0 + (out.map Prod.snd).flatten.length) (bits := []) hf (fun _ => hr)
    rw [List.append_nil] at this
    have hp := List.length_pos_iff.2 hp
    rw [key, this, walkDecode, if_neg (by omega)]
    simp [Except.map]
  · rw [key, walkDecode_inner hf (fun _ => hr), walkDecode, hch]
    simp [Except.map]
  · rw [key, walkDecode_leaf hf hr, if_pos (by omega)]
    simp [Except.map]

end Sys2Proof.Machine
end

