-- ==== Sys2Proof/Laws/Endings.lean ====
section
/-! SUPPORT. What every command's pseudocode keeps: the fields it leaves alone, the bounds of its output and of the source
bytes it consumes, and that an error has an error code (00_scope.md R18; 10_state.md R43). -/

namespace Sys2Proof.Machine

@[simp] theorem State.memRead_length (s : State) (a n : Nat) : (s.memRead a n).length = n := by simp [State.memRead]

@[simp] theorem State.source_length (s : State) : s.source.length = s.srcLen.toNat := by simp [State.source]

@[simp] theorem State.sourceFront_length (s : State) (n : Nat) : (s.sourceFront n).length = n := by
  simp [State.sourceFront]

theorem State.memRead_getElem? (s : State) (a n k : Nat) :
    (s.memRead a n)[k]? = if k < n then some (s.byteAt (a + k)) else none := by
  simp only [State.memRead, List.getElem?_map]
  split <;> simp_all

theorem State.source_getElem? (s : State) (k : Nat) :
    s.source[k]? = if k < s.srcLen.toNat then some (s.byteAt (s.srcAddr.toNat + k)) else none := s.memRead_getElem? _ _ _

/-- The front of the source region is the front of the whole. -/
theorem State.sourceFront_eq_take (s : State) {n : Nat} (h : n ≤ s.srcLen.toNat) : s.sourceFront n = s.source.take n := by
  apply List.ext_getElem?
  intro k
  rw [State.sourceFront, State.memRead_getElem?, List.getElem?_take]
  split
  · rw [State.source_getElem?, if_pos (by omega)]
  · rfl

/-- A source region that starts where another command's output stands begins with that output. -/
theorem source_of_output {u : State} {a : Nat} {out : List Byte} (h1 : u.srcAddr.toNat = a) (hn : out.length ≤ u.srcLen.toNat)
    (h : ∀ k < out.length, u.buf.readByte (a + k) = out[k]?) : ∃ rest, u.source = out ++ rest := by
  refine ⟨u.source.drop out.length, ?_⟩
  conv_lhs => rw [← List.take_append_drop out.length u.source]
  congr 1
  apply List.ext_getElem?
  intro k
  rw [List.getElem?_take]
  split
  · rename_i hk
    rw [State.source_getElem?, if_pos (by omega), State.byteAt, h1, h k hk]
    simp [hk]
  · rw [List.getElem?_eq_none (by omega)]

theorem walkDecode_length {root node : Tree} {cap k j start : Nat} {bits : List Bool} {out : List Symbol}
    (hk : k ≤ cap) (h : walkDecode root cap node k j start bits = .ok out) : k + out.length ≤ cap := by
  induction bits generalizing node k j start out with
  | nil =>
    rw [walkDecode] at h
    split at h
    · cases h; simpa using hk
    · cases h
  | cons b bits ih =>
    rw [walkDecode] at h
    split at h
    · cases h
    · split at h
      · cases h
      · rename_i hc
        cases hw : walkDecode root cap root (k + 1) (j + 1) (j + 1) bits with
        | error e => rw [hw] at h; cases h
        | ok out' =>
          rw [hw] at h
          cases h
          have := ih (by omega) hw
          simp only [List.length_cons]
          omega
    · exact ih hk h

theorem decodeBits_length {t : Tree} {cap : Nat} {bits : List Bool} {out : List Symbol}
    (h : decodeBits t cap bits = .ok out) : out.length ≤ cap := by
  simpa using walkDecode_length (Nat.zero_le cap) h

theorem walkDecode_err {root node : Tree} {cap k j start : Nat} {bits : List Bool} {e : ErrCode} {info : Nat}
    (h : walkDecode root cap node k j start bits = .error (e, info)) : e ≠ .ok := by
  induction bits generalizing node k j start with
  | nil =>
    rw [walkDecode] at h
    split at h <;> cases h
    decide
  | cons b bits ih =>
    rw [walkDecode] at h
    split at h
    · cases h; decide
    · split at h
      · cases h; decide
      · cases hw : walkDecode root cap root (k + 1) (j + 1) (j + 1) bits with
        | error e => rw [hw] at h; cases h; exact ih hw
        | ok out' => rw [hw] at h; cases h
    · exact ih h

theorem parseEntries_err {left e p : Nat} {rest : List Byte} {t : Tree} {tab : CodeTable} {c : ErrCode} {info : Nat}
    (h : parseEntries left e p rest t tab = .error (c, info)) : c ≠ .ok := by
  induction left generalizing e p rest t tab with
  | zero => cases h
  | succ left ih =>
    match rest with
    | [] => cases h; decide
    | [_] => cases h; decide
    | s :: len :: body =>
      rw [parseEntries] at h
      simp only at h
      split at h
      · cases h; decide
      split at h
      · cases h; decide
      split at h
      · cases h; decide
      split at h
      · cases h; decide
      · exact ih h

theorem parseBlock_err {be : Bool} {src : List Byte} {c : ErrCode} {info : Nat}
    (h : parseBlock be src = .error (c, info)) : c ≠ .ok := by
  rw [parseBlock] at h
  split at h
  · cases h; decide
  split at h
  · cases h; decide
  · exact parseEntries_err h

theorem parseBlock_used {be : Bool} {src : List Byte} {b : ParsedBlock} (h : parseBlock be src = .ok b) :
    b.used ≤ src.length := by
  obtain ⟨es, rest, -, -, hsrc, hu, -⟩ := parseBlock_ok h
  rw [hu, hsrc, List.length_append]
  omega

theorem frameTail_err {be : Bool} {src : List Byte} {q : Nat} {c : ErrCode} {info : Nat}
    (h : frameTail be src q = .error (c, info)) : c ≠ .ok := by
  rw [frameTail] at h
  simp only at h
  split at h
  · cases h; decide
  split at h
  · cases h; decide
  split at h
  · cases h; decide
  split at h
  · cases h; decide
  · cases h

/-- A frame tail that is accepted: the two lengths it read, and the room there is for the payload (45_payload.md R217). -/
theorem frameTail_ok {be : Bool} {src : List Byte} {q bl pl : Nat} (h : frameTail be src q = .ok (bl, pl)) :
    bl = wireU32 be (src.drop q) ∧ pl = wireU32 be (src.drop (q + 4)) ∧ ceil8 bl ≤ pl ∧ q + 8 + pl ≤ src.length := by
  rw [frameTail] at h
  simp only at h
  split at h
  · cases h
  split at h
  · cases h
  split at h
  · cases h
  split at h
  · cases h
  · cases h
    refine ⟨rfl, rfl, by omega, by omega⟩

/-- The fields a command's pseudocode may write, and no other: FREQ, TREE, CODETAB, BITLEN, each only by the commands that
rebuild it (10_state.md R30, R43). -/
structure Writes (i : Instr) (s u : State) : Prop where
  others : u = { s with freq := u.freq, tree := u.tree, codetab := u.codetab, bitlen := u.bitlen }
  freq : i ∉ [Instr.freqCount, .encodeFrame] → u.freq = s.freq
  tree : i ∉ [Instr.treeBuild, .cbParse, .encodeFrame, .decodeFrame] → u.tree = s.tree
  codetab : i ∉ [Instr.codeAssign, .cbParse, .encodeFrame, .decodeFrame] → u.codetab = s.codetab
  bitlen : i ∉ [Instr.bitPack, .packCodes, .encodeFrame, .decodeFrame] → u.bitlen = s.bitlen

theorem ending_success {i : Instr} {s u : State} {out : List Byte} {n : Nat} (h : ending i s = .success u out n) :
    Writes i s u ∧ out.length ≤ s.dstCap.toNat ∧ n ≤ s.srcLen.toNat ∧ (usesSrc i = false → n = 0) ∧
      (usesDst i = false → out = []) := by
  have hceil : ∀ b : Nat, ¬ 8 * s.srcLen.toNat < b → ceil8 b ≤ s.srcLen.toNat := fun b hb => by unfold ceil8; omega
  cases i with
  | nop => cases h; exact ⟨⟨rfl, by simp, by simp, by simp, by simp⟩, by simp, by simp, by simp, by simp⟩
  | freqCount => cases h; exact ⟨⟨rfl, by simp, by simp, by simp, by simp⟩, by simp, by simp, by simp [usesSrc], by simp⟩
  | treeBuild => cases h; exact ⟨⟨rfl, by simp, by simp, by simp, by simp⟩, by simp, by simp, by simp, by simp⟩
  | codeAssign => cases h; exact ⟨⟨rfl, by simp, by simp, by simp, by simp⟩, by simp, by simp, by simp, by simp⟩
  | bitPack =>
    simp only [ending, bitPackEnding] at h
    split at h
    · cases h
    · cases h
      exact ⟨⟨rfl, by simp, by simp, by simp, by simp⟩, by omega, by simp, by simp [usesSrc], by simp [usesDst]⟩
  | bitUnpack =>
    simp only [ending, bitUnpackEnding] at h
    split at h
    · cases h
    split at h
    · cases h
    · cases h
      exact ⟨⟨rfl, by simp, by simp, by simp, by simp⟩, by simpa using by omega, hceil _ ‹_›, by simp [usesSrc], by simp [usesDst]⟩
  | cbSerialize =>
    simp only [ending, cbSerializeEnding] at h
    split at h
    · cases h
    · cases h
      exact ⟨⟨rfl, by simp, by simp, by simp, by simp⟩, by omega, by simp, by simp, by simp [usesDst]⟩
  | cbParse =>
    simp only [ending, cbParseEnding] at h
    split at h
    · cases h
    · rename_i b hb
      cases h
      have := parseBlock_used hb
      rw [State.source_length] at this
      exact ⟨⟨rfl, by simp [State.loadCodebook], by simp, by simp, by simp [State.loadCodebook]⟩, by simp, this, by simp [usesSrc], by simp⟩
  | packCodes =>
    simp only [ending, packCodesEnding] at h
    split at h
    · cases h
    split at h
    · cases h
    · cases h
      exact ⟨⟨rfl, by simp, by simp, by simp, by simp⟩, by omega, by simp, by simp [usesSrc], by simp [usesDst]⟩
  | decodePayload =>
    simp only [ending, decodePayloadEnding] at h
    split at h
    · cases h
    split at h
    · cases h
    · rename_i out' ho
      cases h
      exact ⟨⟨rfl, by simp, by simp, by simp, by simp⟩, decodeBits_length ho, hceil _ ‹_›, by simp [usesSrc], by simp [usesDst]⟩
  | encodeFrame =>
    simp only [ending, encodeFrameEnding] at h
    split at h
    · cases h
    · cases h
      exact ⟨⟨rfl, by simp, by simp, by simp, by simp⟩, by omega, by simp, by simp [usesSrc], by simp [usesDst]⟩
  | decodeFrame =>
    simp only [ending, decodeFrameEnding] at h
    split at h
    · cases h
    split at h
    · cases h
    split at h
    · cases h
    · rename_i bl pl ht _ out' ho
      cases h
      have := (frameTail_ok ht).2.2.2
      rw [State.source_length] at this
      exact ⟨⟨rfl, by simp [State.loadCodebook], by simp, by simp, by simp⟩, decodeBits_length ho, this, by simp [usesSrc], by simp [usesDst]⟩

theorem ending_error {i : Instr} {s u : State} {e : ErrCode} {info : Nat} (h : ending i s = .error u e info) :
    Writes i s u ∧ u.bitlen = s.bitlen ∧ e ≠ .ok := by
  cases i with
  | nop => cases h
  | freqCount => cases h
  | treeBuild => cases h
  | codeAssign => cases h
  | bitPack =>
    simp only [ending, bitPackEnding] at h
    split at h
    · cases h; exact ⟨⟨rfl, by simp, by simp, by simp, by simp⟩, rfl, by decide⟩
    · cases h
  | bitUnpack =>
    simp only [ending, bitUnpackEnding] at h
    split at h
    · cases h; exact ⟨⟨rfl, by simp, by simp, by simp, by simp⟩, rfl, by decide⟩
    split at h
    · cases h; exact ⟨⟨rfl, by simp, by simp, by simp, by simp⟩, rfl, by decide⟩
    · cases h
  | cbSerialize =>
    simp only [ending, cbSerializeEnding] at h
    split at h
    · cases h; exact ⟨⟨rfl, by simp, by simp, by simp, by simp⟩, rfl, by decide⟩
    · cases h
  | cbParse =>
    simp only [ending, cbParseEnding] at h
    split at h
    · rename_i hb
      cases h
      exact ⟨⟨rfl, by simp [State.clearCodebook], by simp, by simp, by simp [State.clearCodebook]⟩, rfl, parseBlock_err hb⟩
    · cases h
  | packCodes =>
    simp only [ending, packCodesEnding] at h
    split at h
    · cases h; exact ⟨⟨rfl, by simp, by simp, by simp, by simp⟩, rfl, by decide⟩
    split at h
    · cases h; exact ⟨⟨rfl, by simp, by simp, by simp, by simp⟩, rfl, by decide⟩
    · cases h
  | decodePayload =>
    simp only [ending, decodePayloadEnding] at h
    split at h
    · cases h; exact ⟨⟨rfl, by simp, by simp, by simp, by simp⟩, rfl, by decide⟩
    split at h
    · rename_i hb
      cases h
      exact ⟨⟨rfl, by simp, by simp, by simp, by simp⟩, rfl, walkDecode_err hb⟩
    · cases h
  | encodeFrame =>
    simp only [ending, encodeFrameEnding] at h
    split at h
    · cases h; exact ⟨⟨rfl, by simp, by simp, by simp, by simp⟩, rfl, by decide⟩
    · cases h
  | decodeFrame =>
    simp only [ending, decodeFrameEnding] at h
    split at h
    · rename_i hb
      cases h
      exact ⟨⟨rfl, by simp [State.clearCodebook], by simp, by simp, by simp⟩, rfl, parseBlock_err hb⟩
    split at h
    · rename_i hb
      cases h
      exact ⟨⟨rfl, by simp [State.loadCodebook], by simp, by simp, by simp⟩, rfl, frameTail_err hb⟩
    split at h
    · rename_i hb
      cases h
      exact ⟨⟨rfl, by simp [State.loadCodebook], by simp, by simp, by simp⟩, rfl, walkDecode_err hb⟩
    · cases h

/-- The three ways a command completes, with everything each says about the next state. -/
theorem exec_inversion {i : Instr} {s t : State} (h : exec i s = .next t) :
    (∃ e info, preCheck i s = some (e, info) ∧ e ≠ .ok ∧ t = s.afterPreCheckError e info) ∨
    (∃ u out n, preCheck i s = none ∧ ending i s = .success u out n ∧ Writes i s u ∧ Succeeds s u out n t) ∨
    ∃ u e info, preCheck i s = none ∧ ending i s = .error u e info ∧ Writes i s u ∧ u.bitlen = s.bitlen ∧ e ≠ .ok ∧
      Fails s u e info t := by
  rcases exec_cases i s with ⟨e, info, hp, hx⟩ | ⟨hp, ⟨u, out, n, hs, hx⟩ | ⟨u, e, info, he, hx⟩⟩
  · rw [hx] at h
    cases h
    have he := preCheck_err hp
    exact .inl ⟨e, info, hp, he, by simp [State.failPre, State.close, State.flagsAtCompletion, State.afterPreCheckError, he]⟩
  · obtain ⟨hw, -⟩ := ending_success hs
    obtain ⟨t', ht', hsucc⟩ := exec_succeeds hp hs (by rw [hw.others]) (by rw [hw.others]) (by rw [hw.others])
    rw [ht'] at h
    cases h
    exact .inr (.inl ⟨u, out, n, hp, hs, hw, hsucc⟩)
  · obtain ⟨hw, hb, hne⟩ := ending_error he
    obtain ⟨t', ht', hf⟩ := exec_fails hp he hne (by rw [hw.others]) (by rw [hw.others]) (by rw [hw.others]) (by rw [hw.others])
    rw [ht'] at h
    cases h
    exact .inr (.inr ⟨u, e, info, hp, he, hw, hb, hne, hf⟩)

/-- The registers every completion leaves alone, and the flags it sets (40_command_common.md R134, R137). -/
theorem exec_common {i : Instr} {s t : State} (h : exec i s = .next t) :
    t.busy = false ∧ t.done = true ∧ (t.err = true ↔ t.errcode ≠ .ok) ∧ t.cfg = s.cfg ∧ t.ie = s.ie ∧ t.ovr = s.ovr ∧ t.cmd = s.cmd ∧
      t.srcAddr = s.srcAddr ∧ t.srcLen = s.srcLen ∧ t.dstAddr = s.dstAddr ∧ t.dstCap = s.dstCap ∧ t.inputs = s.inputs ∧ t.readData = s.readData := by
  rcases exec_inversion h with ⟨e, info, -, he, rfl⟩ | ⟨u, out, n, -, -, hw, hs⟩ | ⟨u, e, info, -, -, hw, -, he, hf⟩
  · simp [State.afterPreCheckError, he]
  · rw [hs.registers, hw.others]; simp
  · rw [hf.registers, hw.others]; simp [he]

/-- OUT_LEN holds the output's length. -/
theorem out_toNat {i : Instr} {s u : State} {out : List Byte} {n : Nat} (h : ending i s = .success u out n) :
    (BitVec.ofNat 32 out.length).toNat = out.length := by
  have := (ending_success h).2.1
  have := s.dstCap.isLt
  rw [BitVec.toNat_ofNat]; omega
/-- An ending with another BUF. -/
def Ending.withBuf : Ending → Memory → Ending
  | .success s out n, b => .success { s with buf := b } out n
  | .error s e info, b => .error { s with buf := b } e info

/-- With the same source bytes a command ends the same way, whatever else BUF holds (20_memory.md R69). -/
theorem ending_withBuf (i : Instr) (s : State) (b : Memory) (h : State.source { s with buf := b } = s.source) :
    ending i { s with buf := b } = (ending i s).withBuf b := by
  have hf : ∀ n ≤ s.srcLen.toNat, State.sourceFront { s with buf := b } n = s.sourceFront n := fun n hn => by
    refine (State.sourceFront_eq_take { s with buf := b } hn).trans ?_
    rw [h, State.sourceFront_eq_take s hn]
  cases i with
  | nop => rfl
  | freqCount => simp only [ending, freqCountEnding, Ending.withBuf, h]
  | treeBuild => rfl
  | codeAssign => rfl
  | bitPack => simp only [ending, bitPackEnding, h]; split <;> rfl
  | bitUnpack =>
    simp only [ending, bitUnpackEnding]; split; rfl
    rw [hf _ (by unfold ceil8; omega)]
    split <;> rfl
  | cbSerialize => simp only [ending, cbSerializeEnding]; split <;> rfl
  | cbParse => simp only [ending, cbParseEnding, h]; split <;> rfl
  | packCodes => simp only [ending, packCodesEnding, h]; split; rfl; split <;> rfl
  | decodePayload =>
    simp only [ending, decodePayloadEnding]; split; rfl
    rw [hf _ (by unfold ceil8; omega)]
    split <;> rfl
  | encodeFrame =>
    simp only [ending, encodeFrameEnding, State.rebuildFromSource, h]
    by_cases hc : s.dstCap.toNat < (frameOf s.cfg.wireBE (assignCodes (buildTree (countSymbols s.source))) s.source).length
    · simp only [hc, ↓reduceIte]; rfl
    · simp only [hc, ↓reduceIte]; rfl
  | decodeFrame =>
    simp only [ending, decodeFrameEnding, h]; split; rfl; split; rfl; split <;> rfl

/-- If the endings agree, the next states agree but for BUF, and so do the output bytes. -/
theorem exec_withBuf (i : Instr) (s₁ s₂ : State) (hs : s₂ = { s₁ with buf := s₂.buf })
    (he : preCheck i s₁ = none → ending i s₂ = (ending i s₁).withBuf s₂.buf) :
    ∃ t₁ t₂, exec i s₁ = .next t₁ ∧ exec i s₂ = .next t₂ ∧ t₂ = { t₁ with buf := t₂.buf } ∧
      ∀ k < t₁.outLen.toNat, t₂.buf.readByte (s₁.dstAddr.toNat + k) = t₁.buf.readByte (s₁.dstAddr.toNat + k) := by
  have hp : preCheck i s₂ = preCheck i s₁ := by rw [hs]; rfl
  have hd : s₂.draws = s₁.draws := by rw [hs]
  have hda : s₂.dstAddr = s₁.dstAddr := by rw [hs]
  obtain ⟨t₁, h₁⟩ := exec_next i s₁
  obtain ⟨t₂, h₂⟩ := exec_next i s₂
  refine ⟨t₁, t₂, h₁, h₂, ?_⟩
  rcases exec_inversion h₁ with ⟨e, info, hp₁, -, rfl⟩ | ⟨u, out, n, hp₁, hend, hw, hs₁⟩ | ⟨u, e, info, hp₁, hend, hw, hbl, -, hf⟩
  · rcases exec_inversion h₂ with ⟨e', info', hp₂, -, rfl⟩ | ⟨u', out', n', hp₂, -⟩ | ⟨u', e', info', hp₂, -⟩
    · rw [hp, hp₁] at hp₂
      cases hp₂
      refine ⟨?_, by simp [State.afterPreCheckError]⟩
      rw [hs]; rfl
    · rw [hp, hp₁] at hp₂; cases hp₂
    · rw [hp, hp₁] at hp₂; cases hp₂
  · rw [hend, Ending.withBuf] at he
    rcases exec_inversion h₂ with ⟨e', info', hp₂, -, rfl⟩ | ⟨u', out', n', hp₂, hend', -, hs₂⟩ | ⟨u', e', info', hp₂, hend', -⟩
    · rw [hp, hp₁] at hp₂; cases hp₂
    · rw [he hp₁] at hend'
      cases hend'
      refine ⟨?_, fun k hk => ?_⟩
      · rw [hs₂.registers, hs₁.registers, hd]
      · have : k < out.length := by rw [hs₁.registers] at hk; simp at hk; exact (out_toNat hend) ▸ (by simpa using hk)
        have h2 := hs₂.written k this
        rw [hda] at h2
        rw [h2, hs₁.written k this]
    · rw [he hp₁] at hend'; cases hend'
  · rw [hend, Ending.withBuf] at he
    rcases exec_inversion h₂ with ⟨e', info', hp₂, -, rfl⟩ | ⟨u', out', n', hp₂, hend', -, hs₂⟩ | ⟨u', e', info', hp₂, hend', -, -, -, hf'⟩
    · rw [hp, hp₁] at hp₂; cases hp₂
    · rw [he hp₁] at hend'; cases hend'
    · rw [he hp₁] at hend'
      cases hend'
      refine ⟨?_, fun k hk => ?_⟩
      · rw [hf'.registers, hf.registers, hd]
      · rw [hf.registers] at hk; simp at hk

end Sys2Proof.Machine
end

