-- ==== Sys2Proof/Laws/FrequencyTree.lean ====
section
/-! SUPPORT. The laws of FREQ_COUNT and TREE_BUILD: the counts, the queue, and what the merge loop makes
(41_frequency_tree.md R151, R158, R159). -/

namespace Sys2Proof.Machine

theorem countOf_foldl (text : List Byte) (f : FreqTable) (s : Symbol) :
    countOf (text.foldl (fun f s => setCount f s (countOf f s + 1)) f) s
      = countOf f s + BitVec.ofNat 32 (text.count s) := by
  induction text generalizing f with
  | nil => simp
  | cons x text ih =>
    rw [List.foldl_cons, ih, countOf_setCount, List.count_cons]
    by_cases h : x = s
    · subst h
      simp only [if_true, beq_self_eq_true]
      rw [BitVec.ofNat_add, BitVec.add_assoc, BitVec.add_comm 1]
      rfl
    · simp [h]

/-- Each counter is the number of occurrences of its symbol (41_frequency_tree.md R151). -/
theorem countOf_countSymbols (text : List Byte) (h : text.length < 2 ^ 32) (s : Symbol) :
    (countOf (countSymbols text) s).toNat = text.count s := by
  rw [countSymbols, countOf_foldl, countOf_noCounts, show (0 : Word) + BitVec.ofNat 32 (text.count s) = BitVec.ofNat 32 (text.count s) by simp,
    BitVec.toNat_ofNat]
  exact Nat.mod_eq_of_lt (lt_of_le_of_lt List.count_le_length h)

theorem sum_indicator (x : Symbol) (l : List Symbol) : (l.map fun s => if x = s then 1 else 0).sum = l.count x := by
  induction l with
  | nil => rfl
  | cons y l ih =>
    rw [List.map_cons, List.sum_cons, ih, List.count_cons]
    by_cases h : x = y
    · subst h; simp; omega
    · simp [h, Ne.symm h]

theorem sum_counts (text : List Byte) : (allSymbols.map fun s => text.count s).sum = text.length := by
  induction text with
  | nil => simp
  | cons x text ih =>
    have hx := sum_indicator x allSymbols
    rw [List.count_eq_one_of_mem allSymbols_nodup (mem_allSymbols x)] at hx
    have hsplit : (allSymbols.map fun s => (x :: text).count s)
        = allSymbols.map fun s => text.count s + if x = s then 1 else 0 := by
      apply List.map_congr_left
      intro s _
      rw [List.count_cons]
      simp
    rw [hsplit, List.sum_map_add, ih, hx, List.length_cons]

theorem mem_alphabet (f : FreqTable) (s : Symbol) : s ∈ alphabet f ↔ 0 < (countOf f s).toNat := by
  simp [alphabet, mem_allSymbols]

theorem alphabet_nodup (f : FreqTable) : (alphabet f).Nodup := allSymbols_nodup.filter _

theorem alphabet_length_le (f : FreqTable) : (alphabet f).length ≤ 256 :=
  (List.length_filter_le _ _).trans (by rw [allSymbols_length])

/-- Insertion adds the entry and nothing else. -/
theorem enqueue_perm (e : QueueEntry) (q : List QueueEntry) : (enqueue e q).Perm (e :: q) := by
  induction q with
  | nil => exact .refl _
  | cons x q ih =>
    rw [enqueue]
    split
    · exact .refl _
    · exact (ih.cons x).trans (.swap _ _ _)

/-- A strict tree has one node less than twice its leaves (41_frequency_tree.md R159). -/
theorem Tree.strict_nodes {t : Tree} (h : t.strict = true) : t.nodes + 1 = 2 * t.paths.length := by
  induction t with
  | absent => simp [Tree.strict] at h
  | leaf s => rfl
  | inner l r ihl ihr =>
    simp only [Tree.strict, Bool.and_eq_true] at h
    have := ihl h.1
    have := ihr h.2
    simp only [Tree.nodes, Tree.paths, List.length_append, List.length_map]
    omega

theorem Tree.strict_paths_pos {t : Tree} (h : t.strict = true) : 0 < t.paths.length := by
  have := Tree.strict_nodes h
  omega

/-- A leaf of a strict tree is less deep than there are leaves (41_frequency_tree.md R159). -/
theorem Tree.strict_depth {t : Tree} (h : t.strict = true) : ∀ p ∈ t.paths, p.2.length + 1 ≤ t.paths.length := by
  induction t with
  | absent => simp [Tree.strict] at h
  | leaf s => simp [Tree.paths]
  | inner l r ihl ihr =>
    simp only [Tree.strict, Bool.and_eq_true] at h
    have hl := Tree.strict_paths_pos h.1
    have hr := Tree.strict_paths_pos h.2
    intro p hp
    simp only [Tree.paths, List.mem_append, List.mem_map, List.length_append, List.length_map] at hp ⊢
    rcases hp with ⟨q, hq, rfl⟩ | ⟨q, hq, rfl⟩
    · have := ihl h.1 q hq; simp only [List.length_cons]; omega
    · have := ihr h.2 q hq; simp only [List.length_cons]; omega

/-- The symbols of the leaves below a queue's entries. -/
def queueSymbols (q : List QueueEntry) : List Symbol := q.flatMap fun e => e.node.paths.map Prod.fst

theorem queueSymbols_perm {q q' : List QueueEntry} (h : q.Perm q') : (queueSymbols q).Perm (queueSymbols q') :=
  h.flatMap_right _

theorem Tree.symbols_inner (l r : Tree) :
    (Tree.inner l r).paths.map Prod.fst = l.paths.map Prod.fst ++ r.paths.map Prod.fst := by
  simp [Tree.paths, Function.comp_def]

/-- What the merge loop makes of a queue of strict trees: one strict tree with the same leaves (41_frequency_tree.md R155,
R159). -/
theorem mergeLoop_spec (steps next : Nat) (q : List QueueEntry) (hq : q ≠ []) (hlen : q.length ≤ steps + 1)
    (hstrict : ∀ e ∈ q, e.node.strict = true) :
    (mergeLoop steps next q).strict = true ∧ ((mergeLoop steps next q).paths.map Prod.fst).Perm (queueSymbols q) := by
  induction steps generalizing next q with
  | zero =>
    match q, hq, hlen with
    | [a], _, _ => simpa [mergeLoop, queueSymbols] using hstrict a
  | succ steps ih =>
    match q, hq, hlen with
    | [a], _, _ => simpa [mergeLoop, queueSymbols] using hstrict a
    | a :: b :: q, _, hlen =>
      rw [mergeLoop]
      have hperm := enqueue_perm ⟨a.freq + b.freq, next, .inner a.node b.node⟩ q
      have hl := hperm.length_eq
      obtain ⟨h1, h2⟩ := ih (next + 1) (enqueue ⟨a.freq + b.freq, next, .inner a.node b.node⟩ q)
        (by intro h; rw [h] at hl; simp at hl)
        (by simp only [List.length_cons] at hl hlen; omega) (by
          intro e he
          rcases List.mem_cons.1 (hperm.mem_iff.1 he) with rfl | he
          · simp [Tree.strict, hstrict a (by simp), hstrict b (by simp)]
          · exact hstrict e (by simp [he]))
      refine ⟨h1, h2.trans ((queueSymbols_perm hperm).trans ?_)⟩
      simp [queueSymbols, Tree.symbols_inner]

theorem leafQueue_spec (f : FreqTable) (ss : List Symbol) (k : Nat) :
    (leafQueue f ss k).length = ss.length ∧ (∀ e ∈ leafQueue f ss k, e.node.strict = true) ∧
      (queueSymbols (leafQueue f ss k)).Perm ss := by
  induction ss generalizing k with
  | nil => simp [leafQueue, queueSymbols]
  | cons s ss ih =>
    obtain ⟨h1, h2, h3⟩ := ih (k + 1)
    have hperm := enqueue_perm ⟨(countOf f s).toNat, k, .leaf s⟩ (leafQueue f ss (k + 1))
    refine ⟨by simp [leafQueue, hperm.length_eq, h1], fun e he => ?_, ?_⟩
    · rcases List.mem_cons.1 (hperm.mem_iff.1 he) with rfl | he
      · rfl
      · exact h2 e he
    · refine (queueSymbols_perm hperm).trans ?_
      simpa [queueSymbols, Tree.paths] using h3

/-- BuildTree for two or more symbols: a strict tree with the alphabet at its leaves (41_frequency_tree.md R155, R159). -/
theorem buildTree_of_two_le {f : FreqTable} (h : 2 ≤ (alphabet f).length) :
    (buildTree f).strict = true ∧ ((buildTree f).paths.map Prod.fst).Perm (alphabet f) := by
  obtain ⟨hl, hs, hp⟩ := leafQueue_spec f (alphabet f) 0
  have key := mergeLoop_spec (alphabet f).length (alphabet f).length (leafQueue f (alphabet f) 0)
    (by intro h0; rw [h0] at hl; simp at hl; omega) (by omega) hs
  have : buildTree f = mergeLoop (alphabet f).length (alphabet f).length (leafQueue f (alphabet f) 0) := by
    match hA : alphabet f with
    | [] => simp [hA] at h
    | [a] => simp [hA] at h
    | a :: b :: ss => unfold buildTree; rw [hA]
  rw [this]
  exact ⟨key.1, key.2.trans hp⟩

theorem buildTree_of_empty {f : FreqTable} (h : alphabet f = []) : buildTree f = emptyRoot := by
  unfold buildTree; rw [h]

theorem buildTree_of_single {f : FreqTable} {s : Symbol} (h : alphabet f = [s]) :
    buildTree f = .inner (.leaf s) .absent := by
  unfold buildTree; rw [h]

/-- Whatever the alphabet, the leaves of the tree are its symbols, each once. -/
theorem buildTree_symbols (f : FreqTable) : ((buildTree f).paths.map Prod.fst).Perm (alphabet f) := by
  match h : alphabet f with
  | [] => simp [buildTree_of_empty h, emptyRoot, Tree.paths]
  | [s] => simp [buildTree_of_single h, Tree.paths]
  | a :: b :: ss => rw [← h]; exact (buildTree_of_two_le (by simp [h])).2

theorem buildTree_isInner (f : FreqTable) : (buildTree f).isInner = true := by
  match h : alphabet f with
  | [] => simp [buildTree_of_empty h, emptyRoot, Tree.isInner]
  | [s] => simp [buildTree_of_single h, Tree.isInner]
  | a :: b :: ss =>
    obtain ⟨hs, hp⟩ := buildTree_of_two_le (f := f) (by simp [h])
    have hl := hp.length_eq
    rw [h, List.length_map, List.length_cons, List.length_cons] at hl
    cases ht : buildTree f with
    | absent => simp [ht, Tree.strict] at hs
    | leaf s => simp [ht, Tree.paths] at hl
    | inner l r => rfl

theorem QueueEntry.before_iff (a b : QueueEntry) :
    a.before b = true ↔ a.freq < b.freq ∨ a.freq = b.freq ∧ a.seq < b.seq := by
  simp [QueueEntry.before]

theorem QueueEntry.before_trans {a b c : QueueEntry} (h : a.before b = true) (h' : b.before c = true) :
    a.before c = true := by
  rw [QueueEntry.before_iff] at *; omega

theorem QueueEntry.not_before_of_before {a b : QueueEntry} (h : a.before b = true) : ¬ b.before a = true := by
  rw [QueueEntry.before_iff] at *; omega

/-- Insertion keeps a queue in extraction order (41_frequency_tree.md R158). -/
theorem enqueue_sorted {e : QueueEntry} {q : List QueueEntry} (h : q.Pairwise fun a b => a.before b = true)
    (hne : ∀ x ∈ q, x.seq ≠ e.seq) : (enqueue e q).Pairwise fun a b => a.before b = true := by
  induction q with
  | nil => simp [enqueue]
  | cons x q ih =>
    rw [List.pairwise_cons] at h
    rw [enqueue]
    split
    · rename_i hb
      rw [List.pairwise_cons, List.pairwise_cons]
      refine ⟨fun y hy => ?_, h⟩
      rcases List.mem_cons.1 hy with rfl | hy
      · exact hb
      · exact QueueEntry.before_trans hb (h.1 y hy)
    · rename_i hb
      rw [List.pairwise_cons]
      refine ⟨fun y hy => ?_, ih h.2 fun y hy => hne y (by simp [hy])⟩
      rcases List.mem_cons.1 ((enqueue_perm e q).mem_iff.1 hy) with rfl | hy
      · have := hne x (by simp)
        rw [QueueEntry.before_iff] at hb ⊢
        omega
      · exact h.1 y hy

theorem leafQueue_perm (f : FreqTable) (ss : List Symbol) (k : Nat) :
    (leafQueue f ss k).Perm ((ss.zipIdx k).map fun p => ⟨(countOf f p.1).toNat, p.2, .leaf p.1⟩) := by
  induction ss generalizing k with
  | nil => simp [leafQueue]
  | cons s ss ih =>
    rw [leafQueue, List.zipIdx_cons, List.map_cons]
    exact (enqueue_perm _ _).trans ((ih (k + 1)).cons _)

theorem leafQueue_seq (f : FreqTable) (ss : List Symbol) (k : Nat) :
    ((leafQueue f ss k).map QueueEntry.seq).Perm (List.range' k ss.length) := by
  have := (leafQueue_perm f ss k).map QueueEntry.seq
  rw [List.map_map] at this
  refine this.trans ?_
  have h : (ss.zipIdx k).map Prod.snd = List.range' k ss.length := by simp [List.zipIdx_map_snd]
  rw [← h]
  exact .refl _

/-- The initial queue is in extraction order (41_frequency_tree.md R153). -/
theorem leafQueue_sorted (f : FreqTable) (ss : List Symbol) (k : Nat) :
    (leafQueue f ss k).Pairwise fun a b => a.before b = true := by
  induction ss generalizing k with
  | nil => simp [leafQueue]
  | cons s ss ih =>
    rw [leafQueue]
    refine enqueue_sorted (ih (k + 1)) fun x hx => ?_
    have := (leafQueue_seq f ss (k + 1)).mem_iff.1 (List.mem_map_of_mem hx)
    rw [List.mem_range'_1] at this
    simp only
    omega

end Sys2Proof.Machine
end

