-- ==== Sys2Proof/Laws/Frame.lean ====
section
/-! SUPPORT. The laws of the frame commands: the codes of a counted text, the frame's bytes, and the frame tail
(45_payload.md R215 to R217). -/

namespace Sys2Proof.Machine

theorem buildTree_nodup (f : FreqTable) : ((buildTree f).paths.map Prod.fst).Nodup :=
  (buildTree_symbols f).nodup_iff.2 (alphabet_nodup f)

theorem mem_buildTree_paths {f : FreqTable} {c : Symbol} (h : 0 < (countOf f c).toNat) :
    (c, codeOf (assignCodes (buildTree f)) c) ∈ (buildTree f).paths := by
  have hm : c ∈ (buildTree f).paths.map Prod.fst := (buildTree_symbols f).mem_iff.2 ((mem_alphabet f c).2 h)
  obtain ⟨⟨c', p⟩, hp, rfl⟩ := List.mem_map.1 hm
  rw [codeOf_assignCodes_of_mem (buildTree_nodup f) hp]
  exact hp

theorem codeOf_buildTree_ne_nil {f : FreqTable} {c : Symbol} (h : 0 < (countOf f c).toNat) : codeOf (assignCodes (buildTree f)) c ≠ [] :=
  Tree.path_ne_nil (buildTree_isInner f) (mem_buildTree_paths h)

theorem source_lt (s : State) : s.source.length < 2 ^ 32 := by rw [State.source_length]; exact s.srcLen.isLt

theorem count_pos_of_mem_source {s : State} {c : Symbol} (h : c ∈ s.source) : 0 < (countOf (countSymbols s.source) c).toNat := by
  rw [countOf_countSymbols _ (source_lt s)]; exact List.count_pos_iff.2 h

theorem frameOf_eq (be : Bool) (tab : CodeTable) (text : List Byte) : frameOf be tab text = serializeBlock be tab ++ wireBytes32 be (textBits tab text).length
              ++ wireBytes32 be (((textBits tab text).length + 7) / 8) ++ pack (textBits tab text) := by
  rw [frameOf, pack_length]; rfl
theorem frameOf_length (be : Bool) (tab : CodeTable) (text : List Byte) :
    (frameOf be tab text).length = (serializeBlock be tab).length + 8 + ((textBits tab text).length + 7) / 8 := by
  rw [frameOf_eq]; simp only [List.length_append, wireBytes32_length, pack_length, ceil8]

theorem frameTail_valid {be : Bool} {block rest : List Byte} {bl pl : Nat} (hbl : bl < 2 ^ 32) (hpl : pl < 2 ^ 32) :
    frameTail be (block ++ (wireBytes32 be bl ++ (wireBytes32 be pl ++ rest))) block.length =
      if pl < ceil8 bl then .error (.malformedFrame, block.length + 4)
      else if rest.length < pl then .error (.shortInput, block.length + 8)
      else .ok (bl, pl) := by
  have hd : (block ++ (wireBytes32 be bl ++ (wireBytes32 be pl ++ rest))).drop block.length = wireBytes32 be bl ++ (wireBytes32 be pl ++ rest) := List.drop_left
  have hd4 : (block ++ (wireBytes32 be bl ++ (wireBytes32 be pl ++ rest))).drop (block.length + 4) = wireBytes32 be pl ++ rest := by
    rw [← List.drop_drop, hd]; exact List.drop_left' (by simp)
  rw [frameTail, hd, hd4, wireU32_append _ _ _ (by simp), wireU32_append _ _ _ (by simp), wireU32_wireBytes32 _ _ hbl, wireU32_wireBytes32 _ _ hpl]
  simp only [List.length_append, wireBytes32_length]
  rw [if_neg (by omega), if_neg (by omega)]
  by_cases h : pl < ceil8 bl
  · rw [if_pos h, if_pos h]
  · rw [if_neg h, if_neg h]
    by_cases h2 : rest.length < pl
    · rw [if_pos h2, if_pos (by omega)]
    · rw [if_neg h2, if_neg (by omega)]


/-- After a valid block DECODE_FRAME goes on with the frame tail. -/
theorem decodeFrame_after_block {s : State} {es : List WireEntry} {rest : List Byte} (hl : es.length ≤ 256) (hv : ValidEntries es)
    (hsrc : s.source = blockBytes s.cfg.wireBE es.length es ++ rest) :
    ∃ b : ParsedBlock, Holds b.tree b.codetab es ∧ b.used = (blockBytes s.cfg.wireBE es.length es).length ∧
      ending .decodeFrame s = match frameTail s.cfg.wireBE s.source b.used with
        | .error (e, info) => .error (s.loadCodebook b) e info
        | .ok (bl, pl) =>
          match decodeBits b.tree s.dstCap.toNat (unpack ((s.source.drop (b.used + 8)).take (ceil8 bl)) bl) with
          | .error (e, info) => .error (s.loadCodebook b) e info
          | .ok out => .success { s.loadCodebook b with bitlen := BitVec.ofNat 32 bl } out (b.used + 8 + pl) := by
  obtain ⟨b, hb, hh, hu⟩ := parse_valid (be := s.cfg.wireBE) (rest := rest) hl hv
  rw [← hsrc] at hb
  exact ⟨b, hh, hu, by simp only [ending, decodeFrameEnding, hb] <;> rfl⟩

theorem payload_bits {src : List Byte} {be : Bool} {block body : List Byte} {bl pl : Nat} (h : src = block ++ (wireBytes32 be bl ++ (wireBytes32 be pl ++ body))) :
    unpack ((src.drop (block.length + 8)).take (ceil8 bl)) bl = unpack body bl := by
  have hd : src.drop (block.length + 8) = body := by
    rw [h, ← List.drop_drop, List.drop_left, ← List.append_assoc]; exact List.drop_left' (by simp)
  rw [hd, unpack_take _ _ _ (ceil8_mul _)]

/-- No leaf of a built tree is deeper than 255 (41_frequency_tree.md R159). -/
theorem buildTree_depth (f : FreqTable) : ∀ p ∈ (buildTree f).paths, p.2.length ≤ 255 := by
  intro p hp
  have hl := (buildTree_symbols f).length_eq
  have h256 := alphabet_length_le f
  rw [List.length_map] at hl
  match h : alphabet f with
  | [] => rw [buildTree_of_empty h] at hp; simp [emptyRoot, Tree.paths] at hp
  | [x] => rw [buildTree_of_single h] at hp; simp [Tree.paths] at hp; rw [hp]; simp
  | a :: b :: ss =>
    have := Tree.strict_depth (buildTree_of_two_le (f := f) (by simp [h])).1 p hp
    omega

/-- The codes of a tree with each symbol at one leaf are prefix-free (42_code_assign.md R172). -/
theorem assignCodes_legal {t : Tree} (hn : (t.paths.map Prod.fst).Nodup) (hd : ∀ p ∈ t.paths, p.2.length ≤ 255) :
    CodesLegal (assignCodes t) := by
  refine ⟨fun a b hab ha hb hp => hab ?_, fun s => ?_⟩
  · exact (Tree.paths_prefix_eq (mem_paths_of_codeOf_assignCodes hn ha) (mem_paths_of_codeOf_assignCodes hn hb) hp).1
  · by_cases hs : codeOf (assignCodes t) s = []
    · simp [hs]
    · exact hd _ (mem_paths_of_codeOf_assignCodes hn hs)

end Sys2Proof.Machine
end

