-- ==== Sys2Proof/Laws/HostPort.lean ====
section
/-! SUPPORT. The laws of the host port: which offset is which register, and little-endian values and their bytes
(10_state.md R36, R37; 20_memory.md R65). -/

namespace Sys2Proof.Machine

theorem csrOffset_freq_toNat (c : Symbol) : (csrOffset (.freq c)).toNat = 0x400 + 4 * c.toNat := by
  have := c.isLt
  simp [csrOffset]
  omega

theorem csrAt_eq_of_index {o : BitVec 12} {k : Nat} (h : o.toNat / 4 = k + 19) :
    csrAt o = if 256 ≤ k + 19 ∧ k + 19 < 512 then some (.freq (BitVec.ofNat 8 (k + 19 - 256))) else none := by
  unfold csrAt
  rw [h]
  rfl

/-- The register found at a register's offset is that register. -/
theorem csrAt_csrOffset (r : Csr) : csrAt (csrOffset r) = some r := by
  cases r with
  | freq c =>
    have h := csrOffset_freq_toNat c
    have hc := c.isLt
    rw [csrAt_eq_of_index (show (csrOffset (.freq c)).toNat / 4 = (237 + c.toNat) + 19 by omega), if_pos (by omega),
      show 237 + c.toNat + 19 - 256 = c.toNat by omega]
    simp
  | _ => rfl

/-- A register's offset is the only one, among the multiples of 4, where it is found. -/
theorem csrAt_eq_some {o : BitVec 12} {r : Csr} (hm : o.toNat % 4 = 0) (h : csrAt o = some r) : o = csrOffset r := by
  have := o.isLt
  unfold csrAt at h
  apply BitVec.eq_of_toNat_eq
  split at h <;> try (simp at h; subst h; simp [csrOffset]; omega)
  split at h
  · simp at h; subst h
    simp [csrOffset, BitVec.toNat_ofNat]
    omega
  · simp at h

/-- No register stands between MAX_CODE_LEN and FREQ, or above FREQ. -/
theorem csrAt_reserved {o : BitVec 12} (h : 0x4C ≤ o.toNat) (h' : o.toNat < 0x400 ∨ 0x800 ≤ o.toNat) :
    csrAt o = none := by
  obtain ⟨k, hk⟩ : ∃ k, o.toNat / 4 = k + 19 := ⟨o.toNat / 4 - 19, by omega⟩
  rw [csrAt_eq_of_index hk, if_neg (by omega)]

@[simp] theorem hostBytes_length (v : Word) (n : Nat) : (hostBytes v n).length = n := by simp [hostBytes]

theorem hostBytes_getElem? (v : Word) (n k : Nat) (h : k < n) :
    (hostBytes v n)[k]? = some (BitVec.ofNat 8 (v.toNat / 256 ^ k)) := by
  simp only [hostBytes, List.getElem?_map, List.getElem?_range h, Option.map_some, Option.some.injEq]
  apply BitVec.eq_of_toNat_eq
  rw [BitVec.extractLsb'_toNat, BitVec.toNat_ofNat, Nat.shiftRight_eq_div_pow, Nat.pow_mul]

/-- A little-endian value is below 256 to the number of its bytes. -/
theorem hostValue_lt (l : List Byte) : hostValue l < 256 ^ l.length := by
  induction l with
  | nil => simp [hostValue]
  | cons b l ih =>
    have := b.isLt
    rw [hostValue, List.length_cons, Nat.pow_succ]
    omega

/-- Byte k of a little-endian value (20_memory.md R65). -/
theorem hostValue_digit {l : List Byte} {k : Nat} {b : Byte} (h : l[k]? = some b) : hostValue l / 256 ^ k % 256 = b.toNat := by
  induction l generalizing k with
  | nil => simp at h
  | cons x l ih =>
    have hx := x.isLt
    cases k with
    | zero =>
      rw [List.getElem?_cons_zero, Option.some.injEq] at h
      subst h
      rw [hostValue, Nat.pow_zero, Nat.div_one]
      omega
    | succ k =>
      rw [hostValue, Nat.pow_succ', ← Nat.div_div_eq_div_mul, show (x.toNat + 256 * hostValue l) / 256 = hostValue l by omega]
      exact ih (by simpa using h)

/-- The bytes of a value, read back, are the value's low bytes (20_memory.md R65). -/
theorem hostValue_hostBytes (v : Word) (n : Nat) : hostValue (hostBytes v n) = v.toNat % 256 ^ n := by
  have key : ∀ (x m : Nat), hostValue ((List.range m).map fun k => BitVec.ofNat 8 (x / 256 ^ k)) = x % 256 ^ m := by
    intro x m
    induction m generalizing x with
    | zero => simp [hostValue, Nat.mod_one]
    | succ m ih =>
      have := ih (x / 256)
      simp only [Nat.div_div_eq_div_mul, ← Nat.pow_succ'] at this
      rw [List.range_succ_eq_map, List.map_cons, List.map_map, hostValue, Nat.pow_succ' (m := 256) (n := m), Nat.mod_mul]
      rw [← this]
      simp [Function.comp_def]
  rw [← key]
  congr 1
  apply List.ext_getElem?
  intro k
  by_cases h : k < n
  · rw [hostBytes_getElem? v n k h]; simp [h]
  · rw [List.getElem?_eq_none (by simpa using h), List.getElem?_eq_none (by simpa using h)]

/-- A host read of bytes that are all known returns their little-endian value. -/
theorem State.hostRead_eq {s : State} {a n : Nat} (l : List Byte) (hl : l.length = n) (h4 : n ≤ 4)
    (h : ∀ k < l.length, some (s.hostByte (a + k)) = l[k]?) : (s.hostRead a n).toNat = hostValue l := by
  have : ((List.range n).map fun k => s.hostByte (a + k)) = l := by
    apply List.ext_getElem?
    intro k
    by_cases hk : k < l.length
    · rw [← h k hk]; simp [hl ▸ hk]
    · rw [List.getElem?_eq_none (by simpa [hl] using hk), List.getElem?_eq_none (by simpa using hk)]
  rw [State.hostRead, this, BitVec.toNat_ofNat]
  apply Nat.mod_eq_of_lt
  refine lt_of_lt_of_le (hostValue_lt l) ?_
  rw [hl]
  exact Nat.pow_le_pow_right (by omega) h4

/-- Each byte of what a host read returns is the byte read, and nothing stands above them (20_memory.md R65). -/
theorem State.hostRead_digit (s : State) (a : Nat) {n : Nat} (h4 : n ≤ 4) :
    (s.hostRead a n).toNat < 256 ^ n ∧ ∀ k < n, (s.hostRead a n).toNat / 256 ^ k % 256 = (s.hostByte (a + k)).toNat := by
  have h := State.hostRead_eq (s := s) (a := a) ((List.range n).map fun k => s.hostByte (a + k)) (by simp) h4 (fun k hk => by
    have hk : k < n := by simpa using hk
    simp [hk])
  rw [h]
  exact ⟨by simpa using hostValue_lt ((List.range n).map fun k => s.hostByte (a + k)), fun k hk => hostValue_digit (by simp [hk])⟩

end Sys2Proof.Machine
end

