-- ==== Sys2Proof/Laws/PerInstr.lean ====
section
/-! SUPPORT. What holds of every instruction as syntax, one lemma per constructor. -/

/-- A command is well formed, its word is legal, and the opcode table's bits of that word read back as the command
(30_encoding.md R90, R91). -/
def Sys2Proof.Laws.TableWord.Statement (i : Sys2Proof.Instr) : Prop :=
  i.wf = true ∧ Sys2Proof.commandWordLegal (Sys2Proof.encode i) = true ∧
    Sys2Proof.decodeTableWord 32 (Sys2Proof.encode i).toNat = some i

namespace Sys2Proof.Laws.TableWord

theorem nop : Statement .nop := ⟨rfl, by decide, by decide⟩

theorem freqCount : Statement .freqCount := ⟨rfl, by decide, by decide⟩

theorem treeBuild : Statement .treeBuild := ⟨rfl, by decide, by decide⟩

theorem codeAssign : Statement .codeAssign := ⟨rfl, by decide, by decide⟩

theorem bitPack : Statement .bitPack := ⟨rfl, by decide, by decide⟩

theorem bitUnpack : Statement .bitUnpack := ⟨rfl, by decide, by decide⟩

theorem cbSerialize : Statement .cbSerialize := ⟨rfl, by decide, by decide⟩

theorem cbParse : Statement .cbParse := ⟨rfl, by decide, by decide⟩

theorem packCodes : Statement .packCodes := ⟨rfl, by decide, by decide⟩

theorem decodePayload : Statement .decodePayload := ⟨rfl, by decide, by decide⟩

theorem encodeFrame : Statement .encodeFrame := ⟨rfl, by decide, by decide⟩

theorem decodeFrame : Statement .decodeFrame := ⟨rfl, by decide, by decide⟩

end Sys2Proof.Laws.TableWord
end

