-- ==== Sys2Proof/Tests/Slice0.lean ====
section
/-! SUPPORT. Small tests: ill-formed terms are refused, words written out from the spec decode to their commands, one step
of each command gives what spec/95_test_vectors.md lists, and a witness that meets each statement's hypotheses. -/

set_option Elab.async false

namespace Sys2Proof.Tests

open Sys2Proof.Machine

/-! ## Helpers -/

/-- `s` with source bytes at 0x100 and the destination region [0x400, 0x400 + cap): the vectors' layout. -/
def source (src : List Byte) (cap : Nat) (s : State) : State :=
  { s with buf := s.buf.writeBytes 0x100 src, srcAddr := 0x100, srcLen := BitVec.ofNat 32 src.length
           dstAddr := 0x400, dstCap := BitVec.ofNat 32 cap }

/-- From reset, with source bytes and a capacity. -/
def start (src : List Byte) (cap : Nat) : State := source src cap State.reset

/-- The state a command leaves. -/
def after (i : Instr) (s : State) : State :=
  match exec i s with
  | .next t => t
  | .fault f => nomatch f
  | .refused _ => State.reset

theorem exec_eq_after (i : Instr) (s : State) : exec i s = .next (after i s) := by
  obtain ⟨t, ht⟩ := exec_next i s
  rw [after, ht]

/-- The command succeeded with this output. -/
def succeeded (s : State) (out : List Byte) : Bool :=
  s.statusWord == 0x00000002 && !s.err && s.errcode == .ok && s.outLen.toNat == out.length
    && (List.range out.length).all fun k => s.buf.readByte (s.dstAddr.toNat + k) == out[k]?

/-- The command failed with this error. -/
def failed (s : State) (e : ErrCode) (info : Nat) : Bool :=
  s.statusWord == 0x00000006 && s.errcode == e && s.errInfo.toNat == info && s.outLen == 0 && s.inUsed == 0

/-- "aaabbc" (95_test_vectors.md, conventions). -/
def text : List Byte := [0x61, 0x61, 0x61, 0x62, 0x62, 0x63]

/-- The tree of "aaabbc", V-TB-1. -/
def tree : Tree := .inner (.leaf 0x61) (.inner (.leaf 0x63) (.leaf 0x62))

/-- The codebook of "aaabbc", V-CA-1: a = 0, b = 11, c = 10. -/
def table : CodeTable :=
  setCode (setCode (setCode noCodes 0x61 [false]) 0x62 [true, true]) 0x63 [true, false]

/-- Its codebook block, V-CS-1. -/
def block : List Byte := [0x03, 0x00, 0x00, 0x00, 0x61, 0x01, 0x00, 0x62, 0x02, 0xC0, 0x63, 0x02, 0x80]

/-- Its frame, V-EF-1. -/
def frame : List Byte := block ++ [0x09, 0x00, 0x00, 0x00, 0x02, 0x00, 0x00, 0x00, 0x1F, 0x00]

/-! ## Ill-formed terms -/

theorem test_wf_reserved_bit : commandWordLegal 0x00000100 = false := by decide
theorem test_wf_opcode_0C : commandWordLegal 0x0000000C = false := by decide
theorem test_wf_no_buf : Config.legal ⟨0, false⟩ = false := by decide
theorem test_wf_buf_too_large : Config.legal ⟨2 ^ 28 + 1, true⟩ = false := by decide
theorem test_wf_code_empty : codeLegal [] = false := by decide
theorem test_wf_code_256 : codeLegal (List.replicate 256 true) = false := by decide +kernel
theorem test_wf_every_command : ∀ i : Instr, i.wf = true ∧ commandWordLegal (encode i) = true := by
  intro i; cases i <;> decide

/-! ## Decoding: words written out from 30_encoding.md R90 and R91, RSV then OPC -/

theorem test_decode_nop : decodeWord 0b000000000000000000000000_00000000#32 = .ok .nop := by decide
theorem test_decode_freqCount : decodeWord 0b000000000000000000000000_00000001#32 = .ok .freqCount := by decide
theorem test_decode_treeBuild : decodeWord 0b000000000000000000000000_00000010#32 = .ok .treeBuild := by decide
theorem test_decode_codeAssign : decodeWord 0b000000000000000000000000_00000011#32 = .ok .codeAssign := by decide
theorem test_decode_bitPack : decodeWord 0b000000000000000000000000_00000100#32 = .ok .bitPack := by decide
theorem test_decode_bitUnpack : decodeWord 0b000000000000000000000000_00000101#32 = .ok .bitUnpack := by decide
theorem test_decode_cbSerialize : decodeWord 0b000000000000000000000000_00000110#32 = .ok .cbSerialize := by decide
theorem test_decode_cbParse : decodeWord 0b000000000000000000000000_00000111#32 = .ok .cbParse := by decide
theorem test_decode_packCodes : decodeWord 0b000000000000000000000000_00001000#32 = .ok .packCodes := by decide
theorem test_decode_decodePayload : decodeWord 0b000000000000000000000000_00001001#32 = .ok .decodePayload := by decide
theorem test_decode_encodeFrame : decodeWord 0b000000000000000000000000_00001010#32 = .ok .encodeFrame := by decide
theorem test_decode_decodeFrame : decodeWord 0b000000000000000000000000_00001011#32 = .ok .decodeFrame := by decide
theorem test_decode_0C : decodeWord 0x0000000C = .error .unassignedOpcode := by decide
theorem test_decode_B00 : decodeWord 0x00000B00 = .error .reservedBitsSet := by decide
theorem test_table_word_high_bits : decodeTableWord 32 0x100000005 = some .bitUnpack := by decide

/-! ## The machine around the commands -/

theorem test_reset_memory_wf : Memory.wf State.reset.buf = true := by decide
theorem test_write_byte_keeps_order : Memory.writeBytes (Memory.writeByte [] 7 1) 5 [2, 3, 4] = [(5, 2), (6, 3), (7, 4)] := by decide
theorem test_fetch_word_runs_first :
    (match step (State.reset.withFetchWord 32 0x00) with | .next s => s.statusWord == 0x00000002 | _ => false) = true := by decide +kernel
/-- V-PRE-5. -/
theorem test_illegal_word :
    (match step (State.reset.withFetchWord 32 0x0B00) with | .next s => failed s .illegalCmd 0x0B00 | _ => false) = true := by decide +kernel
/-- V-IRQ-7. -/
theorem test_status_all_ones : (State.reset.csrWrite .status 0xFFFFFFFF).statusWord = 0 := by decide
/-- V-IRQ-1, then `wr STATUS, 2` (V-IRQ-3). -/
theorem test_irq_clears :
    (after .nop (State.reset.writeCtrl 1)).irq = true ∧ ((after .nop (State.reset.writeCtrl 1)).csrWrite .status 2).irq = false := by decide +kernel
theorem test_wire_big_endian : wireBytes32 true 0x01020304 = [1, 2, 3, 4] ∧ wireU32 false [1, 2, 3, 4] = 0x04030201 := by decide

/-- P5: the NOP may complete between the two writes, or at the `wait`. -/
theorem test_program_P5 :
    (State.reset.withProgram [.cmd .nop, .elapse, .wr .cmd 0x0C, .wait 0]).inputs
        = [.access (.csrWrite .w32 0x018 0), .turn, .access (.csrWrite .w32 0x018 0x0C), .turn, .access (.csrRead .w32 0x014)] ∧
      (State.reset.withProgram [.cmd .nop, .wr .cmd 0x0C, .wait 0]).inputs
        = [.access (.csrWrite .w32 0x018 0), .access (.csrWrite .w32 0x018 0x0C), .turn, .access (.csrRead .w32 0x014)] := by decide

/-! ## One step of each command (spec/95_test_vectors.md) -/

/-- V-PRE-7. -/
theorem test_nop_checks_no_region :
    succeeded (after .nop { State.reset with srcAddr := 70000, srcLen := 1, dstAddr := 70000, dstCap := 1 }) [] = true := by decide +kernel
/-- V-FC-1. -/
theorem test_freqCount_text :
    [0x60, 0x61, 0x62, 0x63, 0x64].map (countOf (after .freqCount (start text 64)).freq) = [0, 3, 2, 1, 0] := by decide +kernel
/-- V-FC-5. -/
theorem test_freqCount_range :
    failed (after .freqCount { State.reset with srcAddr := 0xFFFA, srcLen := 7 }) .range 0 = true := by decide +kernel
/-- V-TB-1. -/
theorem test_treeBuild_text :
    (after .treeBuild { State.reset with freq := setCount (setCount (setCount noCounts 0x61 3) 0x62 2) 0x63 1 }).tree = tree := by decide +kernel
/-- V-TB-7: the leaf c goes before the merged node. -/
theorem test_treeBuild_ties :
    (after .treeBuild { State.reset with freq := setCount (setCount (setCount noCounts 0x61 2) 0x62 2) 0x63 2 }).tree
      = .inner (.leaf 0x63) (.inner (.leaf 0x61) (.leaf 0x62)) := by decide +kernel
/-- V-CA-1. -/
theorem test_codeAssign_text :
    [0x61, 0x62, 0x63, 0x64].map (codeOf (after .codeAssign { State.reset with tree := tree }).codetab)
      = [[false], [true, true], [true, false], []] := by decide +kernel
/-- V-CA-11: an incomplete tree. -/
theorem test_codeAssign_incomplete :
    [0x61, 0x62].map (codeOf
        (after .codeAssign { State.reset with tree := .inner (.inner (.leaf 0x61) .absent) (.leaf 0x62) }).codetab)
      = [[false, false], [true]] := by decide +kernel
/-- V-BP-3. -/
theorem test_bitPack_nine_bits : succeeded (after .bitPack (start [1, 0, 1, 0, 0, 1, 0, 1, 1] 64)) [0xA5, 0x80] = true := by decide +kernel
/-- V-BP-6. -/
theorem test_bitPack_capacity : failed (after .bitPack (start (List.replicate 9 1) 1)) .capacity 0 = true := by decide +kernel
/-- V-BU-7: bits past BITLEN are not read. -/
theorem test_bitUnpack_pad : succeeded (after .bitUnpack { start [0xA7] 64 with bitlen := 5 }) [1, 0, 1, 0, 0] = true := by decide +kernel
/-- V-BU-4. -/
theorem test_bitUnpack_short : failed (after .bitUnpack { start [0xA5] 64 with bitlen := 9 }) .shortInput 0 = true := by decide +kernel
/-- V-CS-1. -/
theorem test_cbSerialize_text : succeeded (after .cbSerialize { start [] 64 with codetab := table }) block = true := by decide +kernel
/-- V-CS-2. -/
theorem test_cbSerialize_capacity : failed (after .cbSerialize { start [] 12 with codetab := table }) .capacity 0 = true := by decide +kernel
/-- V-CB-4: any entry order, any pad bits. -/
theorem test_cbParse_unsorted :
    (after .cbParse (start [0x03, 0, 0, 0, 0x63, 0x02, 0xBF, 0x61, 0x01, 0x7F, 0x62, 0x02, 0xC1] 64)).tree = tree := by decide +kernel
/-- V-CB-8: the slot of "0" holds an `Inner` node. -/
theorem test_cbParse_prefix_conflict :
    failed (after .cbParse (start [0x02, 0, 0, 0, 0x62, 0x02, 0x00, 0x61, 0x01, 0x00] 64)) .malformedCodebook 1 = true := by decide +kernel
/-- V-PC-1. -/
theorem test_packCodes_text : succeeded (after .packCodes { start text 64 with codetab := table }) [0x1F, 0x00] = true := by decide +kernel
/-- V-PC-5: UNKNOWN_SYMBOL goes before CAPACITY. -/
theorem test_packCodes_unknown :
    failed (after .packCodes { start [0x61, 0x61, 0x61, 0x62, 0x62, 0x64] 0 with codetab := table }) .unknownSymbol 5 = true := by decide +kernel
/-- V-DP-1. -/
theorem test_decodePayload_text :
    succeeded (after .decodePayload { start [0x1F, 0x00] 64 with tree := tree, bitlen := 9 }) text = true := by decide +kernel
/-- V-DP-2: ERR_INFO is where the cut code begins. -/
theorem test_decodePayload_truncated :
    failed (after .decodePayload { start [0x1F, 0x00] 64 with tree := tree, bitlen := 8 }) .truncatedStream 7 = true := by decide +kernel
/-- V-EF-1. -/
theorem test_encodeFrame_text : succeeded (after .encodeFrame (start text 4096)) frame = true := by decide +kernel
/-- V-EF-18. -/
theorem test_encodeFrame_overlap :
    failed (after .encodeFrame { start text 4 with dstAddr := 0x105 }) .overlap 0 = true := by decide +kernel
/-- V-DF-5: trailing bytes are ignored. -/
theorem test_decodeFrame_trailing : succeeded (after .decodeFrame (start (frame ++ [0xEE, 0xEE]) 4096)) text = true := by decide +kernel
/-- V-DF-21: a bit that leads to no child, in an incomplete tree. -/
theorem test_decodeFrame_bad_path :
    failed (after .decodeFrame (start [0x02, 0, 0, 0, 0x61, 0x02, 0x00, 0x62, 0x01, 0x80, 0x02, 0, 0, 0, 0x01, 0, 0, 0, 0x40] 4096))
      .badPath 1 = true := by decide +kernel

/-! ## Witnesses: for each statement, a state and operands that meet its hypotheses, at the edges of its clauses -/

/-- The machine after reset with host accesses to come. -/
def withInputs (l : List HostEvent) : State := { State.reset with inputs := l }

/-- The machine with NOP pending and host accesses to come. -/
def busyWith (l : List HostEvent) : State := { State.reset.issue 0 with inputs := l }

/-- Regions may be checked by computation. -/
def regionsOkCheck (s : State) : Bool :=
  decide (s.srcAddr.toNat + s.srcLen.toNat ≤ s.cfg.bufBytes) && decide (s.dstAddr.toNat + s.dstCap.toNat ≤ s.cfg.bufBytes)
    && (decide (s.srcLen.toNat = 0) || decide (s.dstCap.toNat = 0)
      || decide (s.dstAddr.toNat + s.dstCap.toNat ≤ s.srcAddr.toNat)
      || decide (s.srcAddr.toNat + s.srcLen.toNat ≤ s.dstAddr.toNat))

theorem regionsOk_of_check {s : State} (h : regionsOkCheck s = true) : s.RegionsOk := by
  simp only [regionsOkCheck, Bool.and_eq_true, Bool.or_eq_true, decide_eq_true_eq] at h
  refine ⟨h.1.1, h.1.2, ?_⟩
  unfold State.RegionsApart
  tauto

/-- An entry may be checked by computation. -/
def entryCheck (e : WireEntry) : Bool :=
  decide (1 ≤ e.code.length) && decide (e.code.length ≤ 255) && decide (e.body.length = ceil8 e.code.length)
    && decide (unpack e.body e.code.length = e.code)

theorem entryOk_of_check {e : WireEntry} (h : entryCheck e = true) : e.Ok := by
  simp only [entryCheck, Bool.and_eq_true, decide_eq_true_eq] at h
  exact ⟨h.1.1.1, h.1.1.2, h.1.2, h.2⟩

theorem validEntries_nil : ValidEntries [] := ⟨by simp, by simp, by simp⟩

/-- The entry "symbol 0x61 has the code 0". -/
def entryA : WireEntry := ⟨0x61, [false], [0x00]⟩

/-- V-CB-5's first entry: symbol 0x41 with 255 ones. -/
def entryLong : WireEntry := ⟨0x41, List.replicate 255 true, List.replicate 31 0xFF ++ [0xFE]⟩

/-- V-CB-5's second entry, "0", with its pad bits set. -/
def entryShort : WireEntry := ⟨0x42, [false], [0x7F]⟩

theorem validEntries_one : ValidEntries [entryA] :=
  ⟨by simpa using entryOk_of_check (e := entryA) (by decide), by simp, by simp⟩

theorem validEntries_long : ValidEntries [entryLong, entryShort] := by
  refine ⟨fun e he => ?_, by decide, ?_⟩
  · simp only [List.mem_cons, List.not_mem_nil, or_false] at he
    rcases he with rfl | rfl
    · exact entryOk_of_check (by decide +kernel)
    · exact entryOk_of_check (by decide)
  · rw [List.pairwise_pair]
    exact ⟨fun ⟨_, hq⟩ => (by cases hq), fun ⟨_, hq⟩ => (by cases hq)⟩

theorem witness_DecodeOfEncode : Instr.decodeFrame.wf = true := rfl

theorem witness_StepRunsPendingCommand :
    (busyWith []).busy = true ∧ decodeWord (busyWith []).cmd = .ok .nop ∧ (busyWith []).inputs = [] ∧
      (busyWith [.turn]).inputs = .turn :: [] := by decide

theorem witness_IllegalWordCompletes :
    (State.reset.issue 0x0000000C).busy = true ∧ (State.reset.issue 0x0000000C).inputs = [] ∧
      ((withInputs [.turn, .resetPulse]).issue 0x0000000C).inputs = .turn :: [.resetPulse] ∧
      0x0B < (State.reset.issue 0x0000000C).cmd.toNat % 256 ∧ (State.reset.issue 0x00000100).cmd.toNat / 256 ≠ 0 := by decide

theorem witness_IdleMachineHoldsState :
    State.reset.busy = false ∧ State.reset.inputs = [] ∧ (withInputs [.turn, .resetPulse]).busy = false ∧
      (withInputs [.turn, .resetPulse]).inputs = .turn :: [.resetPulse] := by decide

theorem witness_PendingCommandCompletes :
    (busyWith []).busy = true ∧ (busyWith []).inputs = [] ∧
      (busyWith [.turn, .resetPulse]).inputs = .turn :: [.resetPulse] := by decide

theorem witness_CmdWriteIssues :
    (withInputs [.access (.csrWrite .w32 0x018 0xFFFFFFFF)]).busy = false ∧
      (withInputs [.access (.csrWrite .w32 0x018 0xFFFFFFFF)]).inputs = .access (.csrWrite .w32 0x018 0xFFFFFFFF) :: [] := by decide

theorem witness_BusyLockedWriteSetsOvr :
    (busyWith [.access (.csrWrite .w32 0x034 7)]).busy = true ∧
      (0x034#12 : BitVec 12) ∈ [0x018#12, 0x024#12, 0x028#12, 0x02C#12, 0x030#12, 0x034#12] ∧
      (busyWith [.access (.csrWrite .w32 0x034 7)]).inputs = .access (.csrWrite .w32 0x034 7) :: [] := by decide

theorem witness_OperandRegisterWrites :
    State.reset.busy = false ∧
      (withInputs [.access (.csrWrite .w32 0x024 1)]).inputs = .access (.csrWrite .w32 0x024 1) :: [] ∧
      (withInputs [.access (.csrWrite .w32 0x028 1)]).inputs = .access (.csrWrite .w32 0x028 1) :: [] ∧
      (withInputs [.access (.csrWrite .w32 0x02C 1)]).inputs = .access (.csrWrite .w32 0x02C 1) :: [] ∧
      (withInputs [.access (.csrWrite .w32 0x030 1)]).inputs = .access (.csrWrite .w32 0x030 1) :: [] ∧
      (withInputs [.access (.csrWrite .w32 0x034 1)]).inputs = .access (.csrWrite .w32 0x034 1) :: [] := by decide

theorem witness_ControlAndStatusWrites :
    (busyWith [.access (.csrWrite .w32 0x010 1)]).inputs = .access (.csrWrite .w32 0x010 1) :: [] ∧
      (busyWith [.access (.csrWrite .w32 0x014 0xE)]).inputs = .access (.csrWrite .w32 0x014 0xE) :: [] := by decide

theorem witness_OtherCsrWritesIgnored :
    (∀ o v, (withInputs [.access (.csrWrite .w32 o v)]).inputs = .access (.csrWrite .w32 o v) :: []) ∧
      (0x04C#12 : BitVec 12).toNat % 4 = 0 ∧
      0x04C#12 ∉ [0x010#12, 0x014#12, 0x018#12, 0x024#12, 0x028#12, 0x02C#12, 0x030#12, 0x034#12] ∧
      (0xFFC#12 : BitVec 12).toNat % 4 = 0 ∧
      0xFFC#12 ∉ [0x010#12, 0x014#12, 0x018#12, 0x024#12, 0x028#12, 0x02C#12, 0x030#12, 0x034#12] :=
  ⟨fun _ _ => rfl, by decide, by decide, by decide, by decide⟩

/-- The last reserved offset below FREQ, the first and the last counter, the first and the last offset above FREQ. -/
theorem witness_CsrReadsWhileIdle :
    (∀ o, (withInputs [.access (.csrRead .w32 o)]).busy = false ∧
      (withInputs [.access (.csrRead .w32 o)]).inputs = .access (.csrRead .w32 o) :: []) ∧
      (0x3FC#12 : BitVec 12).toNat % 4 = 0 ∧ (0x3FC#12 : BitVec 12).toNat < 0x400 ∧
      (0x400#12 : BitVec 12).toNat = 0x400 + 4 * (0x00 : Symbol).toNat ∧
      (0x7FC#12 : BitVec 12).toNat = 0x400 + 4 * (0xFF : Symbol).toNat ∧
      0x800 ≤ (0x800#12 : BitVec 12).toNat ∧ (0xFFC#12 : BitVec 12).toNat % 4 = 0 ∧
      ∀ c, (codeOf (withInputs [.access (.csrRead .w32 0x048)]).codetab c).length ≤ 255 :=
  ⟨fun _ => ⟨rfl, rfl⟩, by decide, by decide, by decide, by decide, by decide, by decide, by decide +kernel⟩

theorem witness_CsrReadsWhileBusy :
    (∀ o, (busyWith [.access (.csrRead .w32 o)]).busy = true ∧
      (busyWith [.access (.csrRead .w32 o)]).inputs = .access (.csrRead .w32 o) :: []) ∧
      (0x000#12 : BitVec 12).toNat % 4 = 0 ∧ (0x030#12 : BitVec 12).toNat % 4 = 0 ∧
      (0x04C#12 : BitVec 12).toNat % 4 = 0 ∧ (0x3FC#12 : BitVec 12).toNat < 0x400 ∧ 0x800 ≤ (0x800#12 : BitVec 12).toNat :=
  ⟨fun _ => ⟨rfl, rfl⟩, by decide, by decide, by decide, by decide, by decide⟩

theorem witness_UndefinedCsrAccessRefused :
    (Width.w8 ≠ .w32 ∨ (0x010#12 : BitVec 12).toNat % 4 ≠ 0) ∧ (Width.w32 ≠ .w32 ∨ (0x012#12 : BitVec 12).toNat % 4 ≠ 0) ∧
      (withInputs [.access (.csrRead .w8 0x010)]).inputs = .access (.csrRead .w8 0x010) :: [] ∧
      (withInputs [.access (.csrWrite .w32 0x012 1)]).inputs = .access (.csrWrite .w32 0x012 1) :: [] := by decide

theorem witness_UndefinedBufAccessStops :
    (∀ a, (busyWith [.access a]).inputs = .access a :: [] ∧ (busyWith [.access a]).busy = true) ∧
      (1 : Word).toNat % Width.w16.bytes ≠ 0 ∧
      (0x10000 : Word).toNat % Width.w8.bytes = 0 ∧ State.reset.cfg.bufBytes < (0x10000 : Word).toNat + Width.w8.bytes ∧
      (0xFFFC : Word).toNat % Width.w32.bytes = 0 ∧ (0xFFFC : Word).toNat + Width.w32.bytes ≤ State.reset.cfg.bufBytes :=
  ⟨fun _ => ⟨rfl, rfl⟩, by decide, by decide, by decide, by decide, by decide⟩

theorem witness_BufWriteIsLittleEndian :
    State.reset.busy = false ∧ (0xFFFC : Word).toNat % Width.w32.bytes = 0 ∧
      (0xFFFC : Word).toNat + Width.w32.bytes ≤ State.reset.cfg.bufBytes ∧
      (withInputs [.access (.bufWrite .w32 0xFFFC 0x01020304), .access (.bufRead .w32 0xFFFC)]).inputs
        = .access (.bufWrite .w32 0xFFFC 0x01020304) :: .access (.bufRead .w32 0xFFFC) :: [] ∧
      (withInputs [.access (.bufWrite .w8 0xFFFF 0x101)]).inputs = .access (.bufWrite .w8 0xFFFF 0x101) :: [] := by decide

theorem witness_BufReadIsLittleEndian :
    let s := { withInputs [.access (.bufRead .w32 0xFFFC)] with buf := [(0xFFFC, 1), (0xFFFF, 9)] }
    s.busy = false ∧ (0xFFFC : Word).toNat % Width.w32.bytes = 0 ∧ (0xFFFC : Word).toNat + Width.w32.bytes ≤ s.cfg.bufBytes ∧
      s.inputs = .access (.bufRead .w32 0xFFFC) :: [] ∧ s.buf.readByte ((0xFFFC : Word).toNat + 3) = some 9 := by decide

/-- The last 16 bits of BUF, their low byte the last of the destination region. -/
theorem witness_BufReadWhileBusy :
    let s := { busyWith [.access (.bufRead .w16 0xFFFE)] with dstAddr := 0xFFFE, dstCap := 1, buf := [(0xFFFF, 9)] }
    s.busy = true ∧ (0xFFFE : Word).toNat % Width.w16.bytes = 0 ∧ (0xFFFE : Word).toNat + Width.w16.bytes ≤ s.cfg.bufBytes ∧
      s.inputs = .access (.bufRead .w16 0xFFFE) :: [] ∧ s.OutsideDst s.dstCap.toNat ((0xFFFE : Word).toNat + 1) ∧
      s.buf.readByte ((0xFFFE : Word).toNat + 1) = some 9 := by
  unfold State.OutsideDst
  decide

theorem witness_InterruptFollowsCompletion : (2 : Word).getLsbD 1 = true ∧ (0xFFFFFFFE : Word).getLsbD 0 = false := by decide

theorem witness_ResetPulseAbandonsCommand : (busyWith [.resetPulse]).inputs = .resetPulse :: [] := by decide

/-- One byte too many in the source region, then in the destination region, then one byte in common. -/
theorem witness_PreChecksInOrder :
    usesSrc .bitPack = true ∧ usesDst .bitPack = true ∧
      ¬ ({ State.reset with srcLen := 0x10001 } : State).SrcInside ∧
      (({ State.reset with srcLen := 0x10000, dstAddr := 0xFFFF, dstCap := 2 } : State).SrcInside ∧
        ¬ ({ State.reset with srcLen := 0x10000, dstAddr := 0xFFFF, dstCap := 2 } : State).DstInside) ∧
      (({ State.reset with srcLen := 0x10000, dstAddr := 0xFFFF, dstCap := 1 } : State).SrcInside ∧
        ({ State.reset with srcLen := 0x10000, dstAddr := 0xFFFF, dstCap := 1 } : State).DstInside ∧
        ¬ ({ State.reset with srcLen := 0x10000, dstAddr := 0xFFFF, dstCap := 1 } : State).RegionsApart) := by
  unfold State.SrcInside State.DstInside State.RegionsApart
  decide

theorem witness_FreqCountCountsSymbols :
    ({ State.reset with srcLen := 0x10000 } : State).SrcInside ∧ ({ State.reset with srcAddr := 0x10000 } : State).SrcInside := by
  unfold State.SrcInside
  decide

theorem witness_TreeBuildDegenerateAlphabets :
    (∀ c, countOf State.reset.freq c = 0) ∧
      ∀ c, countOf ({ State.reset with freq := setCount noCounts 0x7A 1 } : State).freq c ≠ 0 ↔ c = 0x7A := by
  have hset : ∀ c, countOf (setCount noCounts 0x7A 1) c = if 0x7A = c then 1 else 0 := fun c => by
    unfold countOf setCount
    rw [Vector.getElem_set]
    simp [noCounts, ← BitVec.toNat_inj]
  refine ⟨fun c => by simp [State.reset, State.resetWith, countOf], fun c => ?_⟩
  rw [hset]
  by_cases h : c = 0x7A
  · subst h; decide
  · rw [if_neg (Ne.symm h)]
    exact ⟨fun h0 => absurd rfl h0, fun hc => absurd hc h⟩

theorem witness_TreeBuildIsStrict :
    2 ≤ (alphabet ({ State.reset with freq := setCount (setCount noCounts 0x00 1) 0xFF 1 } : State).freq).length := by decide +kernel

theorem witness_TreeBuildIndependentOfQueue :
    2 ≤ (alphabet (setCount (setCount noCounts 0x00 1) 0xFF 1)).length ∧
      2 ≤ (alphabet ({ State.reset with freq := setCount (setCount noCounts 0x00 1) 0xFF 1 } : State).freq).length :=
  ⟨witness_TreeBuildIsStrict, witness_TreeBuildIsStrict⟩

theorem witness_CodeAssignRecordsPaths :
    (({ State.reset with tree := tree } : State).tree.paths.map Prod.fst).Nodup ∧ tree.follow [true, false] = .leaf 0x63 ∧
      ({ State.reset with tree := tree } : State).tree.Legal :=
  ⟨by decide, by decide, rfl, by decide, by decide, by decide⟩

theorem witness_BitPackPacksMsbFirst :
    ∀ s ∈ [start (List.replicate 8 1) 1, start (List.replicate 9 1) 1], s.RegionsOk ∧
      ((s.srcLen.toNat + 7) / 8 ≤ s.dstCap.toNat ∨ s.dstCap.toNat < (s.srcLen.toNat + 7) / 8) := by
  simp only [List.mem_cons, List.not_mem_nil, or_false, forall_eq_or_imp, forall_eq]
  exact ⟨⟨regionsOk_of_check (by decide), .inl (by decide)⟩, regionsOk_of_check (by decide), .inr (by decide)⟩

theorem witness_BitUnpackUnpacksMsbFirst :
    (start [0xA5] 8).RegionsOk ∧ (8 ≤ 8 * (start [0xA5] 8).srcLen.toNat ∧ 8 ≤ (start [0xA5] 8).dstCap.toNat) ∧
      8 * (start [0xA5] 8).srcLen.toNat < ({ start [0xA5] 8 with bitlen := 9 } : State).bitlen.toNat ∧
      (start [0xA5] 7).dstCap.toNat < ({ start [0xA5] 7 with bitlen := 8 } : State).bitlen.toNat :=
  ⟨regionsOk_of_check (by decide), by decide, by decide, by decide⟩

/-- BIT_PACK of one bit at 0x100 to 0x400, then BIT_UNPACK from 0x400 to 0x500. -/
theorem witness_BitPackRoundTrip :
    let s := start [1] 1
    let t := after .bitPack s
    let u := { t with srcAddr := 0x400, srcLen := 1, dstAddr := 0x500, dstCap := 1 }
    ([] : List Bool).length ≤ 2 ^ 28 ∧ s.RegionsOk ∧ exec .bitPack s = .next t ∧ t.err = false ∧ u.RegionsOk ∧
      u.bitlen = t.bitlen ∧ u.srcAddr = s.dstAddr ∧ t.outLen.toNat ≤ u.srcLen.toNat ∧ s.srcLen.toNat ≤ u.dstCap.toNat ∧
      ∀ k < t.outLen.toNat, u.buf.readByte (s.dstAddr.toNat + k) = t.buf.readByte (s.dstAddr.toNat + k) :=
  ⟨by decide, regionsOk_of_check (by decide), exec_eq_after _ _, by decide +kernel, regionsOk_of_check (by decide +kernel), rfl, rfl,
    by decide +kernel, by decide, fun _ _ => rfl⟩

theorem witness_PaddingIsInvisible_bytes :
    ∀ k < 5, ([0xA5#8].getD (k / 8) 0).getLsbD (7 - k % 8) = ([0xA7#8].getD (k / 8) 0).getLsbD (7 - k % 8) := by decide

theorem witness_PaddingIsInvisible :
    let s₁ := { start [0xA5] 64 with bitlen := 5 }
    let s₂ := { start [0xA7] 64 with bitlen := 5 }
    s₂ = { s₁ with buf := s₂.buf } ∧ ∀ k < s₁.bitlen.toNat,
      (s₁.byteAt (s₁.srcAddr.toNat + k / 8)).getLsbD (7 - k % 8) = (s₂.byteAt (s₂.srcAddr.toNat + k / 8)).getLsbD (7 - k % 8) :=
  ⟨rfl, by decide +kernel⟩

theorem witness_CbSerializeWritesBlock :
    ({ State.reset with dstAddr := 0xFFFC, dstCap := 4 } : State).DstInside ∧
      ({ State.reset with dstAddr := 0x10000, dstCap := 0 } : State).DstInside ∧ (blockBytes false 0 []).length = 4 := by
  unfold State.DstInside
  decide

theorem witness_WireIntegerByteOrder : 2 ^ 32 - 1 < 2 ^ 32 ∧ 0 < 4 ∧ 3 < 4 := by decide

theorem witness_CbParseAcceptsValidBlocks :
    let es := [entryLong, entryShort]
    let s := start (blockBytes false es.length es) 0
    s.SrcInside ∧ es.length ≤ 256 ∧ ValidEntries es ∧ s.source = blockBytes s.cfg.wireBE es.length es ++ [] :=
  ⟨(regionsOk_of_check (by decide +kernel)).src, by decide, validEntries_long, by decide +kernel⟩

theorem witness_CbParseAcceptsOnlyValidBlocks :
    let s := start [0, 0, 0, 0] 0
    s.SrcInside ∧ exec .cbParse s = .next (after .cbParse s) ∧ (after .cbParse s).err = false :=
  ⟨(regionsOk_of_check (by decide)).src, exec_eq_after _ _, by decide +kernel⟩

theorem witness_CbParseCountErrors :
    (start [0, 0, 0] 0).SrcInside ∧ (start [0, 0, 0] 0).srcLen.toNat < 4 ∧ (start [1, 1, 0, 0] 0).SrcInside ∧
      4 ≤ (start [1, 1, 0, 0] 0).srcLen.toNat ∧ 256 < wireU32 (start [1, 1, 0, 0] 0).cfg.wireBE (start [1, 1, 0, 0] 0).source :=
  ⟨(regionsOk_of_check (by decide)).src, by decide, (regionsOk_of_check (by decide)).src, by decide, by decide +kernel⟩

/-- What follows the entry for 0x61 in a block of two: nothing, one byte, a zero length, too few code bytes, the same
symbol again, a code that has the first as its prefix. -/
theorem witness_CbParseEntryErrors :
    ∀ rest ∈ [[], [0x62], [0x62, 0], [0x62, 9, 0xFF], [0x61, 1, 0x80], [0x62, 2, 0x00]],
      let s := start (blockBytes false 2 [entryA] ++ rest) 0
      s.SrcInside ∧ ValidEntries [entryA] ∧ [entryA].length + (0 + 1) ≤ 256 ∧
        s.source = blockBytes s.cfg.wireBE ([entryA].length + (0 + 1)) [entryA] ++ rest := by
  simp only [List.mem_cons, List.not_mem_nil, or_false, forall_eq_or_imp, forall_eq]
  refine ⟨?_, ?_, ?_, ?_, ?_, ?_⟩ <;>
    exact ⟨(regionsOk_of_check (by decide)).src, validEntries_one, by decide, by decide +kernel⟩

theorem witness_CbParseEntryErrors_clauses :
    (9 : Byte) ≠ 0 ∧ [(0xFF : Byte)].length < ((9 : Byte).toNat + 7) / 8 ∧
      ((1 : Byte).toNat + 7) / 8 ≤ [(0x80 : Byte)].length ∧ 0x61 ∈ [entryA].map WireEntry.symbol ∧
      0x62 ∉ [entryA].map WireEntry.symbol ∧ ∃ e ∈ [entryA], e.code <+: unpack [0x00] (2 : Byte).toNat :=
  ⟨by decide, by decide, by decide, by decide, by decide, entryA, by simp, by decide⟩

theorem noCodes_legal : CodesLegal noCodes := by
  have h : ∀ s, codeOf noCodes s = [] := fun s => by simp [codeOf, noCodes]
  exact ⟨fun a b _ ha => absurd (h a) ha, fun s => by simp [h s]⟩

theorem witness_WireRoundTrip :
    let s := start [] 4
    let t := after .cbSerialize s
    let u := { State.reset with buf := t.buf, srcAddr := 0x400, srcLen := 4 }
    let p := start (blockBytes false 1 [entryA]) 7
    let q := after .cbParse p
    (s.DstInside ∧ CodesLegal s.codetab ∧ exec .cbSerialize s = .next t ∧ (t.err = false ∧ t.outLen.toNat ≤ u.srcLen.toNat) ∧
      u.cfg = s.cfg ∧ u.SrcInside ∧ u.srcAddr = s.dstAddr) ∧
    p.SrcInside ∧ ValidEntries [entryA] ∧ p.source = blockBytes p.cfg.wireBE [entryA].length [entryA] ++ [] ∧
      exec .cbParse p = .next q ∧ q.DstInside ∧ (blockBytes p.cfg.wireBE [entryA].length [entryA]).length ≤ q.dstCap.toNat :=
  ⟨⟨(regionsOk_of_check (by decide)).dst, noCodes_legal, exec_eq_after _ _, by decide +kernel, rfl,
    by unfold State.SrcInside; decide, rfl⟩,
    (regionsOk_of_check (by decide)).src, validEntries_one, by decide +kernel, exec_eq_after _ _,
    by unfold State.DstInside; decide +kernel, by decide +kernel⟩

/-- An exact fit, one byte too few, and the first symbol with no code. -/
theorem witness_PackCodesPacksText :
    let s := fun (src : List Byte) (cap : Nat) => { start src cap with codetab := table }
    (s [0x61] 1).RegionsOk ∧ (∀ c ∈ (s [0x61] 1).source, codeOf (s [0x61] 1).codetab c ≠ []) ∧ (s [0x61] 0).RegionsOk ∧
      (((s [0x61] 1).source.map (codeOf (s [0x61] 1).codetab)).flatten.length + 7) / 8 = 1 ∧
      (s [0x61, 0x64] 1).RegionsOk ∧ (s [0x61, 0x64] 1).source[1]? = some 0x64 ∧ codeOf (s [0x61, 0x64] 1).codetab 0x64 = [] ∧
      ∀ b ∈ (s [0x61, 0x64] 1).source.take 1, codeOf (s [0x61, 0x64] 1).codetab b ≠ [] :=
  ⟨regionsOk_of_check (by decide), by decide +kernel, regionsOk_of_check (by decide), by decide +kernel,
    regionsOk_of_check (by decide), by decide +kernel, by decide +kernel, by decide +kernel⟩

theorem witness_DecodePayloadDecodes :
    let s := { start [0x80] 1 with tree := tree, bitlen := 2 }
    s.RegionsOk ∧ s.tree.isInner = true ∧ s.bitlen.toNat ≤ 8 * s.srcLen.toNat ∧
      WalkGives s.tree s.dstCap.toNat (unpack s.source s.bitlen.toNat) [0x63] :=
  ⟨regionsOk_of_check (by decide), rfl, by decide, [(0x63, [true, false])], by decide, by decide, by decide +kernel, rfl⟩

/-- SHORT_INPUT, then the three errors of the walk. -/
theorem witness_DecodePayloadErrors :
    let s := fun (t : Tree) (bits : Word) (cap : Nat) => { start [0x80] cap with tree := t, bitlen := bits }
    (∀ t n cap, (s t n cap).srcLen = 1) ∧ (s tree 9 1).RegionsOk ∧ 8 * (s tree 9 1).srcLen.toNat < (s tree 9 1).bitlen.toNat ∧
      WalkFails tree 1 (unpack (s tree 1 1).source 1) .truncatedStream 0 ∧
      WalkFails emptyRoot 1 (unpack (s emptyRoot 1 1).source 1) .badPath 0 ∧
      WalkFails tree 0 (unpack (s tree 2 0).source 2) .capacity 0 :=
  ⟨fun _ _ _ => rfl, regionsOk_of_check (by decide), by decide,
    ⟨[], by simp, by decide, .inl ⟨rfl, rfl, [true], .leaf 0x63, .leaf 0x62, by decide, rfl, by decide +kernel⟩⟩,
    ⟨[], by simp, by decide, .inr (.inl ⟨rfl, [], true, [], .absent, .absent, rfl, rfl, by decide +kernel, rfl⟩)⟩,
    ⟨[], by simp, by decide, .inr (.inr ⟨rfl, rfl, rfl, [true, false], 0x63, [], rfl, by decide +kernel⟩)⟩⟩

theorem witness_DecodeWalkIsTotal : emptyRoot.isInner = true := rfl

theorem witness_EncodeFrameWritesFrame : (start [] 12).RegionsOk ∧ (start [] 11).RegionsOk ∧ (start text 23).RegionsOk :=
  ⟨regionsOk_of_check (by decide), regionsOk_of_check (by decide), regionsOk_of_check (by decide)⟩

theorem witness_EncodedLengthIsWeightedSum :
    (start text 4096).cfg.legal = true ∧ (start text 4096).RegionsOk ∧
      exec .encodeFrame (start text 4096) = .next (after .encodeFrame (start text 4096)) ∧
      (after .encodeFrame (start text 4096)).err = false := by
  have h := test_encodeFrame_text
  simp only [succeeded, Bool.and_eq_true, Bool.not_eq_true', beq_iff_eq] at h
  exact ⟨by decide, regionsOk_of_check (by decide), exec_eq_after _ _, h.1.1.1.2⟩

theorem follow_leaf_of_leavesAre {T : Tree} {es : List WireEntry} (h : LeavesAre T es) {e : WireEntry} (he : e ∈ es) :
    T.follow e.code = .leaf e.symbol := (h.leaves e.symbol e.code).2 ⟨e, he, rfl, rfl⟩

/-- The code "0" for 0x61, one bit 0 and an extra payload byte: the exact fit of one symbol. -/
theorem witness_DecodeFrameDecodes :
    let s := start (blockBytes false 1 [entryA] ++ (wireBytes32 false 1 ++ (wireBytes32 false 2 ++ ([0x00, 0xAA] ++ [])))) 1
    s.RegionsOk ∧ [entryA].length ≤ 256 ∧ ValidEntries [entryA] ∧ (1 + 7) / 8 ≤ 2 ∧
      s.source = blockBytes s.cfg.wireBE [entryA].length [entryA] ++ (wireBytes32 s.cfg.wireBE 1
        ++ (wireBytes32 s.cfg.wireBE 2 ++ ([0x00, 0xAA] ++ []))) ∧
      ∀ T, LeavesAre T [entryA] → WalkGives T s.dstCap.toNat (unpack [0x00, 0xAA] 1) [0x61] :=
  ⟨regionsOk_of_check (by decide), by decide, validEntries_one, by decide, by decide +kernel, fun _ hT =>
    ⟨[(0x61, [false])], fun x hx => (by rw [List.mem_singleton.1 hx]; exact follow_leaf_of_leavesAre hT (e := entryA) (by simp)), by decide, by decide, rfl⟩⟩

/-- After a block: 3 bytes, 7 bytes, a payload length of 0 for 1 bit, a payload byte short, and a walk that fails. -/
theorem witness_DecodeFrameTailErrors :
    let s := fun (rest : List Byte) => start (blockBytes false 1 [entryA] ++ rest) 1
    (∀ rest ∈ [[0, 0, 0], List.replicate 7 0, wireBytes32 false 1 ++ (wireBytes32 false 0 ++ []),
        wireBytes32 false 1 ++ (wireBytes32 false 1 ++ []), wireBytes32 false 1 ++ (wireBytes32 false 1 ++ [0x80])],
      (s rest).RegionsOk ∧ (s rest).source = blockBytes (s rest).cfg.wireBE [entryA].length [entryA] ++ rest) ∧
    ValidEntries [entryA] ∧ ∀ T, LeavesAre T [entryA] → WalkFails T 1 (unpack [0x80] 1) .badPath 0 := by
  refine ⟨?_, validEntries_one, fun T hT => ?_⟩
  · simp only [List.mem_cons, List.not_mem_nil, or_false, forall_eq_or_imp, forall_eq]
    refine ⟨?_, ?_, ?_, ?_, ?_⟩ <;> exact ⟨regionsOk_of_check (by decide +kernel), by decide +kernel⟩
  · obtain ⟨l, r, rfl⟩ : ∃ l r, T = .inner l r := by
      have h := hT.rootInner
      cases T with
      | inner l r => exact ⟨l, r, rfl⟩
      | absent => cases h
      | leaf s => cases h
    have hr : r = .absent := by
      have hf : (Tree.inner l r).follow [true] = r := rfl
      cases r with
      | absent => rfl
      | leaf x =>
        obtain ⟨e, he, -, hc⟩ := (hT.leaves x [true]).1 hf
        simp only [List.mem_singleton] at he
        subst he
        cases hc
      | inner l' r' =>
        obtain ⟨e, he, q, hq⟩ := hT.inner [true] l' r' (by simp) hf
        simp only [List.mem_singleton] at he
        subst he
        cases hq
    exact ⟨[], by simp, by simp, .inr (.inl ⟨rfl, [], true, [], l, r, rfl, hr, by decide, rfl⟩)⟩

theorem witness_DecodeFrameBlockErrors :
    let s := start [] 0
    s.RegionsOk ∧ exec .cbParse s = .next (after .cbParse s) ∧ (after .cbParse s).err = true ∧
      exec .decodeFrame s = .next (after .decodeFrame s) :=
  ⟨regionsOk_of_check (by decide), exec_eq_after _ _, by decide +kernel, exec_eq_after _ _⟩

/-- "aaabbc" at 0x100, its frame at 0x400 (V-EF-1), decoded to 0x500 into exactly 6 bytes. -/
theorem witness_FrameRoundTrip : ∃ s t u : State,
    s.cfg.legal = true ∧ s.RegionsOk ∧ exec .encodeFrame s = .next t ∧ t.err = false ∧ u.cfg = s.cfg ∧ u.RegionsOk ∧
      u.srcAddr = s.dstAddr ∧ t.outLen.toNat ≤ u.srcLen.toNat ∧ s.srcLen.toNat ≤ u.dstCap.toNat ∧
      ∀ k < t.outLen.toNat, u.buf.readByte (s.dstAddr.toNat + k) = t.buf.readByte (s.dstAddr.toNat + k) := by
  have h := test_encodeFrame_text
  obtain ⟨t, ht⟩ : ∃ t, t = after .encodeFrame (start text 4096) := ⟨_, rfl⟩
  have hx := exec_eq_after .encodeFrame (start text 4096)
  rw [← ht] at h hx
  simp only [succeeded, Bool.and_eq_true, Bool.not_eq_true', beq_iff_eq] at h
  exact ⟨start text 4096, t, { State.reset with buf := t.buf, srcAddr := 0x400, srcLen := 23, dstAddr := 0x500, dstCap := 6 },
    by decide, regionsOk_of_check (by decide), hx, h.1.1.1.2, rfl, regionsOk_of_check rfl, rfl, h.1.2.le, Nat.le_refl 6,
    fun _ _ => rfl⟩

theorem witness_DegenerateTextsEncode :
    ((start [] 12).RegionsOk ∧ (start [] 12).srcLen = 0 ∧ 12 ≤ (start [] 12).dstCap.toNat) ∧
      (start [0x7A] 16).RegionsOk ∧ (start [0x7A] 16).srcLen ≠ 0 ∧ (∀ b ∈ (start [0x7A] 16).source, b = 0x7A) ∧
      15 + ((start [0x7A] 16).srcLen.toNat + 7) / 8 ≤ (start [0x7A] 16).dstCap.toNat :=
  ⟨⟨regionsOk_of_check (by decide), by decide, by decide⟩, regionsOk_of_check (by decide), by decide, by decide +kernel, by decide⟩

theorem witness_CommandsWriteOnlyTheirState : exec .nop State.reset = .next (after .nop State.reset) ∧ .nop ∉ [Instr.freqCount, .encodeFrame] :=
  ⟨exec_eq_after _ _, by decide⟩

theorem witness_ErrorsReportNoOutput :
    exec .bitPack (start [1] 0) = .next (after .bitPack (start [1] 0)) ∧ (after .bitPack (start [1] 0)).err = true ∧
      exec .bitPack (start [1] 1) = .next (after .bitPack (start [1] 1)) ∧ (after .bitPack (start [1] 1)).err = false :=
  ⟨exec_eq_after _ _, by decide +kernel, exec_eq_after _ _, by decide +kernel⟩

theorem witness_CommandsWriteOnlyDestination :
    exec .bitPack (start [1] 1) = .next (after .bitPack (start [1] 1)) ∧ (after .bitPack (start [1] 1)).err = false ∧
      (start [1] 1).OutsideDst 1 0x3FF ∧ (start [1] 1).OutsideDst 1 0x401 :=
  ⟨exec_eq_after _ _, by decide +kernel, by unfold State.OutsideDst; decide, by unfold State.OutsideDst; decide⟩

theorem witness_ResultDependsOnSourceOnly :
    let s₁ := start [0xA5] 64
    let s₂ := { s₁ with buf := s₁.buf.writeByte 0x101 7 }
    s₂ = { s₁ with buf := s₂.buf } ∧
      ∀ k < s₁.srcLen.toNat, s₁.byteAt (s₁.srcAddr.toNat + k) = s₂.byteAt (s₁.srcAddr.toNat + k) :=
  ⟨rfl, by decide +kernel⟩

theorem witness_ResetSatisfiesInvariant : Config.legal ⟨1, true⟩ = true ∧ Config.legal ⟨2 ^ 28, false⟩ = true := by decide

/-- A state that is not reset: NOP pending, a tree of one leaf, a byte of BUF written. -/
theorem witness_StepKeepsInvariant :
    let s := { busyWith [] with tree := .inner (.leaf 0x61) .absent, buf := [(0xFFFF, 1)], outLen := 0x10000 }
    s.Inv ∧ step s = .next (after .nop s) := by
  refine ⟨⟨by decide, by decide, by decide, ⟨rfl, by decide, by decide, by decide⟩, noCodes_legal, ?_, by decide, by decide,
    ⟨fun _ => rfl, fun _ => rfl, fun h => (by cases h), fun _ => rfl⟩⟩, rfl⟩
  show totalCount noCounts ≤ 65536
  simp [totalCount]

end Sys2Proof.Tests
end

section
/-! Every step keeps the invariant (Safety.lean, `State.Inv`), and the byte order of wire integers (00_scope.md R15). -/

namespace Sys2Proof.Machine

/-! ## The tables the commands make -/

theorem emptyRoot_legal : emptyRoot.Legal := holds_nil.treeLegal ⟨by simp, by simp, by simp⟩ (by simp)

theorem noCodes_codesLegal : CodesLegal noCodes := holds_nil.codesLegal ⟨by simp, by simp, by simp⟩

theorem totalCount_noCounts : totalCount noCounts = 0 := by simp [totalCount]

/-- The counts of a text sum to its length (41_frequency_tree.md R151). -/
theorem totalCount_countSymbols {text : List Byte} (h : text.length < 2 ^ 32) :
    totalCount (countSymbols text) = text.length := by
  simp only [totalCount, countOf_countSymbols text h, sum_counts]

/-- A strict tree of n leaves has 2n - 1 nodes (41_frequency_tree.md R159); an alphabet has at most 256 symbols. -/
theorem buildTree_nodes_le (f : FreqTable) : (buildTree f).nodes ≤ 511 := by
  match h : alphabet f with
  | [] => rw [buildTree_of_empty h]; decide
  | [s] => rw [buildTree_of_single h]; simp [Tree.nodes]
  | a :: b :: ss =>
    have hnodes := Tree.strict_nodes (buildTree_of_two_le (f := f) (by simp [h])).1
    have hleaves := (buildTree_symbols f).length_eq
    have h256 := alphabet_length_le f
    rw [List.length_map] at hleaves
    omega

theorem buildTree_legal (f : FreqTable) : (buildTree f).Legal :=
  ⟨buildTree_isInner f, buildTree_nodup f, buildTree_depth f, (buildTree_nodes_le f).trans (by omega)⟩

theorem Tree.Legal.assignCodes_legal {t : Tree} (h : t.Legal) : CodesLegal (assignCodes t) :=
  Machine.assignCodes_legal h.symbolsOnce h.depth

/-- A block that parses gives a legal tree and a legal codebook (44_codebook.md R199). -/
theorem parseBlock_legal {be : Bool} {src : List Byte} {b : ParsedBlock} (h : parseBlock be src = .ok b) :
    b.tree.Legal ∧ CodesLegal b.codetab := by
  obtain ⟨es, rest, hlen, hvalid, -, -, hholds⟩ := parseBlock_ok h
  exact ⟨hholds.treeLegal hvalid hlen, hholds.codesLegal hvalid⟩

/-! ## What a command's pseudocode leaves in the tables -/

/-- The state an ending carries: the registers and tables its pseudocode wrote. -/
def Ending.state : Ending → State
  | .success s _ _ => s
  | .error s _ _ => s

@[simp] theorem Ending.state_success (s : State) (out : List Byte) (n : Nat) : (Ending.success s out n).state = s := rfl

@[simp] theorem Ending.state_error (s : State) (e : ErrCode) (info : Nat) : (Ending.error s e info).state = s := rfl

theorem ending_writes (i : Instr) (s : State) : Writes i s (ending i s).state := by
  cases h : ending i s with
  | success u out n => exact (ending_success h).1
  | error u e info => exact (ending_error h).1

/-- ENCODE_FRAME rebuilds the three tables however it ends (45_payload.md R215). -/
theorem encodeFrame_state (s : State) :
    ∃ bl, (ending .encodeFrame s).state = { s.rebuildFromSource with bitlen := bl } := by
  simp only [ending, encodeFrameEnding]
  split
  · exact ⟨s.bitlen, rfl⟩
  · exact ⟨_, rfl⟩

/-- The tree and code table `u` holds are a parsed block's, or those a bad block leaves (44_codebook.md R193, R198). -/
def State.CodebookParsed (s u : State) : Prop :=
  (u.tree = emptyRoot ∧ u.codetab = noCodes) ∨
    ∃ b, parseBlock s.cfg.wireBE s.source = .ok b ∧ u.tree = b.tree ∧ u.codetab = b.codetab

theorem State.CodebookParsed.legal {s u : State} (h : s.CodebookParsed u) : u.tree.Legal ∧ CodesLegal u.codetab := by
  rcases h with ⟨ht, hc⟩ | ⟨b, hb, ht, hc⟩ <;> rw [ht, hc]
  · exact ⟨emptyRoot_legal, noCodes_codesLegal⟩
  · exact parseBlock_legal hb

theorem cbParse_codebook (s : State) : s.CodebookParsed (ending .cbParse s).state := by
  simp only [ending, cbParseEnding]
  split
  · exact .inl ⟨rfl, rfl⟩
  · exact .inr ⟨_, ‹_›, rfl, rfl⟩

theorem decodeFrame_codebook (s : State) : s.CodebookParsed (ending .decodeFrame s).state := by
  simp only [ending, decodeFrameEnding]
  split
  · exact .inl ⟨rfl, rfl⟩
  · refine .inr ⟨_, ‹_›, ?_⟩
    split
    · exact ⟨rfl, rfl⟩
    · split <;> exact ⟨rfl, rfl⟩

theorem ending_tree_legal (i : Instr) {s : State} (h : s.tree.Legal) : (ending i s).state.tree.Legal := by
  by_cases hi : i ∈ [Instr.treeBuild, .cbParse, .encodeFrame, .decodeFrame]
  · simp only [List.mem_cons, List.not_mem_nil, or_false] at hi
    obtain rfl | rfl | rfl | rfl := hi
    · exact buildTree_legal s.freq
    · exact (cbParse_codebook s).legal.1
    · obtain ⟨bl, hu⟩ := encodeFrame_state s
      rw [hu]; exact buildTree_legal _
    · exact (decodeFrame_codebook s).legal.1
  · rw [(ending_writes i s).tree hi]; exact h

theorem ending_codes_legal (i : Instr) {s : State} (ht : s.tree.Legal) (hc : CodesLegal s.codetab) :
    CodesLegal (ending i s).state.codetab := by
  by_cases hi : i ∈ [Instr.codeAssign, .cbParse, .encodeFrame, .decodeFrame]
  · simp only [List.mem_cons, List.not_mem_nil, or_false] at hi
    obtain rfl | rfl | rfl | rfl := hi
    · exact ht.assignCodes_legal
    · exact (cbParse_codebook s).legal.2
    · obtain ⟨bl, hu⟩ := encodeFrame_state s
      rw [hu]; exact (buildTree_legal _).assignCodes_legal
    · exact (decodeFrame_codebook s).legal.2
  · rw [(ending_writes i s).codetab hi]; exact hc

/-- FREQ_COUNT and ENCODE_FRAME count the source region, which the pre-checks place inside BUF. -/
theorem ending_counts_le {i : Instr} {s : State} (hp : preCheck i s = none) (h : totalCount s.freq ≤ s.cfg.bufBytes) :
    totalCount (ending i s).state.freq ≤ s.cfg.bufBytes := by
  by_cases hi : i ∈ [Instr.freqCount, .encodeFrame]
  · obtain ⟨huses, hfreq⟩ : usesSrc i = true ∧ (ending i s).state.freq = countSymbols s.source := by
      simp only [List.mem_cons, List.not_mem_nil, or_false] at hi
      obtain rfl | rfl := hi
      · exact ⟨rfl, rfl⟩
      · obtain ⟨bl, hu⟩ := encodeFrame_state s
        exact ⟨rfl, by rw [hu]; rfl⟩
    have hsrc : s.SrcInside := ((preCheck_eq_none_iff i s).1 hp).1 huses
    rw [hfreq, totalCount_countSymbols (source_lt s), State.source_length]
    exact (Nat.le_add_left _ _).trans hsrc
  · rw [(ending_writes i s).freq hi]; exact h

/-! ## The part of the invariant that speaks of stored data -/

/-- `State.Inv` but for the result registers and flags, which every completion writes anew. -/
structure State.DataLegal (s : State) : Prop where
  config : s.cfg.legal = true
  bufWf : Memory.wf s.buf = true
  bufBelow : Memory.below s.buf s.cfg.bufBytes = true
  tree : s.tree.Legal
  codes : CodesLegal s.codetab
  counts : totalCount s.freq ≤ s.cfg.bufBytes

theorem State.Inv.data {s : State} (h : s.Inv) : s.DataLegal :=
  ⟨h.config, h.bufWf, h.bufBelow, h.tree, h.codes, h.counts⟩

theorem State.DataLegal.bufBytes_lt {s : State} (h : s.DataLegal) : s.cfg.bufBytes < 2 ^ 32 := by
  have hc := h.config
  simp only [Config.legal, Bool.and_eq_true, decide_eq_true_eq] at hc
  omega

/-- A command's pseudocode keeps the data legal. -/
theorem ending_dataLegal {i : Instr} {s : State} (h : s.DataLegal) (hp : preCheck i s = none) :
    (ending i s).state.DataLegal := by
  have hw := (ending_writes i s).others
  have hcfg : (ending i s).state.cfg = s.cfg := by rw [hw]
  have hbuf : (ending i s).state.buf = s.buf := by rw [hw]
  exact ⟨hcfg ▸ h.config, hbuf ▸ h.bufWf, hcfg ▸ hbuf ▸ h.bufBelow, ending_tree_legal i h.tree,
    ending_codes_legal i h.tree h.codes, hcfg ▸ ending_counts_le hp h.counts⟩

theorem State.DataLegal.storeOut {s : State} (h : s.DataLegal) {out : List Byte}
    (hout : out = [] ∨ s.dstAddr.toNat + out.length ≤ s.cfg.bufBytes) : (s.storeOut out).DataLegal := by
  rcases hout with rfl | hout
  · exact h
  · exact { h with bufWf := Memory.wf_writeBytes h.bufWf _ _, bufBelow := Memory.below_writeBytes h.bufBelow hout }

theorem State.DataLegal.forgetDst {s : State} (h : s.DataLegal) : s.forgetDst.DataLegal :=
  { h with bufWf := Memory.wf_forget h.bufWf _ _, bufBelow := Memory.below_forget h.bufBelow _ _ }

/-- Closing a command with legal data, lengths inside BUF and no ERR_INFO without an error gives the invariant
(40_command_common.md R134, R137). -/
theorem State.DataLegal.close {s : State} (h : s.DataLegal) {e : ErrCode} {info outLen inUsed : Word}
    (hout : outLen.toNat ≤ s.cfg.bufBytes) (hin : inUsed.toNat ≤ s.cfg.bufBytes) (hinfo : e = .ok → info = 0) :
    (s.close e info outLen inUsed).Inv :=
  { h with outLen := hout, inUsed := hin, flags := ⟨by simp, by simp, by simp, hinfo⟩ }

theorem State.DataLegal.close_error {s : State} (h : s.DataLegal) {e : ErrCode} {info : Word} (he : e ≠ .ok) :
    (s.close e info 0 0).Inv :=
  h.close (Nat.zero_le _) (Nat.zero_le _) fun h0 => absurd h0 he

/-! ## The sequencer's step -/

/-- Where the output goes lies inside BUF: the whole destination region does if the command uses it, and otherwise there is
no output. -/
theorem output_inside {i : Instr} {s u : State} {out : List Byte} {n : Nat} (hp : preCheck i s = none)
    (h : ending i s = .success u out n) : out = [] ∨ s.dstAddr.toNat + out.length ≤ s.cfg.bufBytes := by
  obtain ⟨-, hlen, -, -, hnil⟩ := ending_success h
  cases hd : usesDst i with
  | false => exact .inl (hnil hd)
  | true =>
    have hdst : s.DstInside := ((preCheck_eq_none_iff i s).1 hp).2.1 hd
    exact .inr ((Nat.add_le_add_left hlen _).trans hdst)

theorem used_le_bufBytes {i : Instr} {s u : State} {out : List Byte} {n : Nat} (hp : preCheck i s = none)
    (h : ending i s = .success u out n) : n ≤ s.cfg.bufBytes := by
  obtain ⟨-, -, hle, hzero, -⟩ := ending_success h
  cases hs : usesSrc i with
  | false => rw [hzero hs]; exact Nat.zero_le _
  | true =>
    have hsrc : s.SrcInside := ((preCheck_eq_none_iff i s).1 hp).1 hs
    exact hle.trans ((Nat.le_add_left _ _).trans hsrc)

theorem State.DataLegal.failPre {s : State} (h : s.DataLegal) {e : ErrCode} (info : Word) (he : e ≠ .ok) :
    (s.failPre e info).Inv := h.close_error he

theorem State.DataLegal.failRun {s : State} (h : s.DataLegal) {e : ErrCode} (info : Nat) (he : e ≠ .ok) :
    (s.failRun e info).Inv := h.forgetDst.close_error he

theorem State.DataLegal.succeed {s : State} (h : s.DataLegal) {out : List Byte} {n : Nat}
    (hout : out = [] ∨ s.dstAddr.toNat + out.length ≤ s.cfg.bufBytes) (hn : n ≤ s.cfg.bufBytes) :
    (s.succeed out n).Inv := by
  have hlen : out.length ≤ s.cfg.bufBytes := by
    rcases hout with rfl | hout
    · exact Nat.zero_le _
    · omega
  exact (h.storeOut hout).close ((Nat.mod_le _ _).trans hlen) ((Nat.mod_le _ _).trans hn) fun _ => rfl

/-- Every command's completion gives the invariant, from legal data alone. -/
theorem exec_inv {i : Instr} {s t : State} (hs : s.DataLegal) (h : exec i s = .next t) : t.Inv := by
  rcases exec_cases i s with ⟨e, info, hp, hx⟩ | ⟨hp, ⟨u, out, n, hend, hx⟩ | ⟨u, e, info, hend, hx⟩⟩
  · obtain rfl : s.failPre e info = t := by simpa [hx] using h
    exact hs.failPre info (preCheck_err hp)
  · obtain rfl : u.succeed out n = t := by simpa [hx] using h
    have hu : u.DataLegal := by simpa [hend] using ending_dataLegal hs hp
    have hw := (ending_success hend).1.others
    have hcfg : u.cfg = s.cfg := by rw [hw]
    have hdst : u.dstAddr = s.dstAddr := by rw [hw]
    exact hu.succeed (hcfg ▸ hdst ▸ output_inside hp hend) (hcfg ▸ used_le_bufBytes hp hend)
  · obtain rfl : u.failRun e info = t := by simpa [hx] using h
    have hu : u.DataLegal := by simpa [hend] using ending_dataLegal hs hp
    exact hu.failRun info (ending_error hend).2.2

theorem sequencerTurn_inv {s t : State} (hs : s.Inv) (h : sequencerTurn s = .next t) : t.Inv := by
  unfold sequencerTurn completePending at h
  split at h
  · split at h
    · exact exec_inv hs.data h
    · cases h
      exact hs.data.failPre s.cmd (by decide)
  · cases h
    exact hs

/-! ## The host's step -/

theorem State.Inv.withInputs {s : State} (h : s.Inv) (rest : List HostEvent) : { s with inputs := rest }.Inv :=
  { h with flags := { h.flags with } }

theorem State.Inv.returned {s : State} (h : s.Inv) (v : Word) : (s.returned v).Inv :=
  { h with flags := { h.flags with } }

theorem State.Inv.writeCtrl {s : State} (h : s.Inv) (v : Word) : (s.writeCtrl v).Inv :=
  { h with flags := { h.flags with } }

theorem State.Inv.setOvr {s : State} (h : s.Inv) : s.setOvr.Inv :=
  { h with flags := { h.flags with } }

theorem State.Inv.writeStatus {s : State} (h : s.Inv) (v : Word) : (s.writeStatus v).Inv :=
  { h with flags := ⟨fun hb => by simp [h.flags.busyNotDone hb], fun hb => by simp [h.flags.busyNotErr hb],
      fun he => h.flags.errHasCode (Bool.and_eq_true_iff.1 he).1, h.flags.okNoInfo⟩ }

theorem State.Inv.issue {s : State} (h : s.Inv) (w : Word) : (s.issue w).Inv :=
  { h with flags := ⟨fun _ => rfl, fun _ => rfl, by simp, fun _ => rfl⟩ }

theorem State.Inv.lockedWrite {s u : State} (h : s.Inv) (hu : u.Inv) : (s.lockedWrite u).Inv := by
  unfold State.lockedWrite
  split
  · exact h.setOvr
  · exact hu

theorem State.Inv.csrWrite {s : State} (h : s.Inv) (r : Csr) (v : Word) : (s.csrWrite r v).Inv := by
  cases r with
  | ctrl => exact h.writeCtrl v
  | status => exact h.writeStatus v
  | cmd => exact h.lockedWrite (h.issue v)
  | srcAddr | srcLen | dstAddr | dstCap | bitlen => exact h.lockedWrite { h with flags := { h.flags with } }
  | id | version | cfg | bufSize | errcode | errInfo | outLen | inUsed | symCount | treeNodes | maxCodeLen | freq => exact h

theorem State.Inv.csrWriteAt {s : State} (h : s.Inv) (offset : BitVec 12) (v : Word) : (s.csrWriteAt offset v).Inv := by
  unfold State.csrWriteAt
  split
  · exact h
  · exact h.csrWrite _ v

theorem State.Inv.hostWrite {s : State} (h : s.Inv) {a n : Nat} (v : Word) (ha : a + n ≤ s.cfg.bufBytes) :
    (s.hostWrite a n v).Inv :=
  { h with
    bufWf := Memory.wf_writeBytes h.bufWf _ _
    bufBelow := Memory.below_writeBytes h.bufBelow (by rwa [hostBytes_length])
    flags := { h.flags with } }

/-- A host access that is not refused keeps the invariant (20_memory.md R62, R64). -/
theorem hostAccess_inv {s t : State} {a : Access} (hs : s.Inv) (h : hostAccess s a = .next t) : t.Inv := by
  cases a with
  | csrRead width offset =>
    simp only [hostAccess] at h
    split_ifs at h
    cases h
    exact hs.returned _
  | csrWrite width offset v =>
    simp only [hostAccess] at h
    split_ifs at h
    cases h
    exact hs.csrWriteAt offset v
  | bufRead width address =>
    simp only [hostAccess] at h
    split_ifs at h
    cases h
    exact hs.returned _
  | bufWrite width address v =>
    simp only [hostAccess] at h
    split_ifs at h with _ habsent
    cases h
    exact hs.hostWrite v (not_lt.1 habsent)

/-- The reset state of a build with legal parameters has the invariant (70_reset_and_hazards.md R300). -/
theorem State.resetWith_inv {c : Config} (h : c.legal = true) : (State.resetWith c).Inv where
  config := h
  bufWf := rfl
  bufBelow := rfl
  tree := emptyRoot_legal
  codes := noCodes_codesLegal
  counts := totalCount_noCounts.trans_le (Nat.zero_le _)
  outLen := Nat.zero_le _
  inUsed := Nat.zero_le _
  flags := ⟨fun _ => rfl, fun _ => rfl, (nomatch ·), fun _ => rfl⟩

theorem State.Inv.resetPulse {s : State} (h : s.Inv) : s.resetPulse.Inv :=
  have hr := State.resetWith_inv h.config
  { hr with flags := { hr.flags with } }

theorem hostEvent_inv {e : HostEvent} {s t : State} (hs : s.Inv) (h : hostEvent e s = .next t) : t.Inv := by
  cases e with
  | access a => exact hostAccess_inv hs h
  | turn => exact sequencerTurn_inv hs h
  | resetPulse =>
    cases h
    exact hs.resetPulse

/-- Settles O56: the sequencer's step keeps the invariant, and so does each host event that is not refused. -/
theorem stepKeepsInvariant : Obligations.StepKeepsInvariant := by
  unfold Obligations.StepKeepsInvariant step
  intro s t hs h
  split at h
  · exact sequencerTurn_inv hs h
  · exact hostEvent_inv (hs.withInputs _) h

/-! ## Wire integers -/

/-- Byte k of a little-endian wire integer (00_scope.md R15). -/
theorem wireBytes32_le_getElem? (v : Nat) {k : Nat} (hk : k < 4) :
    (wireBytes32 false v)[k]? = some (BitVec.ofNat 8 (v / 256 ^ k)) := by
  interval_cases k <;> simp [wireBytes32]

/-- The big-endian bytes are the little-endian ones in reverse (00_scope.md R15). -/
theorem wireBytes32_be_eq_reverse (v : Nat) : wireBytes32 true v = (wireBytes32 false v).reverse := rfl

theorem wireBytes32_be_getElem? (v : Nat) {k : Nat} (hk : k < 4) :
    (wireBytes32 true v)[k]? = some (BitVec.ofNat 8 (v / 256 ^ (3 - k))) := by
  rw [wireBytes32_be_eq_reverse, List.getElem?_reverse (by simpa using hk), wireBytes32_length]
  exact wireBytes32_le_getElem? v (by omega)

/-- Settles O59: the little-endian bytes one by one, the big-endian ones as their reverse. -/
theorem wireIntegerByteOrder : Obligations.WireIntegerByteOrder := by
  unfold Obligations.WireIntegerByteOrder
  refine ⟨fun v _ k hk => ⟨wireBytes32_le_getElem? v hk, wireBytes32_be_getElem? v hk⟩, wireBytes32_length, ?_⟩
  intro b0 b1 b2 b3
  exact ⟨rfl, rfl⟩

end Sys2Proof.Machine
end

section
/-! What a command may change and what it reports (10_state.md R43; 40_command_common.md R134, R137), and what a host access to
the CSR space does, busy or idle (10_state.md R22 to R45). -/

namespace Sys2Proof.Machine

/-! ## What a command leaves alone -/

theorem Writes.refl (i : Instr) (s : State) : Writes i s s := ⟨rfl, fun _ => rfl, fun _ => rfl, fun _ => rfl, fun _ => rfl⟩

/-- A completion leaves the tables and BITLEN as the command's pseudocode wrote them, and untouched after a failed pre-check
(10_state.md R43; 40_command_common.md R138). -/
theorem exec_writes {i : Instr} {s t : State} (h : exec i s = .next t) :
    ∃ u, Writes i s u ∧ t.freq = u.freq ∧ t.tree = u.tree ∧ t.codetab = u.codetab ∧ t.bitlen = u.bitlen := by
  rcases exec_inversion h with ⟨_, _, -, -, rfl⟩ | ⟨u, _, _, -, -, hw, hs⟩ | ⟨u, _, _, -, -, hw, -, -, hf⟩
  · exact ⟨s, Writes.refl i s, rfl, rfl, rfl, rfl⟩
  · exact ⟨u, hw, by rw [hs.registers], by rw [hs.registers], by rw [hs.registers], by rw [hs.registers]⟩
  · exact ⟨u, hw, by rw [hf.registers], by rw [hf.registers], by rw [hf.registers], by rw [hf.registers]⟩

/-- Settles O51: the tables by what the pseudocode writes, the other fields by what every completion leaves alone. -/
theorem commandsWriteOnlyTheirState : Obligations.CommandsWriteOnlyTheirState := by
  unfold Obligations.CommandsWriteOnlyTheirState
  intro i s t h
  obtain ⟨u, hw, hfreq, htree, hcodetab, -⟩ := exec_writes h
  obtain ⟨-, -, -, hkept⟩ := exec_common h
  exact ⟨fun hi => hfreq.trans (hw.freq hi), fun hi => htree.trans (hw.tree hi),
    fun hi => hcodetab.trans (hw.codetab hi), hkept⟩

/-! ## What a completion reports -/

/-- A completion either reports an error, with both lengths 0 and BITLEN kept, or success, with no ERR_INFO
(40_command_common.md R134, R137, R138). -/
theorem exec_reports {i : Instr} {s t : State} (h : exec i s = .next t) :
    (t.err = true ∧ t.outLen = 0 ∧ t.inUsed = 0 ∧ t.bitlen = s.bitlen ∧ t.errcode ≠ .ok) ∨
      (t.err = false ∧ t.errcode = .ok ∧ t.errInfo = 0) := by
  rcases exec_inversion h with ⟨_, _, -, he, rfl⟩ | ⟨_, _, _, -, -, -, hs⟩ | ⟨_, _, _, -, -, -, hbitlen, he, hf⟩
  · exact .inl ⟨rfl, rfl, rfl, rfl, he⟩
  · rw [hs.registers]
    exact .inr ⟨rfl, rfl, rfl⟩
  · rw [hf.registers]
    exact .inl ⟨rfl, rfl, rfl, hbitlen, he⟩

/-- Settles O52: ERR says which of the two reports a completion made. -/
theorem errorsReportNoOutput : Obligations.ErrorsReportNoOutput := by
  unfold Obligations.ErrorsReportNoOutput
  intro i s t h
  obtain ⟨u, hw, -, -, -, hbitlen⟩ := exec_writes h
  have hkept := fun hi => hbitlen.trans (hw.bitlen hi)
  rcases exec_reports h with ⟨herr, hr⟩ | ⟨herr, hr⟩
  · exact ⟨fun _ => hr, fun hno => by simp [herr] at hno, hkept⟩
  · exact ⟨fun hyes => by simp [herr] at hyes, fun _ => hr, hkept⟩

/-! ## Host writes to the CSR space -/

theorem csrOffset_mod_four (r : Csr) : (csrOffset r).toNat % 4 = 0 := by
  cases r with
  | freq c => rw [csrOffset_freq_toNat]; omega
  | _ => rfl

theorem step_csrWrite {s : State} {offset : BitVec 12} {v : Word} {rest : List HostEvent} (hm : offset.toNat % 4 = 0)
    (hin : s.inputs = .access (.csrWrite .w32 offset v) :: rest) :
    step s = .next ({ s with inputs := rest }.csrWriteAt offset v) := by
  simp [step, hin, hostEvent, hostAccess, hm]

/-- A host write to a register, found at its offset. -/
theorem step_wrEvent (r : Csr) {s : State} {v : Word} {rest : List HostEvent} (hin : s.inputs = wrEvent r v :: rest) :
    step s = .next ({ s with inputs := rest }.csrWrite r v) := by
  rw [step_csrWrite (csrOffset_mod_four r) hin, State.csrWriteAt, csrAt_csrOffset]

theorem State.lockedWrite_of_idle {s : State} (u : State) (h : s.busy = false) : s.lockedWrite u = u := by
  simp [State.lockedWrite, h]

/-- Settles O10: while idle the lock lets a write to an operand register through. -/
theorem operandRegisterWrites : Obligations.OperandRegisterWrites := by
  unfold Obligations.OperandRegisterWrites
  intro s v rest hidle
  have unlocked (u : State) : { s with inputs := rest }.lockedWrite u = u := State.lockedWrite_of_idle u hidle
  refine ⟨fun hin => ?_, fun hin => ?_, fun hin => ?_, fun hin => ?_, fun hin => ?_⟩
  · rw [step_wrEvent .srcAddr hin, State.csrWrite, unlocked]
  · rw [step_wrEvent .srcLen hin, State.csrWrite, unlocked]
  · rw [step_wrEvent .dstAddr hin, State.csrWrite, unlocked]
  · rw [step_wrEvent .dstCap hin, State.csrWrite, unlocked]
  · rw [step_wrEvent .bitlen hin, State.csrWrite, unlocked]

/-- A STATUS flag a host write may clear: it stays unless its bit of the value is 1 (10_state.md R24). -/
theorem and_not_eq_ite (flag clear : Bool) : (flag && !clear) = if clear then false else flag := by
  cases clear <;> simp

/-- Settles O11: neither register is locked while busy. -/
theorem controlAndStatusWrites : Obligations.ControlAndStatusWrites := by
  unfold Obligations.ControlAndStatusWrites
  intro s v rest
  refine ⟨fun hin => ?_, fun hin => ?_⟩
  · rw [step_wrEvent .ctrl hin]; rfl
  · rw [step_wrEvent .status hin]
    simp only [State.csrWrite, State.writeStatus, and_not_eq_ite]

/-- A write changes no register but the eight that stand at these offsets (10_state.md, the CSR map). -/
theorem State.csrWrite_of_other (s : State) {r : Csr} (v : Word)
    (h : csrOffset r ∉ [0x010#12, 0x014#12, 0x018#12, 0x024#12, 0x028#12, 0x02C#12, 0x030#12, 0x034#12]) :
    s.csrWrite r v = s := by
  cases r with
  | ctrl | status | cmd | srcAddr | srcLen | dstAddr | dstCap | bitlen => exact absurd (by decide) h
  | id | version | cfg | bufSize | errcode | errInfo | outLen | inUsed | symCount | treeNodes | maxCodeLen | freq => rfl

/-- Settles O12: at such an offset stands no register, or one that a write does not change. -/
theorem otherCsrWritesIgnored : Obligations.OtherCsrWritesIgnored := by
  unfold Obligations.OtherCsrWritesIgnored
  intro s offset v rest hm hother hin
  rw [step_csrWrite hm hin, State.csrWriteAt]
  cases hr : csrAt offset with
  | none => rfl
  | some r =>
    obtain rfl := csrAt_eq_some hm hr
    exact congrArg _ (State.csrWrite_of_other _ v hother)

/-! ## Host reads of the CSR space -/

/-- A host read of a CSR completes and changes only the value read, and the draw counter (20_memory.md R62). -/
theorem step_csrRead {s : State} {offset : BitVec 12} {rest : List HostEvent} (hm : offset.toNat % 4 = 0)
    (hin : s.inputs = .access (.csrRead .w32 offset) :: rest) :
    step s = .next { s with inputs := rest, readData := s.csrReadValue offset, draws := s.draws + 1 } := by
  simp only [step, hin, hostEvent, hostAccess, hm, ne_eq, not_true_eq_false, if_false]
  rfl

/-- A register reads its exact value while idle, and the registers R44 lists read it while busy too. -/
theorem State.csrReadValue_exact {s : State} {r : Csr} (h : s.busy = false ∨ drawnWhileBusy r = false)
    {offset : BitVec 12} (ho : offset = csrOffset r) : s.csrReadValue offset = s.csrValue r := by
  have hexact : (s.busy && drawnWhileBusy r) = false := Bool.and_eq_false_iff.2 h
  simp [State.csrReadValue, ho, csrAt_csrOffset, hexact]

theorem State.csrReadValue_reserved (s : State) {offset : BitVec 12} (h : 0x04C ≤ offset.toNat)
    (h' : offset.toNat < 0x400 ∨ 0x800 ≤ offset.toNat) : s.csrReadValue offset = 0 := by
  rw [State.csrReadValue, csrAt_reserved h h']

theorem zeroExtend_ofBool (b : Bool) : BitVec.zeroExtend 32 (BitVec.ofBool b) = if b then 1 else 0 := by cases b <;> rfl

/-- STATUS as read is the sum of its flags (10_state.md R24). -/
theorem State.statusWord_toNat (s : State) :
    s.statusWord.toNat = s.busy.toNat + 2 * s.done.toNat + 4 * s.err.toNat + 8 * s.ovr.toNat := by
  unfold State.statusWord
  cases s.busy <;> cases s.done <;> cases s.err <;> cases s.ovr <;> rfl

/-- Codes of legal length make MAX_CODE_LEN fit its register (10_state.md R35, R39). -/
theorem maxCodeLen_word_toNat {t : CodeTable} (h : ∀ c, (codeOf t c).length ≤ 255) :
    (BitVec.ofNat 32 (maxCodeLen t)).toNat = maxCodeLen t := by
  obtain ⟨c, hc⟩ := exists_length_codeOf_eq_maxCodeLen t
  have hle := h c
  rw [BitVec.toNat_ofNat]
  omega

/-- Settles O13: while idle each offset of the CSR map reads its register's exact value, every other offset 0. -/
theorem csrReadsWhileIdle : Obligations.CsrReadsWhileIdle := by
  unfold Obligations.CsrReadsWhileIdle
  intro s offset rest hidle hm hin
  have read (r : Csr) : offset = csrOffset r → s.csrReadValue offset = s.csrValue r :=
    State.csrReadValue_exact (.inl hidle)
  refine ⟨s.csrReadValue offset, step_csrRead hm hin, read .id, read .version,
    fun h => (read .cfg h).trans (zeroExtend_ofBool _), read .bufSize, fun h => (read .ctrl h).trans (zeroExtend_ofBool _),
    fun h => ?status, read .cmd, fun h => ?errcode, read .errInfo, read .srcAddr, read .srcLen, read .dstAddr, read .dstCap,
    read .bitlen, read .outLen, read .inUsed, read .symCount, read .treeNodes, read .maxCodeLen, fun h hlegal => ?maxCodeLen,
    fun h h' => s.csrReadValue_reserved h (.inl h'), fun c h => ?freq,
    fun h => s.csrReadValue_reserved (by omega) (.inr h)⟩
  case status =>
    rw [read .status h, State.csrValue, State.statusWord_toNat, hidle, Bool.toNat_false, Nat.zero_add]
  case errcode =>
    rw [read .errcode h, State.csrValue]
    exact BitVec.toNat_setWidth_of_le (by decide)
  case maxCodeLen =>
    rw [read .maxCodeLen h, State.csrValue, maxCodeLen_word_toNat hlegal]
    exact ⟨length_codeOf_le_maxCodeLen _, exists_length_codeOf_eq_maxCodeLen _⟩
  case freq => exact read (.freq c) (BitVec.eq_of_toNat_eq (h.trans (csrOffset_freq_toNat c).symm))

/-- Settles O14: the registers R44 lists are not drawn while busy. -/
theorem csrReadsWhileBusy : Obligations.CsrReadsWhileBusy := by
  unfold Obligations.CsrReadsWhileBusy
  intro s offset rest hbusy hm hin
  have read (r : Csr) (hr : drawnWhileBusy r = false) : offset = csrOffset r → s.csrReadValue offset = s.csrValue r :=
    State.csrReadValue_exact (.inr hr)
  refine ⟨s.csrReadValue offset, step_csrRead hm hin, read .id rfl, read .version rfl,
    fun h => (read .cfg rfl h).trans (zeroExtend_ofBool _), read .bufSize rfl,
    fun h => (read .ctrl rfl h).trans (zeroExtend_ofBool _), fun h => ?status, read .cmd rfl, read .srcAddr rfl,
    read .srcLen rfl, read .dstAddr rfl, read .dstCap rfl, fun h h' => s.csrReadValue_reserved h (.inl h'),
    fun h => s.csrReadValue_reserved (by omega) (.inr h)⟩
  case status => rw [read .status rfl h, State.csrValue, State.statusWord_toNat, hbusy, Bool.toNat_true]

end Sys2Proof.Machine
end

section
/-! BUF from the host's side and the commands': what a host access reads, writes or is refused for (20_memory.md R62 to R65,
R71; 70_reset_and_hazards.md R304, R305), and which bytes a command reads and writes (20_memory.md R67, R69). -/

namespace Sys2Proof.Machine

theorem step_access {s : State} {x : Access} {rest : List HostEvent} (hin : s.inputs = .access x :: rest) :
    step s = hostAccess { s with inputs := rest } x := by
  simp only [step, hin, hostEvent]

/-! ## Refused accesses -/

/-- A CSR access not 32 bits wide, or misaligned, is refused, read or write (20_memory.md R62). -/
theorem hostAccess_csr_refused (s : State) {width : Width} {offset : BitVec 12} (v : Word)
    (h : width ≠ .w32 ∨ offset.toNat % 4 ≠ 0) :
    ∃ r, hostAccess s (.csrRead width offset) = .refused r ∧ hostAccess s (.csrWrite width offset v) = .refused r := by
  by_cases hw : width = .w32
  · have hm : offset.toNat % 4 ≠ 0 := h.resolve_left (not_not.2 hw)
    exact ⟨.csrMisaligned, by simp [hostAccess, hw, hm], by simp [hostAccess, hw, hm]⟩
  · exact ⟨.csrAccessWidth, by simp [hostAccess, hw], by simp [hostAccess, hw]⟩

/-- Settles O15: the refusal of such a CSR access is the step's. -/
theorem undefinedCsrAccessRefused : Obligations.UndefinedCsrAccessRefused := by
  unfold Obligations.UndefinedCsrAccessRefused
  intro s width offset v rest h
  obtain ⟨r, hread, hwrite⟩ := hostAccess_csr_refused { s with inputs := rest } v h
  exact ⟨fun hin => ⟨r, (step_access hin).trans hread⟩, fun hin => ⟨r, (step_access hin).trans hwrite⟩⟩

/-- A BUF access of `width` at `a`, read or write. -/
def Access.IsBufAt (x : Access) (width : Width) (a v : Word) : Prop := x = .bufRead width a ∨ x = .bufWrite width a v

theorem hostAccess_buf_misaligned (s : State) {x : Access} {width : Width} {a v : Word} (hx : x.IsBufAt width a v)
    (hm : a.toNat % width.bytes ≠ 0) : hostAccess s x = .refused .bufMisaligned := by
  rcases hx with rfl | rfl <;> exact if_pos hm

theorem hostAccess_buf_absent (s : State) {x : Access} {width : Width} {a v : Word} (hx : x.IsBufAt width a v)
    (hm : a.toNat % width.bytes = 0) (habsent : s.cfg.bufBytes < a.toNat + width.bytes) :
    hostAccess s x = .refused .bufAddressAbsent := by
  rcases hx with rfl | rfl <;> exact (if_neg (not_not.2 hm)).trans (if_pos habsent)

/-- An aligned BUF write inside BUF is refused while busy (70_reset_and_hazards.md R304) and done while idle. -/
theorem hostAccess_bufWrite (s : State) {width : Width} {a v : Word} (hm : a.toNat % width.bytes = 0)
    (hle : a.toNat + width.bytes ≤ s.cfg.bufBytes) :
    hostAccess s (.bufWrite width a v) =
      if s.busy then .refused .bufWriteWhileBusy else .next (s.hostWrite a.toNat width.bytes v) :=
  (if_neg (not_not.2 hm)).trans (if_neg (not_lt.2 hle))

/-- Settles O16: each defect of a BUF access is refused under its own name. -/
theorem undefinedBufAccessStops : Obligations.UndefinedBufAccessStops := by
  unfold Obligations.UndefinedBufAccessStops
  intro s width a v rest x hx hin
  rw [step_access hin]
  refine ⟨hostAccess_buf_misaligned _ hx, hostAccess_buf_absent { s with inputs := rest } hx,
    fun hm hle hbusy hwrite => ?_⟩
  rw [hwrite, hostAccess_bufWrite { s with inputs := rest } hm hle]
  exact if_pos hbusy

/-! ## Reads of BUF -/

theorem Width.bytes_le_four (w : Width) : w.bytes ≤ 4 := by cases w <;> decide

/-- A defined byte reads exactly while idle, and while busy outside the destination region (70_reset_and_hazards.md R305). -/
theorem State.hostByte_exact {s : State} {a : Nat} {b : Byte} (h : s.busy = false ∨ s.OutsideDst s.dstCap.toNat a)
    (hb : s.buf.readByte a = some b) : s.hostByte a = b := by
  have hexact : (s.busy && s.inDst a) = false := by
    refine Bool.and_eq_false_iff.2 (h.imp_right fun hout => ?_)
    simp only [State.inDst, Bool.and_eq_false_iff, decide_eq_false_iff_not]
    unfold State.OutsideDst at hout
    omega
  simp [State.hostByte, hexact, State.byteAt, hb]

/-- An aligned host read inside BUF completes and changes only the value read, and the draw counter (20_memory.md R64). -/
theorem step_bufRead {s : State} {width : Width} {a : Word} {rest : List HostEvent} (hm : a.toNat % width.bytes = 0)
    (hle : a.toNat + width.bytes ≤ s.cfg.bufBytes) (hin : s.inputs = .access (.bufRead width a) :: rest) :
    step s = .next { s with inputs := rest, readData := s.hostRead a.toNat width.bytes, draws := s.draws + 1 } :=
  (step_access hin).trans ((if_neg (not_not.2 hm)).trans (if_neg (not_lt.2 hle)))

/-- Byte k of the value a host read returns is the byte of BUF at `a + k`, where that byte reads exactly
(20_memory.md R65). -/
theorem State.hostRead_exact (s : State) (a : Nat) (width : Width) {k : Nat} (hk : k < width.bytes) {b : Byte}
    (h : s.busy = false ∨ s.OutsideDst s.dstCap.toNat (a + k)) (hb : s.buf.readByte (a + k) = some b) :
    (s.hostRead a width.bytes).toNat / 256 ^ k % 256 = b.toNat := by
  rw [(s.hostRead_digit a width.bytes_le_four).2 k hk, State.hostByte_exact h hb]

theorem State.hostRead_lt (s : State) (a : Nat) (width : Width) : (s.hostRead a width.bytes).toNat < 256 ^ width.bytes :=
  (s.hostRead_digit a width.bytes_le_four).1

/-- Settles O58: while idle every defined byte reads exactly. -/
theorem bufReadIsLittleEndian : Obligations.BufReadIsLittleEndian := by
  unfold Obligations.BufReadIsLittleEndian
  intro s width a rest hidle hm hle hin
  exact ⟨_, step_bufRead hm hle hin, s.hostRead_lt _ width, fun k hk b hb => s.hostRead_exact _ width hk (.inl hidle) hb⟩

/-- Settles O18: while busy every defined byte outside the destination region reads exactly. -/
theorem bufReadWhileBusy : Obligations.BufReadWhileBusy := by
  unfold Obligations.BufReadWhileBusy
  intro s width a rest _ hm hle hin
  exact ⟨_, step_bufRead hm hle hin, s.hostRead_lt _ width, fun k hk b hout hb => s.hostRead_exact _ width hk (.inr hout) hb⟩

/-! ## Writes of BUF -/

/-- An aligned host write inside BUF while idle changes BUF only (20_memory.md R64). -/
theorem step_bufWrite {s : State} {width : Width} {a v : Word} {rest : List HostEvent} (hidle : s.busy = false)
    (hm : a.toNat % width.bytes = 0) (hle : a.toNat + width.bytes ≤ s.cfg.bufBytes)
    (hin : s.inputs = .access (.bufWrite width a v) :: rest) :
    step s = .next ({ s with inputs := rest }.hostWrite a.toNat width.bytes v) := by
  rw [step_access hin, hostAccess_bufWrite { s with inputs := rest } hm hle]
  exact if_neg (Bool.eq_false_iff.1 hidle)

/-- Byte k of a `MemWrite` stands k addresses on. -/
theorem Memory.readByte_writeBytes_add (m : Memory) (a : Nat) {out : List Byte} {k : Nat} (hk : k < out.length) :
    (m.writeBytes a out).readByte (a + k) = out[k]? := by
  rw [Memory.readByte_writeBytes, if_pos (by omega), Nat.add_sub_cancel_left]

/-- What a host write stored reads back, while idle, as the value's low bytes (20_memory.md R65). -/
theorem State.hostRead_of_hostBytes {s : State} {a : Nat} {v : Word} (width : Width) (hidle : s.busy = false)
    (h : ∀ k < width.bytes, s.buf.readByte (a + k) = (hostBytes v width.bytes)[k]?) :
    (s.hostRead a width.bytes).toNat = v.toNat % 256 ^ width.bytes := by
  rw [← hostValue_hostBytes]
  refine State.hostRead_eq _ (hostBytes_length v _) width.bytes_le_four fun k hk => ?_
  rw [hostBytes_length] at hk
  have hb := hostBytes_getElem? v _ k hk
  rw [hb, State.hostByte_exact (.inl hidle) ((h k hk).trans hb)]

/-- Settles O17: the bytes written are those of the value, and a read next finds them. -/
theorem bufWriteIsLittleEndian : Obligations.BufWriteIsLittleEndian := by
  unfold Obligations.BufWriteIsLittleEndian
  intro s width a v rest hidle hm hle hin
  have hstored : ∀ k < width.bytes, (s.buf.writeBytes a.toNat (hostBytes v width.bytes)).readByte (a.toNat + k) =
      (hostBytes v width.bytes)[k]? :=
    fun k hk => Memory.readByte_writeBytes_add _ _ (by rwa [hostBytes_length])
  refine ⟨_, step_bufWrite hidle hm hle hin, rfl, fun k hk => ?_, fun b hb => ?_, fun rest' hnext => ?_⟩
  · exact (hstored k hk).trans (hostBytes_getElem? v _ k hk)
  · exact Memory.readByte_writeBytes_of_outside (by rwa [hostBytes_length])
  · exact ⟨_, step_bufRead hm hle hnext, rfl, State.hostRead_of_hostBytes width hidle hstored⟩

/-! ## What a command writes and reads -/

theorem State.OutsideDst.mono {s : State} {m n a : Nat} (h : s.OutsideDst n a) (hmn : m ≤ n) : s.OutsideDst m a :=
  h.imp_right (Nat.add_le_add_left hmn _).trans

/-- A success writes OUT_LEN bytes at DST_ADDR, at most DST_CAP of them, and no other byte of BUF
(40_command_common.md R136). -/
theorem Succeeds.writes_outLen {i : Instr} {s u t : State} {out : List Byte} {n : Nat}
    (hend : ending i s = .success u out n) (h : Succeeds s u out n t) :
    (∀ a, s.OutsideDst t.outLen.toNat a → t.buf.readByte a = s.buf.readByte a) ∧
      t.outLen.toNat ≤ s.dstCap.toNat ∧
      ∀ k < t.outLen.toNat, ∃ b, t.buf.readByte (s.dstAddr.toNat + k) = some b := by
  obtain ⟨-, hcap, -⟩ := ending_success hend
  have hlen : t.outLen.toNat = out.length := by rw [h.registers]; exact out_toNat hend
  rw [hlen]
  exact ⟨h.untouched, hcap, fun k hk => ⟨out[k], (h.written k hk).trans (List.getElem?_eq_getElem hk)⟩⟩

/-- Settles O53: a failed pre-check writes nothing, a success OUT_LEN bytes, another error the destination region. -/
theorem commandsWriteOnlyDestination : Obligations.CommandsWriteOnlyDestination := by
  unfold Obligations.CommandsWriteOnlyDestination
  intro i s t h
  rcases exec_inversion h with ⟨e, info, -, -, rfl⟩ | ⟨u, out, n, -, hend, -, hs⟩ | ⟨u, e, info, -, -, -, -, -, hf⟩
  · exact ⟨fun _ _ => rfl, nofun⟩
  · obtain ⟨huntouched, hcap, hdefined⟩ := hs.writes_outLen hend
    exact ⟨fun a ha => huntouched a (ha.mono hcap), fun _ => ⟨huntouched, hcap, hdefined⟩⟩
  · refine ⟨hf.untouched, fun hno => ?_⟩
    rw [hf.registers] at hno
    cases hno

/-- Settles O54: with the same source bytes the command's pseudocode ends alike, and so does the command. -/
theorem resultDependsOnSourceOnly : Obligations.ResultDependsOnSourceOnly := by
  unfold Obligations.ResultDependsOnSourceOnly
  intro i s₁ s₂ hs hbytes
  refine exec_withBuf i s₁ s₂ hs fun _ => ?_
  rw [hs] at hbytes
  have hsource : State.source { s₁ with buf := s₂.buf } = s₁.source :=
    List.map_congr_left fun k hk => (hbytes k (List.mem_range.1 hk)).symm
  exact (congrArg (ending i) hs).trans (ending_withBuf i s₁ s₂.buf hsource)

end Sys2Proof.Machine
end

section
/-! The command word: the opcode map, and that the decoder and the encoder agree on all 2^32 words (30_encoding.md R90 to
R92). -/

namespace Sys2Proof

/-- The map assigns each of the opcodes 0x00 to 0x0B to a command (30_encoding.md R91). -/
theorem decodeOpcode_exists {b : Byte} (h : b.toNat ≤ 0x0B) : ∃ i, decodeOpcode b = some i :=
  Option.ne_none_iff_exists'.1 fun hnone => absurd ((decodeOpcode_eq_none_iff b).1 hnone) (not_lt.2 h)

/-- With RSV = 0 the opcode alone selects the command (30_encoding.md R91). -/
theorem decodeWord_eq_ok_of_decodeOpcode {w : Word} {i : Instr} (hrsv : w.toNat / 256 = 0)
    (hopc : decodeOpcode (w.extractLsb' 0 8) = some i) : decodeWord w = .ok i := by
  unfold decodeWord
  rw [if_pos ((extract_reserved_eq_zero_iff w).2 hrsv), hopc]

/-- The legal words of 30_encoding.md R91 and R92: RSV = 0 and an assigned opcode. -/
theorem exists_decodeWord_eq_ok_iff (w : Word) :
    (∃ i, decodeWord w = .ok i) ↔ w.toNat / 256 = 0 ∧ w.toNat % 256 ≤ 0x0B := by
  constructor
  · rintro ⟨i, hi⟩
    have hword : w.toNat = (opcode i).toNat := by rw [(decodeWord_eq_ok_iff w i).1 hi, encode_toNat]
    have hopc := opcode_le i
    omega
  · rintro ⟨hrsv, hopc⟩
    rw [← extract_opcode_toNat] at hopc
    obtain ⟨i, hi⟩ := decodeOpcode_exists hopc
    exact ⟨i, decodeWord_eq_ok_of_decodeOpcode hrsv hi⟩

/-- Settles O1: each written-out word is the encoding of the command the map gives it. -/
theorem opcodeMapWordsDecode : Obligations.OpcodeMapWordsDecode := by
  unfold Obligations.OpcodeMapWordsDecode
  simp only [decodeWord_eq_ok_iff]
  decide

/-- Settles O2: a command's word decodes to that command and no other. -/
theorem decodeOfEncode : Obligations.DecodeOfEncode := by
  unfold Obligations.DecodeOfEncode
  intro i _
  exact (decodeWord_eq_ok_iff (encode i) i).2 rfl

/-- Settles O3: `encode` inverts the decoder, and the legal words are those with RSV = 0 and an assigned opcode. -/
theorem oneWordPerCommand : Obligations.OneWordPerCommand :=
  ⟨decodeWord_eq_ok_iff, exists_decodeWord_eq_ok_iff⟩

end Sys2Proof
end

section
/-! The common protocol of the commands: issue, the sequencer's step, the pre-checks, an illegal word and NOP
(40_command_common.md, sections 1 to 3). -/

namespace Sys2Proof.Machine

/-! ## The sequencer's step -/

theorem sequencerTurn_of_busy {s : State} (hbusy : s.busy = true) : sequencerTurn s = completePending s := if_pos hbusy

/-- With no host event to come, a pending command completes (40_command_common.md R132). -/
theorem step_of_no_inputs {s : State} (hbusy : s.busy = true) (hin : s.inputs = []) : step s = completePending s := by
  simp only [step, hin, sequencerTurn_of_busy hbusy]

/-- So it does at a turn, which is taken off the events to come. -/
theorem step_of_turn {s : State} {rest : List HostEvent} (hbusy : s.busy = true) (hin : s.inputs = .turn :: rest) :
    step s = completePending { s with inputs := rest } := by
  have hbusy' : { s with inputs := rest }.busy = true := hbusy
  simp only [step, hin, hostEvent, sequencerTurn_of_busy hbusy']

theorem completePending_of_ok {s : State} {i : Instr} (h : decodeWord s.cmd = .ok i) : completePending s = exec i s := by
  simp only [completePending, h]

theorem completePending_of_error {s : State} {e : DecodeError} (h : decodeWord s.cmd = .error e) :
    completePending s = .next (illegalCompletion s) := by
  simp only [completePending, h]

/-- Settles O4: the word in CMD is the same before and after a turn is taken. -/
theorem stepRunsPendingCommand : Obligations.StepRunsPendingCommand := by
  unfold Obligations.StepRunsPendingCommand
  intro s i hbusy hdec
  exact ⟨fun hin => (step_of_no_inputs hbusy hin).trans (completePending_of_ok hdec),
    fun rest hin => (step_of_turn hbusy hin).trans (completePending_of_ok (s := { s with inputs := rest }) hdec)⟩

/-! ## Errors of the pre-checks -/

/-- A pre-check's error leaves BUF and the internal state alone (40_command_common.md R138). -/
theorem State.failPre_eq_afterPreCheckError (s : State) {e : ErrCode} (info : Word) (he : e ≠ .ok) :
    s.failPre e info = s.afterPreCheckError e info := by
  simp [State.failPre, State.close, State.flagsAtCompletion, State.afterPreCheckError, he]

theorem completePending_of_illegal {s : State} (h : s.cmd.toNat / 256 ≠ 0 ∨ 0x0B < s.cmd.toNat % 256) :
    completePending s = .next (s.afterPreCheckError .illegalCmd s.cmd) := by
  obtain ⟨_, hdec⟩ := decodeWord_eq_error_of_illegal h
  rw [completePending_of_error hdec, illegalCompletion, State.failPre_eq_afterPreCheckError s _ (by decide)]

/-- Settles O5: an illegal word decodes to no command, so the step is the error of the first pre-check. -/
theorem illegalWordCompletes : Obligations.IllegalWordCompletes := by
  unfold Obligations.IllegalWordCompletes
  refine ⟨rfl, fun s hbusy hill => ⟨fun hin => ?_, fun rest hin => ?_⟩⟩
  · exact (step_of_no_inputs hbusy hin).trans (completePending_of_illegal hill)
  · exact (step_of_turn hbusy hin).trans (completePending_of_illegal (s := { s with inputs := rest }) hill)

/-- Whatever word was issued, its completion lowers BUSY, raises DONE, and sets ERR exactly with an error code
(40_command_common.md R132, R134, R137). -/
theorem completePending_completes (s : State) :
    ∃ t, completePending s = .next t ∧ t.busy = false ∧ t.done = true ∧ t.cmd = s.cmd ∧ t.inputs = s.inputs ∧
      (t.err = true ↔ t.errcode ≠ .ok) := by
  cases hdec : decodeWord s.cmd with
  | ok i =>
    obtain ⟨t, ht⟩ := exec_next i s
    obtain ⟨hbusy, hdone, herr, -, -, -, hcmd, -, -, -, -, hinputs, -⟩ := exec_common ht
    exact ⟨t, (completePending_of_ok hdec).trans ht, hbusy, hdone, hcmd, hinputs, herr⟩
  | error e => exact ⟨_, completePending_of_error hdec, rfl, rfl, rfl, rfl, by simp [illegalCompletion]⟩

/-- Settles O7: the step is the pending command's completion, with or without a turn to take. -/
theorem pendingCommandCompletes : Obligations.PendingCommandCompletes := by
  unfold Obligations.PendingCommandCompletes
  rintro s rest hbusy (⟨hin, rfl⟩ | hin)
  · rw [step_of_no_inputs hbusy hin, ← hin]
    exact completePending_completes s
  · rw [step_of_turn hbusy hin]
    exact completePending_completes { s with inputs := rest }

/-! ## The region pre-checks -/

theorem State.srcOutside_iff (s : State) : s.srcOutside = true ↔ ¬ s.SrcInside :=
  decide_eq_true_iff.trans not_le.symm

theorem State.dstOutside_iff (s : State) : s.dstOutside = true ↔ ¬ s.DstInside :=
  decide_eq_true_iff.trans not_le.symm

theorem State.regionsOverlap_iff (s : State) : s.regionsOverlap = true ↔ ¬ s.RegionsApart := by
  simp only [State.regionsOverlap, State.RegionsApart, Bool.and_eq_true, decide_eq_true_eq]
  omega

theorem preCheck_of_src_outside {i : Instr} {s : State} (hi : usesSrc i = true) (hs : ¬ s.SrcInside) :
    preCheck i s = some (.range, 0) := by
  simp [preCheck, hi, s.srcOutside_iff, hs]

/-- The destination is checked once the source, where the command uses one, is inside BUF (40_command_common.md R133). -/
theorem preCheck_of_dst_outside {i : Instr} {s : State} (hsrc : usesSrc i = true → s.SrcInside) (hi : usesDst i = true)
    (hd : ¬ s.DstInside) : preCheck i s = some (.range, 1) := by
  simpa [preCheck, hi, s.srcOutside_iff, s.dstOutside_iff, hd] using hsrc

/-- The overlap is checked last (40_command_common.md R133). -/
theorem preCheck_of_overlap {i : Instr} {s : State} (hi : usesSrc i = true) (hi' : usesDst i = true) (hs : s.SrcInside)
    (hd : s.DstInside) (ho : ¬ s.RegionsApart) : preCheck i s = some (.overlap, 0) := by
  simp [preCheck, hi, hi', s.srcOutside_iff, s.dstOutside_iff, s.regionsOverlap_iff, hs, hd, ho]

/-- A command whose pre-checks fail completes with the error they give and does nothing else. -/
theorem exec_of_preCheck_eq_some {i : Instr} {s : State} {e : ErrCode} {info : Word}
    (h : preCheck i s = some (e, info)) : exec i s = .next (s.afterPreCheckError e info) := by
  rw [exec_eq_completion, completion, h, ← State.failPre_eq_afterPreCheckError s info (preCheck_err h)]

/-- Settles O22: the two columns of the opcode map command by command, then each clause by the pre-check that fails first. -/
theorem preChecksInOrder : Obligations.PreChecksInOrder := by
  unfold Obligations.PreChecksInOrder
  refine ⟨fun i => ?src, fun i => ?dst, fun s i => ⟨fun hi hs => ?srcRange, fun hsrc hi hd => ?dstRange,
    fun hi hi' hs hd ho => ?overlap⟩⟩
  case src => cases i <;> decide
  case dst => cases i <;> decide
  case srcRange => exact exec_of_preCheck_eq_some (preCheck_of_src_outside hi hs)
  case dstRange => exact exec_of_preCheck_eq_some (preCheck_of_dst_outside hsrc hi hd)
  case overlap => exact exec_of_preCheck_eq_some (preCheck_of_overlap hi hi' hs hd ho)

/-! ## NOP -/

/-- The line after a success shows CTRL.IE (60_exceptions.md R276). -/
theorem Succeeds.irq {s u t : State} {out : List Byte} {n : Nat} (h : Succeeds s u out n t) : t.irq = u.ie := by
  rw [h.registers]
  exact Bool.and_true _

/-- Settles O23: NOP uses no region, so its pre-checks pass in every state. -/
theorem nopCompletes : Obligations.NopCompletes := by
  unfold Obligations.NopCompletes
  refine ⟨rfl, fun s => ?_⟩
  have hpass : preCheck .nop s = none := (preCheck_eq_none_iff .nop s).2 ⟨nofun, nofun, nofun⟩
  obtain ⟨t, ht, hs⟩ := exec_succeeds (u := s) hpass rfl rfl rfl rfl
  exact ⟨t, ht, hs, hs.irq⟩

/-! ## Issue, and writes the lock ignores -/

/-- Settles O8: while idle the lock lets the write to CMD through, and it issues whatever word is written. -/
theorem cmdWriteIssues : Obligations.CmdWriteIssues := by
  unfold Obligations.CmdWriteIssues
  intro s w rest hidle hin
  have hissue : step s = .next ({ s with inputs := rest }.issue w) := by
    rw [step_wrEvent .cmd hin, State.csrWrite, State.lockedWrite_of_idle (s := { s with inputs := rest }) _ hidle]
  exact ⟨_, hissue, Bool.and_false _, rfl⟩

/-- The registers a host write cannot change while BUSY = 1 (10_state.md R45). -/
def busyLocked : List Csr := [.cmd, .srcAddr, .srcLen, .dstAddr, .dstCap, .bitlen]

theorem State.lockedWrite_of_busy {s : State} (u : State) (h : s.busy = true) : s.lockedWrite u = s.setOvr := if_pos h

theorem State.csrWrite_of_busyLocked {s : State} {r : Csr} (v : Word) (hr : r ∈ busyLocked) (h : s.busy = true) :
    s.csrWrite r v = s.setOvr := by
  simp only [busyLocked, List.mem_cons, List.not_mem_nil, or_false] at hr
  obtain rfl | rfl | rfl | rfl | rfl | rfl := hr <;> exact State.lockedWrite_of_busy _ h

/-- Settles O9: the six offsets are those of the busy-locked registers. -/
theorem busyLockedWriteSetsOvr : Obligations.BusyLockedWriteSetsOvr := by
  unfold Obligations.BusyLockedWriteSetsOvr
  intro s offset v rest hbusy hoff hin
  obtain ⟨r, hr, rfl⟩ : ∃ r ∈ busyLocked, csrOffset r = offset := List.mem_map.1 hoff
  rw [step_wrEvent r hin, State.csrWrite_of_busyLocked (s := { s with inputs := rest }) v hr hbusy]
  rfl

end Sys2Proof.Machine
end

section
/-! FREQ_COUNT and TREE_BUILD: the counts, and that the model's sorted-list queue takes the merge steps any priority queue
takes (41_frequency_tree.md). -/

namespace Sys2Proof.Machine

/-! ## FREQ_COUNT -/

/-- FREQ_COUNT uses the source region only. -/
theorem preCheck_freqCount {s : State} (h : s.SrcInside) : preCheck .freqCount s = none :=
  (preCheck_eq_none_iff .freqCount s).2 ⟨fun _ => h, nofun, nofun⟩

/-- Settles O24: the counts FREQ_COUNT leaves are those of the source's bytes. -/
theorem freqCountCountsSymbols : Obligations.FreqCountCountsSymbols := by
  unfold Obligations.FreqCountCountsSymbols
  intro s hsrc
  obtain ⟨t, ht, hs⟩ :=
    exec_succeeds (u := { s with freq := countSymbols s.source }) (preCheck_freqCount hsrc) rfl rfl rfl rfl
  refine ⟨t, countSymbols s.source, ht, hs, countOf_countSymbols s.source (source_lt s), ?_⟩
  rw [totalCount_countSymbols (source_lt s), State.source_length]

/-! ## TREE_BUILD on fewer than two symbols -/

/-- TREE_BUILD uses no region and its pseudocode raises nothing (41_frequency_tree.md R152, R160). -/
theorem exec_treeBuild_succeeds (s : State) :
    ∃ t, exec .treeBuild s = .next t ∧ Succeeds s { s with tree := buildTree s.freq } [] 0 t :=
  exec_succeeds ((preCheck_eq_none_iff .treeBuild s).2 ⟨nofun, nofun, nofun⟩) rfl rfl rfl rfl

theorem Succeeds.tree {s u t : State} {out : List Byte} {n : Nat} (h : Succeeds s u out n t) : t.tree = u.tree := by
  rw [h.registers]

theorem mem_alphabet_iff_ne_zero (f : FreqTable) (c : Symbol) : c ∈ alphabet f ↔ countOf f c ≠ 0 := by
  rw [mem_alphabet, Nat.pos_iff_ne_zero, Ne, Ne, BitVec.toNat_eq]
  rfl

theorem alphabet_eq_nil {f : FreqTable} (h : ∀ c, countOf f c = 0) : alphabet f = [] :=
  List.eq_nil_iff_forall_not_mem.2 fun c hc => (mem_alphabet_iff_ne_zero f c).1 hc (h c)

theorem alphabet_eq_singleton {f : FreqTable} {x : Symbol} (h : ∀ c, countOf f c ≠ 0 ↔ c = x) : alphabet f = [x] := by
  refine List.perm_singleton.1 ((List.perm_ext_iff_of_nodup (alphabet_nodup f) (List.nodup_singleton x)).2 fun c => ?_)
  rw [mem_alphabet_iff_ne_zero, h, List.mem_singleton]

/-- Settles O25: the alphabet is empty or has the one symbol, and BuildTree treats both by themselves. -/
theorem treeBuildDegenerateAlphabets : Obligations.TreeBuildDegenerateAlphabets := by
  unfold Obligations.TreeBuildDegenerateAlphabets
  intro s
  obtain ⟨t, ht, hs⟩ := exec_treeBuild_succeeds s
  refine ⟨fun h => ?_, fun x h => ?_⟩
  · rw [buildTree_of_empty (alphabet_eq_nil h)] at hs
    exact ⟨t, ht, hs, by rw [hs.tree]; rfl⟩
  · rw [buildTree_of_single (alphabet_eq_singleton h)] at hs
    exact ⟨t, ht, hs, by rw [hs.tree]; rfl⟩

/-! ## The merge loop on any priority queue -/

theorem mergeLoop_singleton (steps next : Nat) (a : QueueEntry) : mergeLoop steps next [a] = a.node := by
  cases steps <;> rfl

/-- What holds of the model's queue before each merge: it stands in extraction order, and its sequence numbers are below the
next one to be given out (41_frequency_tree.md R153, R158). -/
structure InOrder (next : Nat) (q : List QueueEntry) : Prop where
  sorted : q.Pairwise fun a b => a.before b = true
  seqBelow : ∀ e ∈ q, e.seq < next

theorem inOrder_leafQueue (f : FreqTable) (ss : List Symbol) : InOrder ss.length (leafQueue f ss 0) where
  sorted := leafQueue_sorted f ss 0
  seqBelow e he := by
    have := (leafQueue_seq f ss 0).mem_iff.1 (List.mem_map_of_mem he)
    rw [List.mem_range'_1] at this
    omega

/-- The entry `A` and `B` are joined into (41_frequency_tree.md R154). -/
def mergedEntry (next : Nat) (a b : QueueEntry) : QueueEntry := ⟨a.freq + b.freq, next, .inner a.node b.node⟩

theorem mergeLoop_cons_cons (steps next : Nat) (a b : QueueEntry) (q : List QueueEntry) :
    mergeLoop (steps + 1) next (a :: b :: q) = mergeLoop steps (next + 1) (enqueue (mergedEntry next a b) q) := rfl

/-- A merge step keeps the queue in order. -/
theorem InOrder.merge {next : Nat} {a b : QueueEntry} {q : List QueueEntry} (h : InOrder next (a :: b :: q)) :
    InOrder (next + 1) (enqueue (mergedEntry next a b) q) where
  sorted := enqueue_sorted h.sorted.of_cons.of_cons fun x hx =>
    (h.seqBelow x (List.mem_cons_of_mem _ (List.mem_cons_of_mem _ hx))).ne
  seqBelow e he := by
    rcases List.mem_cons.1 ((enqueue_perm _ q).mem_iff.1 he) with rfl | he
    · exact Nat.lt_succ_self next
    · exact (h.seqBelow e (by simp [he])).trans (Nat.lt_succ_self next)

/-- `extract_min` is a function of the queue's contents: it takes the entry a sorted list has at its head
(41_frequency_tree.md R153, R158). -/
theorem extractMin_iff {a e : QueueEntry} {p q rest : List QueueEntry} (hp : p.Perm (a :: q))
    (hsorted : (a :: q).Pairwise fun a b => a.before b = true) :
    ExtractMin p e rest ↔ e = a ∧ rest.Perm q := by
  have hhead := (List.pairwise_cons.1 hsorted).1
  constructor
  · rintro ⟨hperm, hmin⟩
    have hsame : (e :: rest).Perm (a :: q) := hperm.symm.trans hp
    obtain rfl : e = a := by
      by_contra hne
      have he : e ∈ q := (List.mem_cons.1 (hsame.mem_iff.1 List.mem_cons_self)).resolve_left hne
      have ha : a ∈ rest := (List.mem_cons.1 (hsame.mem_iff.2 List.mem_cons_self)).resolve_left (Ne.symm hne)
      exact QueueEntry.not_before_of_before (hmin a ha) (hhead e he)
    exact ⟨rfl, hsame.cons_inv⟩
  · rintro ⟨rfl, hrest⟩
    exact ⟨hp.trans (hrest.symm.cons e), fun x hx => hhead x (hrest.mem_iff.1 hx)⟩

theorem mergeRun_singleton_iff {next : Nat} {a : QueueEntry} {T : Tree} : MergeRun next [a] T ↔ T = a.node := by
  constructor
  · intro h
    cases h with
    | last => rfl
    | merge first second =>
      have h₁ := first.1.length_eq
      have h₂ := second.1.length_eq
      simp only [List.length_cons, List.length_nil] at h₁ h₂
      omega
  · rintro rfl
    exact .last next a

/-- On a queue with the contents of a sorted list of two entries or more, a run merges the first two. -/
theorem mergeRun_cons_cons_iff {next : Nat} {a b : QueueEntry} {p q : List QueueEntry} {T : Tree}
    (hp : p.Perm (a :: b :: q)) (hsorted : (a :: b :: q).Pairwise fun a b => a.before b = true) :
    MergeRun next p T ↔ ∃ p', p'.Perm (mergedEntry next a b :: q) ∧ MergeRun (next + 1) p' T := by
  constructor
  · intro h
    cases h with
    | last e => simpa using hp.length_eq
    | merge first second joined rest =>
      obtain ⟨rfl, hp₁⟩ := (extractMin_iff hp hsorted).1 first
      obtain ⟨rfl, hp₂⟩ := (extractMin_iff hp₁ hsorted.of_cons).1 second
      exact ⟨_, joined.trans (hp₂.cons _), rest⟩
  · rintro ⟨p', hp', rest⟩
    exact .merge ((extractMin_iff hp hsorted).2 ⟨rfl, .refl _⟩)
      ((extractMin_iff (.refl _) hsorted.of_cons).2 ⟨rfl, .refl _⟩) hp' rest

/-- The merge loop over the model's sorted list is every run over a queue with the same contents, whatever its order
(41_frequency_tree.md R158). -/
theorem mergeRun_iff_mergeLoop {steps next : Nat} {p q : List QueueEntry} {T : Tree} (hp : p.Perm q) (hq : q ≠ [])
    (hlen : q.length ≤ steps + 1) (hord : InOrder next q) : MergeRun next p T ↔ T = mergeLoop steps next q := by
  induction steps generalizing next p q with
  | zero =>
    match q, hq, hlen with
    | [a], _, _ => rw [List.perm_singleton.1 hp, mergeRun_singleton_iff, mergeLoop_singleton]
  | succ steps ih =>
    match q, hq with
    | [a], _ => rw [List.perm_singleton.1 hp, mergeRun_singleton_iff, mergeLoop_singleton]
    | a :: b :: q, _ =>
      have hins := enqueue_perm (mergedEntry next a b) q
      have hne : enqueue (mergedEntry next a b) q ≠ [] := fun h0 => by simpa [h0] using hins.length_eq
      have hlen' : (enqueue (mergedEntry next a b) q).length ≤ steps + 1 := by
        rw [hins.length_eq]
        exact Nat.le_of_succ_le_succ hlen
      have ih {p'} (hp' : p'.Perm (mergedEntry next a b :: q)) := ih (p := p') (hp'.trans hins.symm) hne hlen' hord.merge
      rw [mergeRun_cons_cons_iff hp hord.sorted, mergeLoop_cons_cons]
      exact ⟨fun ⟨_, hp', hrun⟩ => (ih hp').1 hrun, fun hT => ⟨_, .refl _, (ih (.refl _)).2 hT⟩⟩

theorem buildTree_eq_mergeLoop {f : FreqTable} (h : 2 ≤ (alphabet f).length) :
    buildTree f = mergeLoop (alphabet f).length (alphabet f).length (leafQueue f (alphabet f) 0) := by
  unfold buildTree
  match hA : alphabet f, h with
  | a :: b :: ss, _ => rfl

/-- From the leaves' entries, in whatever order, every run ends in BuildTree of the counts (41_frequency_tree.md R155,
R158). -/
theorem mergeRun_leafEntries_iff {f : FreqTable} (h : 2 ≤ (alphabet f).length) (T : Tree) :
    MergeRun (alphabet f).length (leafEntries f (alphabet f)) T ↔ T = buildTree f := by
  obtain ⟨hlen, -, -⟩ := leafQueue_spec f (alphabet f) 0
  have hne : leafQueue f (alphabet f) 0 ≠ [] := fun h0 => by simp [h0] at hlen; omega
  rw [buildTree_eq_mergeLoop h]
  exact mergeRun_iff_mergeLoop (leafQueue_perm f (alphabet f) 0).symm hne (by omega) (inOrder_leafQueue f (alphabet f))

/-- Settles O27: the tree TREE_BUILD leaves is BuildTree of the counts, which is what every run ends in. -/
theorem treeBuildIndependentOfQueue : Obligations.TreeBuildIndependentOfQueue := by
  unfold Obligations.TreeBuildIndependentOfQueue
  refine ⟨fun f h T => mergeRun_leafEntries_iff h T, fun s h => ?_⟩
  obtain ⟨t, ht, hs⟩ := exec_treeBuild_succeeds s
  exact ⟨t, ht, fun T => by rw [hs.tree, mergeRun_leafEntries_iff h]⟩

/-! ## The shape of the tree -/

/-- Below an `Inner` root every leaf is at depth 1 at least. -/
theorem Tree.one_le_depth {t : Tree} (h : t.isInner = true) {p : Symbol × Code} (hp : p ∈ t.paths) : 1 ≤ p.2.length :=
  List.length_pos_iff.2 (Tree.path_ne_nil h hp)

/-- Settles O26: a run of the merge loop ends in BuildTree of the counts, a strict tree with the alphabet at its leaves;
strictness bounds its nodes and its depth by its leaves. -/
theorem treeBuildIsStrict : Obligations.TreeBuildIsStrict := by
  unfold Obligations.TreeBuildIsStrict
  intro s h
  obtain ⟨t, ht, hs⟩ := exec_treeBuild_succeeds s
  obtain ⟨hstrict, hleaves⟩ := buildTree_of_two_le h
  have hcount : (buildTree s.freq).paths.length = (alphabet s.freq).length := by
    simpa using hleaves.length_eq
  have hinner := buildTree_isInner s.freq
  have hnodes := Tree.strict_nodes hstrict
  refine ⟨t, buildTree s.freq, ht, hs, rfl, (mergeRun_leafEntries_iff h _).2 rfl, hstrict, hinner, hleaves, by omega,
    fun p hp => ⟨Tree.one_le_depth hinner hp, ?_⟩⟩
  have := Tree.strict_depth hstrict p hp
  omega

/-! ## The worked example -/

/-- The counts of "aaabbc". -/
def workedCounts : FreqTable := countSymbols [0x61, 0x61, 0x61, 0x62, 0x62, 0x63]

theorem alphabet_workedCounts : alphabet workedCounts = [0x61, 0x62, 0x63] := by decide +kernel

/-- The queue the worked trace starts with, in extraction order. -/
theorem leafQueue_workedCounts :
    leafQueue workedCounts [0x61, 0x62, 0x63] 0
      = [⟨1, 2, .leaf 0x63⟩, ⟨2, 1, .leaf 0x62⟩, ⟨3, 0, .leaf 0x61⟩] := by decide +kernel

/-- Settles O28: from that queue the merge loop joins c with b, then a with their node. -/
theorem workedExampleTree : Obligations.WorkedExampleTree := by
  unfold Obligations.WorkedExampleTree
  calc buildTree workedCounts
      = mergeLoop 3 3 (leafQueue workedCounts [0x61, 0x62, 0x63] 0) := by
        rw [buildTree_eq_mergeLoop (by simp [alphabet_workedCounts]), alphabet_workedCounts]; rfl
    _ = .inner (.leaf 0x61) (.inner (.leaf 0x63) (.leaf 0x62)) := by rw [leafQueue_workedCounts]; rfl

end Sys2Proof.Machine
end

section
/-! CODE_ASSIGN: the codebook it writes, and the length of a text under a codebook (42_code_assign.md R170 to R173). -/

namespace Sys2Proof.Machine

/-! ## The codebook of a tree -/

/-- CODE_ASSIGN uses no region and its pseudocode raises nothing (42_code_assign.md R170). -/
theorem exec_codeAssign_succeeds (s : State) :
    ∃ t, exec .codeAssign s = .next t ∧ Succeeds s { s with codetab := assignCodes s.tree } [] 0 t :=
  exec_succeeds ((preCheck_eq_none_iff .codeAssign s).2 ⟨nofun, nofun, nofun⟩) rfl rfl rfl rfl

theorem Tree.mem_symbols_iff (t : Tree) (c : Symbol) : c ∈ t.paths.map Prod.fst ↔ ∃ p, t.follow p = .leaf c := by
  simp [← Tree.mem_paths]

/-- Below an `Inner` root the symbols with a code are those with a leaf: no leaf has the empty path. -/
theorem codedSymbols_assignCodes_perm {t : Tree} (hr : t.isInner = true) (hn : (t.paths.map Prod.fst).Nodup) :
    (codedSymbols (assignCodes t)).Perm (t.paths.map Prod.fst) := by
  refine (List.perm_ext_iff_of_nodup (codedSymbols_nodup _) hn).2 fun c => ?_
  rw [mem_codedSymbols]
  constructor
  · exact fun hc => List.mem_map_of_mem (mem_paths_of_codeOf_assignCodes hn hc)
  · intro hc
    obtain ⟨⟨c, p⟩, hp, rfl⟩ := List.mem_map.1 hc
    rw [codeOf_assignCodes_of_mem hn hp]
    exact Tree.path_ne_nil hr hp

theorem symCount_assignCodes {t : Tree} (h : t.Legal) : symCount (assignCodes t) = t.paths.length := by
  rw [symCount, (codedSymbols_assignCodes_perm h.rootInner h.symbolsOnce).length_eq, List.length_map]

/-- Settles O29: the walk records each leaf's path, and leaves of a tree have no descendants. -/
theorem codeAssignRecordsPaths : Obligations.CodeAssignRecordsPaths := by
  unfold Obligations.CodeAssignRecordsPaths
  intro s
  obtain ⟨t, ht, hs⟩ := exec_codeAssign_succeeds s
  refine ⟨t, assignCodes s.tree, ht, hs, fun hn => ⟨fun c p hp => ?_, fun c hc => ?_⟩, fun h => ?_⟩
  · exact codeOf_assignCodes_of_mem hn ((Tree.mem_paths s.tree c p).2 hp)
  · exact codeOf_assignCodes_of_not_mem fun hm => absurd ((Tree.mem_symbols_iff s.tree c).1 hm) (not_exists.2 hc)
  · exact ⟨h.assignCodes_legal, symCount_assignCodes h⟩

/-! ## The length of a text under a codebook -/

/-- Each occurrence of a symbol adds its code's length: the bits are the sum, over symbols among which the text's are, of
occurrences times code length (42_code_assign.md R173). -/
theorem textBits_length {tab : CodeTable} {text : List Byte} {ss : List Symbol} (hn : ss.Nodup) (hss : ∀ c ∈ text, c ∈ ss) :
    (textBits tab text).length = (ss.map fun c => text.count c * (codeOf tab c).length).sum := by
  have hsub : text.toFinset ⊆ ss.toFinset := fun c hc => List.mem_toFinset.2 (hss c (List.mem_toFinset.1 hc))
  calc (textBits tab text).length
      = (text.map fun c => (codeOf tab c).length).sum := List.length_flatMap
    _ = ∑ c ∈ text.toFinset, text.count c * (codeOf tab c).length := Finset.sum_list_map_count text _
    _ = ∑ c ∈ ss.toFinset, text.count c * (codeOf tab c).length :=
        Finset.sum_subset hsub fun c _ hc => by
          rw [List.count_eq_zero_of_not_mem (mt List.mem_toFinset.2 hc), Nat.zero_mul]
    _ = _ := List.sum_toFinset _ hn

/-! ## The cost of the merge loop's tree

A text has at most 2^28 symbols and a code at most 255 bits, which alone would not fit BITLEN. The merge loop takes the two
smallest of k weights, so each merge costs at most 2/k of the whole weight; the merges together cost at most 2 log k of it. -/

/-- The sum of the counts at a tree's leaves. -/
def Tree.weight (f : FreqTable) (t : Tree) : Nat := (t.paths.map fun p => (countOf f p.1).toNat).sum

/-- The sum of count times depth over a tree's leaves (42_code_assign.md R173). -/
def Tree.cost (f : FreqTable) (t : Tree) : Nat := (t.paths.map fun p => (countOf f p.1).toNat * p.2.length).sum

@[simp] theorem Tree.weight_leaf (f : FreqTable) (c : Symbol) : (Tree.leaf c).weight f = (countOf f c).toNat := by
  simp [Tree.weight, Tree.paths]

@[simp] theorem Tree.weight_inner (f : FreqTable) (l r : Tree) : (Tree.inner l r).weight f = l.weight f + r.weight f := by
  simp [Tree.weight, Tree.paths, Function.comp_def]

@[simp] theorem Tree.cost_absent (f : FreqTable) : Tree.absent.cost f = 0 := rfl

@[simp] theorem Tree.weight_absent (f : FreqTable) : Tree.absent.weight f = 0 := rfl

@[simp] theorem Tree.cost_leaf (f : FreqTable) (c : Symbol) : (Tree.leaf c).cost f = 0 := by
  simp [Tree.cost, Tree.paths]

/-- An `Inner` node adds a bit to the path of every leaf below it. -/
@[simp] theorem Tree.cost_inner (f : FreqTable) (l r : Tree) :
    (Tree.inner l r).cost f = l.cost f + r.cost f + (l.weight f + r.weight f) := by
  simp only [Tree.cost, Tree.weight, Tree.paths, List.map_append, List.map_map, Function.comp_def, List.length_cons,
    Nat.mul_add_one, List.sum_append, List.sum_map_add]
  omega

/-- The sum of a queue's frequencies. -/
def queueFreq (q : List QueueEntry) : Nat := (q.map QueueEntry.freq).sum

/-- The sum of the costs of a queue's nodes. -/
def queueCost (f : FreqTable) (q : List QueueEntry) : Nat := (q.map fun e => e.node.cost f).sum

@[simp] theorem queueFreq_cons (e : QueueEntry) (q : List QueueEntry) : queueFreq (e :: q) = e.freq + queueFreq q := by
  simp [queueFreq]

@[simp] theorem queueCost_cons (f : FreqTable) (e : QueueEntry) (q : List QueueEntry) :
    queueCost f (e :: q) = e.node.cost f + queueCost f q := by
  simp [queueCost]

@[simp] theorem queueFreq_enqueue (e : QueueEntry) (q : List QueueEntry) :
    queueFreq (enqueue e q) = e.freq + queueFreq q :=
  ((enqueue_perm e q).map _).sum_eq.trans (queueFreq_cons e q)

@[simp] theorem queueCost_enqueue (f : FreqTable) (e : QueueEntry) (q : List QueueEntry) :
    queueCost f (enqueue e q) = e.node.cost f + queueCost f q :=
  ((enqueue_perm e q).map _).sum_eq.trans (queueCost_cons f e q)

/-- The first two of a queue in extraction order weigh at most twice the average. -/
theorem two_smallest_le_average {a b : QueueEntry} {q : List QueueEntry}
    (h : (a :: b :: q).Pairwise fun a b => a.before b = true) :
    (q.length + 2) * (a.freq + b.freq) ≤ 2 * queueFreq (a :: b :: q) := by
  have hfreq {x y : QueueEntry} (hxy : x.before y = true) : x.freq ≤ y.freq := by
    rw [QueueEntry.before_iff] at hxy
    omega
  obtain ⟨ha, hb⟩ := List.pairwise_cons.1 h
  have hab : a.freq ≤ b.freq := hfreq (ha b List.mem_cons_self)
  have hrest : q.length * b.freq ≤ queueFreq q := by
    rw [queueFreq, ← List.length_map (as := q) QueueEntry.freq]
    refine List.card_nsmul_le_sum _ b.freq fun n hn => ?_
    obtain ⟨x, hx, rfl⟩ := List.mem_map.1 hn
    exact hfreq ((List.pairwise_cons.1 hb).1 x hx)
  have := Nat.mul_le_mul_left q.length hab
  simp only [queueFreq_cons]
  linarith

/-- The entries' frequencies are the counts at their leaves (41_frequency_tree.md R153, R154). -/
def QueueWeighs (f : FreqTable) (q : List QueueEntry) : Prop := ∀ e ∈ q, e.freq = e.node.weight f

theorem QueueWeighs.merge {f : FreqTable} {a b : QueueEntry} {q : List QueueEntry} (h : QueueWeighs f (a :: b :: q))
    (next : Nat) : QueueWeighs f (enqueue (mergedEntry next a b) q) := by
  intro e he
  rcases List.mem_cons.1 ((enqueue_perm _ q).mem_iff.1 he) with rfl | he
  · simp [mergedEntry, h a (by simp), h b (by simp)]
  · exact h e (by simp [he])

/-- A merge keeps the weight of the queue and adds the weight of the two it joins to the cost. -/
theorem queueFreq_merge (next : Nat) (a b : QueueEntry) (q : List QueueEntry) :
    queueFreq (enqueue (mergedEntry next a b) q) = queueFreq (a :: b :: q) := by
  simp [mergedEntry, Nat.add_assoc]

theorem queueCost_merge {f : FreqTable} {a b : QueueEntry} {q : List QueueEntry} (h : QueueWeighs f (a :: b :: q))
    (next : Nat) :
    queueCost f (enqueue (mergedEntry next a b) q) = queueCost f (a :: b :: q) + (a.freq + b.freq) := by
  simp only [queueCost_enqueue, queueCost_cons, mergedEntry, Tree.cost_inner, h a (by simp), h b (by simp)]
  omega

/-- A merge of a queue of `k + 1` entries that costs at most `2 / (k + 1)` of the weight is paid for by the logarithm. -/
theorem merge_cost_le_log {k x w : ℝ} (hk : 0 < k) (hw : 0 ≤ w) (h : (k + 1) * x ≤ 2 * w) :
    x + 2 * Real.log k * w ≤ 2 * Real.log (k + 1) * w := by
  have hk1 : 0 < k + 1 := by linarith
  have hlog : 1 / (k + 1) ≤ Real.log (k + 1) - Real.log k := by
    rw [← Real.log_div hk1.ne' hk.ne']
    refine le_of_eq_of_le ?_ (Real.one_sub_inv_le_log_of_pos (div_pos hk1 hk))
    field_simp
    ring
  have hx : x ≤ 2 * w * (1 / (k + 1)) := by
    rw [mul_one_div, le_div_iff₀ hk1]
    linarith
  have := mul_le_mul_of_nonneg_left hlog (show 0 ≤ 2 * w by linarith)
  linarith

/-- The merge loop's tree costs at most 2 log k times the weight more than the k trees it joins. -/
theorem mergeLoop_cost_le {f : FreqTable} {steps next : Nat} {q : List QueueEntry} (hq : q ≠ [])
    (hlen : q.length ≤ steps + 1) (hord : InOrder next q) (hw : QueueWeighs f q) :
    ((mergeLoop steps next q).cost f : ℝ) ≤ queueCost f q + 2 * Real.log q.length * queueFreq q := by
  induction steps generalizing next q with
  | zero =>
    match q, hq, hlen with
    | [a], _, _ => simp [mergeLoop_singleton, queueCost]
  | succ steps ih =>
    match q, hq with
    | [a], _ => simp [mergeLoop_singleton, queueCost]
    | a :: b :: q, _ =>
      have hlength := (enqueue_perm (mergedEntry next a b) q).length_eq
      rw [List.length_cons] at hlength
      have hne : enqueue (mergedEntry next a b) q ≠ [] := List.ne_nil_of_length_eq_add_one hlength
      have hlen' : (enqueue (mergedEntry next a b) q).length ≤ steps + 1 := by
        rw [hlength]
        exact Nat.le_of_succ_le_succ hlen
      have hrest := ih hne hlen' hord.merge (hw.merge next)
      have haverage : ((q.length + 2 : ℕ) : ℝ) * (a.freq + b.freq : ℕ) ≤ 2 * queueFreq (a :: b :: q) := by
        exact_mod_cast two_smallest_le_average hord.sorted
      have hmerge := merge_cost_le_log (k := (q.length + 1 : ℕ)) (x := (a.freq + b.freq : ℕ))
        (w := queueFreq (a :: b :: q)) (by positivity) (by positivity) (by push_cast at haverage ⊢; linarith)
      rw [mergeLoop_cons_cons]
      rw [hlength, queueCost_merge hw, queueFreq_merge, Nat.cast_add] at hrest
      simp only [List.length_cons, Nat.cast_add_one (q.length + 1)]
      linarith

/-- The initial entries are the symbols' leaves with their counts (41_frequency_tree.md R153). -/
theorem mem_leafQueue {f : FreqTable} {ss : List Symbol} {k : Nat} {e : QueueEntry} (h : e ∈ leafQueue f ss k) :
    ∃ c, e.node = .leaf c ∧ e.freq = (countOf f c).toNat := by
  obtain ⟨p, -, rfl⟩ := List.mem_map.1 ((leafQueue_perm f ss k).mem_iff.1 h)
  exact ⟨p.1, rfl, rfl⟩

theorem queueWeighs_leafQueue (f : FreqTable) (ss : List Symbol) (k : Nat) : QueueWeighs f (leafQueue f ss k) := by
  intro e he
  obtain ⟨c, hnode, hfreq⟩ := mem_leafQueue he
  rw [hnode, hfreq, Tree.weight_leaf]

theorem queueCost_leafQueue (f : FreqTable) (ss : List Symbol) (k : Nat) : queueCost f (leafQueue f ss k) = 0 := by
  refine List.sum_eq_zero fun n hn => ?_
  obtain ⟨e, he, rfl⟩ := List.mem_map.1 hn
  obtain ⟨c, hnode, -⟩ := mem_leafQueue he
  rw [hnode, Tree.cost_leaf]

theorem queueFreq_leafQueue (f : FreqTable) (ss : List Symbol) (k : Nat) :
    queueFreq (leafQueue f ss k) = (ss.map fun c => (countOf f c).toNat).sum := by
  induction ss generalizing k with
  | nil => rfl
  | cons c ss ih => simp [leafQueue, ih]

theorem sum_alphabet_le_totalCount (f : FreqTable) :
    ((alphabet f).map fun c => (countOf f c).toNat).sum ≤ totalCount f :=
  (List.filter_sublist.map _).sum_le_sum fun _ _ => Nat.zero_le _

/-- An alphabet has at most 256 symbols, and 2 log 256 is less than 12. -/
theorem two_log_alphabet_le {f : FreqTable} (h : 2 ≤ (alphabet f).length) : 2 * Real.log (alphabet f).length ≤ 12 := by
  have h256 : Real.log (alphabet f).length ≤ Real.log (2 ^ 8 : ℕ) :=
    Real.log_le_log (Nat.cast_pos.2 (by omega)) (Nat.cast_le.2 (alphabet_length_le f))
  rw [Nat.cast_pow, Real.log_pow] at h256
  have := Real.log_two_lt_d9
  push_cast at h256
  linarith

theorem buildTree_cost_le_of_two_le {f : FreqTable} (h : 2 ≤ (alphabet f).length) :
    (buildTree f).cost f ≤ 12 * ((alphabet f).map fun c => (countOf f c).toNat).sum := by
  obtain ⟨hlen, -, -⟩ := leafQueue_spec f (alphabet f) 0
  have hcost := mergeLoop_cost_le (steps := (alphabet f).length) (List.ne_nil_of_length_pos (by rw [hlen]; omega))
    (by omega) (inOrder_leafQueue f (alphabet f)) (queueWeighs_leafQueue f (alphabet f) 0)
  rw [← buildTree_eq_mergeLoop h, queueCost_leafQueue, queueFreq_leafQueue, hlen, Nat.cast_zero, zero_add] at hcost
  exact_mod_cast hcost.trans (mul_le_mul_of_nonneg_right (two_log_alphabet_le h) (Nat.cast_nonneg _))

/-- The tree of the counts costs at most 12 bits for each symbol counted. -/
theorem buildTree_cost_le (f : FreqTable) : (buildTree f).cost f ≤ 12 * totalCount f := by
  have hsum := sum_alphabet_le_totalCount f
  rcases hA : alphabet f with _ | ⟨c, _ | ⟨d, ss⟩⟩
  · simp [buildTree_of_empty hA, emptyRoot]
  · rw [hA] at hsum
    simp only [List.map_cons, List.map_nil, List.sum_singleton] at hsum
    simp only [buildTree_of_single hA, Tree.cost_inner, Tree.cost_leaf, Tree.cost_absent, Tree.weight_leaf,
      Tree.weight_absent]
    omega
  · exact (buildTree_cost_le_of_two_le (by simp [hA])).trans (Nat.mul_le_mul_left 12 hsum)

/-- The bits of a text under the codebook of its counts are the cost of their tree. -/
theorem textBits_length_eq_cost {f : FreqTable} {text : List Byte} (hf : ∀ c, (countOf f c).toNat = text.count c) :
    (textBits (assignCodes (buildTree f)) text).length = (buildTree f).cost f := by
  have hcover : ∀ c ∈ text, c ∈ (buildTree f).paths.map Prod.fst := fun c hc =>
    (buildTree_symbols f).mem_iff.2 ((mem_alphabet f c).2 (by rw [hf]; exact List.count_pos_iff.2 hc))
  rw [textBits_length (buildTree_nodup f) hcover, List.map_map, Tree.cost]
  refine congrArg List.sum (List.map_congr_left fun p hp => ?_)
  rw [Function.comp_apply, hf, codeOf_assignCodes_of_mem (buildTree_nodup f) hp]

/-! ## The bits ENCODE_FRAME writes -/

/-- A completion with ERR = 0 is a success of the command's pseudocode (40_command_common.md R134, R137). -/
theorem exec_success_of_err {i : Instr} {s t : State} (h : exec i s = .next t) (herr : t.err = false) :
    ∃ u out n, ending i s = .success u out n ∧ Succeeds s u out n t := by
  rcases exec_inversion h with ⟨_, _, -, -, rfl⟩ | ⟨u, out, n, -, hend, -, hs⟩ | ⟨_, _, _, -, -, -, -, -, hf⟩
  · cases herr
  · exact ⟨u, out, n, hend, hs⟩
  · rw [hf.registers] at herr
    cases herr

/-- A success of ENCODE_FRAME keeps the rebuilt tables and puts the number of the text's bits into BITLEN
(45_payload.md R215). -/
theorem encodeFrame_success {s u : State} {out : List Byte} {n : Nat} (h : ending .encodeFrame s = .success u out n) :
    u = { s.rebuildFromSource with
      bitlen := BitVec.ofNat 32 (textBits s.rebuildFromSource.codetab s.source).length } := by
  simp only [ending, encodeFrameEnding] at h
  split at h
  · cases h
  · cases h
    rfl

theorem State.countOf_rebuildFromSource (s : State) (c : Symbol) :
    (countOf s.rebuildFromSource.freq c).toNat = s.source.count c :=
  countOf_countSymbols s.source (source_lt s) c

/-- BITLEN has room for the bits of the source text: BUF has at most 2^28 bytes (00_scope.md R10), and the rebuilt codes
spend at most 12 bits a byte on average. -/
theorem State.rebuilt_textBits_lt {s : State} (hcfg : s.cfg.legal = true) (hsrc : s.SrcInside) :
    (textBits s.rebuildFromSource.codetab s.source).length < 2 ^ 32 := by
  have hbits : (textBits s.rebuildFromSource.codetab s.source).length ≤ 12 * totalCount s.rebuildFromSource.freq :=
    (textBits_length_eq_cost s.countOf_rebuildFromSource).trans_le (buildTree_cost_le _)
  have htotal : totalCount s.rebuildFromSource.freq = s.srcLen.toNat :=
    (totalCount_countSymbols (source_lt s)).trans s.source_length
  simp only [Config.legal, Bool.and_eq_true, decide_eq_true_eq] at hcfg
  unfold State.SrcInside at hsrc
  omega

/-- Settles O45: BITLEN is the number of the text's bits, and FREQ the occurrences of its symbols. -/
theorem encodedLengthIsWeightedSum : Obligations.EncodedLengthIsWeightedSum := by
  unfold Obligations.EncodedLengthIsWeightedSum
  intro s t hcfg hregions ht herr
  obtain ⟨u, out, n, hend, hs⟩ := exec_success_of_err ht herr
  obtain rfl := encodeFrame_success hend
  rw [hs.registers]
  simp only [State.countOf_rebuildFromSource]
  rw [BitVec.toNat_ofNat, Nat.mod_eq_of_lt (State.rebuilt_textBits_lt hcfg hregions.src),
    textBits_length allSymbols_nodup fun c _ => mem_allSymbols c]

end Sys2Proof.Machine
end

section
/-! BIT_PACK and BIT_UNPACK: the bits each of them reads and writes, that the second undoes the first, and that pad bits are
never seen (43_bitpack.md R180 to R183; 30_encoding.md R95 to R97). -/

namespace Sys2Proof.Machine

/-! ## The bits a command reads from its source -/

/-- The bits BIT_PACK packs: bit 0 of each source byte (43_bitpack.md R180). -/
def State.sourceLowBits (s : State) : List Bool := s.source.map byteBit

@[simp] theorem State.sourceLowBits_length (s : State) : s.sourceLowBits.length = s.srcLen.toNat := by
  simp [State.sourceLowBits]

theorem State.sourceLowBits_getElem? (s : State) {i : Nat} (h : i < s.srcLen.toNat) :
    s.sourceLowBits[i]? = some (byteBit (s.byteAt (s.srcAddr.toNat + i))) := by
  rw [State.sourceLowBits, List.getElem?_map, State.source_getElem?, if_pos h, Option.map_some]

/-- Past the end of the source the bits read as the pad bit (30_encoding.md R95). -/
theorem State.sourceLowBits_getD (s : State) (i : Nat) :
    s.sourceLowBits.getD i false =
      if i < s.srcLen.toNat then (s.byteAt (s.srcAddr.toNat + i)).getLsbD 0 else false := by
  rw [List.getD_eq_getElem?_getD]
  split
  next h => rw [s.sourceLowBits_getElem? h, Option.getD_some, byteBit]
  next h => rw [List.getElem?_eq_none (by simpa using h), Option.getD_none]

/-- The bits BIT_UNPACK and DECODE_PAYLOAD read: the first BITLEN bits of the source (43_bitpack.md R181; 45_payload.md
R211). -/
def State.unpackedSource (s : State) : List Bool := unpack (s.sourceFront (ceil8 s.bitlen.toNat)) s.bitlen.toNat

@[simp] theorem State.unpackedSource_length (s : State) : s.unpackedSource.length = s.bitlen.toNat := unpack_length _ _

theorem State.packedBit_sourceFront (s : State) {m i : Nat} (h : i / 8 < m) :
    packedBit (s.sourceFront m) i = (s.byteAt (s.srcAddr.toNat + i / 8)).getLsbD (7 - i % 8) := by
  rw [packedBit, List.getD_eq_getElem?_getD, State.sourceFront, State.memRead_getElem?, if_pos h, Option.getD_some]

theorem State.packedBit_sourceFront_bitlen (s : State) {i : Nat} (h : i < s.bitlen.toNat) :
    packedBit (s.sourceFront (ceil8 s.bitlen.toNat)) i = (s.byteAt (s.srcAddr.toNat + i / 8)).getLsbD (7 - i % 8) :=
  s.packedBit_sourceFront (by unfold ceil8; omega)

theorem State.unpackedSource_getElem? (s : State) {i : Nat} (h : i < s.bitlen.toNat) :
    s.unpackedSource[i]? = some ((s.byteAt (s.srcAddr.toNat + i / 8)).getLsbD (7 - i % 8)) := by
  rw [State.unpackedSource, unpack_getElem?, if_pos h, s.packedBit_sourceFront_bitlen h]

/-- The bits read depend on the first BITLEN bits of the source only, never on the last byte's pad bits (43_bitpack.md
R183). -/
theorem State.unpackedSource_congr {s₁ s₂ : State} (hlen : s₂.bitlen = s₁.bitlen)
    (h : ∀ k < s₁.bitlen.toNat, (s₁.byteAt (s₁.srcAddr.toNat + k / 8)).getLsbD (7 - k % 8)
      = (s₂.byteAt (s₂.srcAddr.toNat + k / 8)).getLsbD (7 - k % 8)) : s₂.unpackedSource = s₁.unpackedSource := by
  rw [State.unpackedSource, State.unpackedSource, hlen]
  refine unpack_congr fun i hi => ?_
  rw [← hlen, s₂.packedBit_sourceFront_bitlen (hlen ▸ hi), hlen, s₁.packedBit_sourceFront_bitlen hi, h i hi]

/-- A source that begins with a packed bit sequence, read with BITLEN its length, gives the sequence (43_bitpack.md R182). -/
theorem State.unpackedSource_of_pack {u : State} {bits : List Bool} {rest : List Byte} (hsrc : u.source = pack bits ++ rest)
    (hlen : u.bitlen.toNat = bits.length) : u.unpackedSource = bits := by
  have hroom : ceil8 bits.length ≤ u.srcLen.toNat := by
    rw [← u.source_length, hsrc, List.length_append, pack_length]
    exact Nat.le_add_right _ _
  rw [State.unpackedSource, hlen, u.sourceFront_eq_take hroom, hsrc, List.take_left' (pack_length bits), unpack_pack]

/-! ## How the two commands and DECODE_PAYLOAD end -/

theorem ending_bitPack (s : State) :
    ending .bitPack s =
      if s.dstCap.toNat < ceil8 s.srcLen.toNat then .error s .capacity 0
      else .success { s with bitlen := s.srcLen } (pack s.sourceLowBits) s.srcLen.toNat := by
  have hlen : (pack s.sourceLowBits).length = ceil8 s.srcLen.toNat := by simp
  rw [← hlen]
  rfl

theorem ending_bitUnpack (s : State) :
    ending .bitUnpack s =
      if 8 * s.srcLen.toNat < s.bitlen.toNat then .error s .shortInput 0
      else if s.dstCap.toNat < s.bitlen.toNat then .error s .capacity 0
      else .success s (s.unpackedSource.map bitByte) (ceil8 s.bitlen.toNat) := rfl

theorem ending_bitUnpack_success {s : State} (hsrc : s.bitlen.toNat ≤ 8 * s.srcLen.toNat)
    (hdst : s.bitlen.toNat ≤ s.dstCap.toNat) :
    ending .bitUnpack s = .success s (s.unpackedSource.map bitByte) (ceil8 s.bitlen.toNat) := by
  rw [ending_bitUnpack, if_neg (not_lt.2 hsrc), if_neg (not_lt.2 hdst)]

/-- BIT_UNPACK sees BUF through the bits it unpacks only (43_bitpack.md R183). -/
theorem ending_bitUnpack_withBuf {s : State} {b : Memory}
    (h : State.unpackedSource { s with buf := b } = s.unpackedSource) :
    ending .bitUnpack { s with buf := b } = (ending .bitUnpack s).withBuf b := by
  simp only [ending_bitUnpack, h]
  split
  · rfl
  · split <;> rfl

/-- DECODE_PAYLOAD sees BUF through the bits it unpacks only (43_bitpack.md R183; 45_payload.md R211). -/
theorem ending_decodePayload_withBuf {s : State} {b : Memory}
    (h : State.unpackedSource { s with buf := b } = s.unpackedSource) :
    ending .decodePayload { s with buf := b } = (ending .decodePayload s).withBuf b := by
  simp only [State.unpackedSource] at h
  simp only [ending, decodePayloadEnding, h]
  split
  · rfl
  · split <;> rfl

/-! ## Packing and unpacking -/

/-- A successful BIT_PACK wrote the packed low bits of its source (43_bitpack.md R180). -/
theorem bitPack_success {s t : State} (h : exec .bitPack s = .next t) (herr : t.err = false) :
    Succeeds s { s with bitlen := s.srcLen } (pack s.sourceLowBits) s.srcLen.toNat t ∧
      t.outLen.toNat = (pack s.sourceLowBits).length := by
  obtain ⟨u, out, n, hend, hs⟩ := exec_success_of_err h herr
  have hlen : t.outLen.toNat = out.length := by rw [hs.registers]; exact out_toNat hend
  rw [ending_bitPack] at hend
  split at hend
  · cases hend
  · cases hend
    exact ⟨hs, hlen⟩

/-- The bit-per-byte form of a byte's bit 0 is the byte with bits 7:1 cleared (30_encoding.md R97). -/
theorem bitByte_byteBit (b : Byte) : bitByte (byteBit b) = b &&& 1 := by
  rw [bitByte, byteBit]
  refine Eq.trans ?_ (BitVec.and_one_eq_setWidth_ofBool_getLsbD (x := b)).symm
  cases b.getLsbD 0 <;> rfl

/-- Settles O32: BIT_UNPACK's source begins with BIT_PACK's output, so it unpacks the bits that were packed. -/
theorem bitPackRoundTrip : Obligations.BitPackRoundTrip := by
  unfold Obligations.BitPackRoundTrip
  refine ⟨fun bits _ => unpack_pack bits, fun s t u _ ht herr hu hbitlen hsrc hfits hroom hkept => ?_⟩
  obtain ⟨hs, hout⟩ := bitPack_success ht herr
  have hn : u.bitlen = s.srcLen := by rw [hbitlen, hs.registers]
  rw [hout] at hfits hkept
  obtain ⟨rest, hsource⟩ := source_of_output (congrArg BitVec.toNat hsrc) hfits fun k hk =>
    (hkept k hk).trans (hs.written k hk)
  have hbits : u.unpackedSource = s.sourceLowBits :=
    State.unpackedSource_of_pack hsource (by rw [hn, State.sourceLowBits_length])
  have hshort : u.bitlen.toNat ≤ 8 * u.srcLen.toNat := by
    rw [hn, ← ceil8_le_iff]
    simpa using hfits
  obtain ⟨v, hv, hsv⟩ := exec_succeeds (preCheck_eq_none_of_regionsOk hu .bitUnpack)
    (ending_bitUnpack_success hshort (hn ▸ hroom)) rfl rfl rfl
  rw [hbits] at hsv
  refine ⟨v, hv, by rw [hsv.registers], by rw [hsv.registers]; simp, fun k hk => ?_⟩
  rw [hsv.written k (by simpa using hk), List.getElem?_map, s.sourceLowBits_getElem? hk, Option.map_some, bitByte_byteBit]

/-- Settles O30: the output is the packed low bits of the source, and packing fixes each bit, those past the end too. -/
theorem bitPackPacksMsbFirst : Obligations.BitPackPacksMsbFirst := by
  unfold Obligations.BitPackPacksMsbFirst
  intro s hok
  have hpre := preCheck_eq_none_of_regionsOk hok .bitPack
  refine ⟨fun hfits => ?fits, fun hfull => ?full⟩
  case fits =>
    obtain ⟨t, ht, hs⟩ := exec_succeeds hpre ((ending_bitPack s).trans (if_neg (not_lt.2 hfits))) rfl rfl rfl
    refine ⟨t, pack s.sourceLowBits, ht, hs, by rw [pack_length, s.sourceLowBits_length, ceil8], fun i _ => ?_⟩
    exact (packedBit_pack _ i).trans (s.sourceLowBits_getD i)
  case full => exact exec_fails hpre ((ending_bitPack s).trans (if_pos hfull)) (by decide) rfl rfl rfl rfl

/-- Settles O31: one clause per way BIT_UNPACK ends. -/
theorem bitUnpackUnpacksMsbFirst : Obligations.BitUnpackUnpacksMsbFirst := by
  unfold Obligations.BitUnpackUnpacksMsbFirst
  intro s hok
  have hpre := preCheck_eq_none_of_regionsOk hok .bitUnpack
  refine ⟨fun hsrc hdst => ?success, fun hshort => ?short, fun hsrc hfull => ?full⟩
  case success =>
    obtain ⟨t, ht, hs⟩ := exec_succeeds hpre (ending_bitUnpack_success hsrc hdst) rfl rfl rfl
    refine ⟨t, s.unpackedSource.map bitByte, ht, hs, by simp, fun i hi => ?_⟩
    rw [List.getElem?_map, s.unpackedSource_getElem? hi, Option.map_some, bitByte]
  case short => exact exec_fails hpre ((ending_bitUnpack s).trans (if_pos hshort)) (by decide) rfl rfl rfl rfl
  case full =>
    have hend := (ending_bitUnpack s).trans ((if_neg (not_lt.2 hsrc)).trans (if_pos hfull))
    exact exec_fails hpre hend (by decide) rfl rfl rfl rfl

/-- Settles O33: both commands read BUF through `Unpack` of BITLEN bits only. -/
theorem paddingIsInvisible : Obligations.PaddingIsInvisible := by
  unfold Obligations.PaddingIsInvisible
  refine ⟨fun p q n h => unpack_congr h, fun i s₁ s₂ hi hs hbits => exec_withBuf i s₁ s₂ hs fun _ => ?_⟩
  have hsame := State.unpackedSource_congr (by rw [hs]) hbits
  rw [hs] at hsame
  refine (congrArg (ending i) hs).trans ?_
  rcases hi with rfl | rfl
  · exact ending_bitUnpack_withBuf hsame
  · exact ending_decodePayload_withBuf hsame

end Sys2Proof.Machine
end

section
/-! The codebook block: what CB_SERIALIZE writes, which blocks CB_PARSE and DECODE_FRAME accept, the codebook they take and the
errors they raise (44_codebook.md R190 to R200; 45_payload.md R216). -/

namespace Sys2Proof.Machine

/-! ## CB_SERIALIZE -/

/-- CB_SERIALIZE uses the destination region only. -/
theorem preCheck_cbSerialize {s : State} (h : s.DstInside) : preCheck .cbSerialize s = none :=
  (preCheck_eq_none_iff .cbSerialize s).2 ⟨nofun, fun _ => h, nofun⟩

theorem ending_cbSerialize (s : State) :
    ending .cbSerialize s =
      if s.dstCap.toNat < (serializeBlock s.cfg.wireBE s.codetab).length then .error s .capacity 0
      else .success s (serializeBlock s.cfg.wireBE s.codetab) 0 := rfl

/-- A block that fits DST_CAP is written (44_codebook.md R190). -/
theorem exec_cbSerialize_succeeds {s : State} (hd : s.DstInside)
    (hfits : (serializeBlock s.cfg.wireBE s.codetab).length ≤ s.dstCap.toNat) :
    ∃ t, exec .cbSerialize s = .next t ∧ Succeeds s s (serializeBlock s.cfg.wireBE s.codetab) 0 t :=
  exec_succeeds (preCheck_cbSerialize hd) ((ending_cbSerialize s).trans (if_neg (not_lt.2 hfits))) rfl rfl rfl

/-- A block that does not fit DST_CAP raises CAPACITY (44_codebook.md R190). -/
theorem exec_cbSerialize_fails {s : State} (hd : s.DstInside)
    (hfull : s.dstCap.toNat < (serializeBlock s.cfg.wireBE s.codetab).length) :
    ∃ t, exec .cbSerialize s = .next t ∧ Fails s s .capacity 0 t :=
  exec_fails (preCheck_cbSerialize hd) ((ending_cbSerialize s).trans (if_pos hfull)) (by decide) rfl rfl rfl rfl

/-- A successful CB_SERIALIZE wrote its table's block, and OUT_LEN holds the block's length (44_codebook.md R190). -/
theorem cbSerialize_success {s t : State} (h : exec .cbSerialize s = .next t) (herr : t.err = false) :
    Succeeds s s (serializeBlock s.cfg.wireBE s.codetab) 0 t ∧
      t.outLen.toNat = (serializeBlock s.cfg.wireBE s.codetab).length := by
  obtain ⟨u, out, n, hend, hs⟩ := exec_success_of_err h herr
  have hlen : t.outLen.toNat = out.length := by rw [hs.registers]; exact out_toNat hend
  rw [ending_cbSerialize] at hend
  split at hend
  · cases hend
  · cases hend
    exact ⟨hs, hlen⟩

theorem tableEntries_symbols (tab : CodeTable) : (tableEntries tab).map WireEntry.symbol = codedSymbols tab := by
  simp [tableEntries, Function.comp_def]

theorem codedSymbols_pairwise (tab : CodeTable) : (codedSymbols tab).Pairwise fun a b => a.toNat < b.toNat :=
  allSymbols_pairwise.filter _

theorem tableEntries_body_length (tab : CodeTable) : ∀ e ∈ tableEntries tab, e.body.length = ceil8 e.code.length := by
  intro e he
  obtain ⟨-, -, hbody⟩ := (mem_tableEntries tab e).1 he
  rw [hbody, pack_length]

/-- Settles O34: the entries are those CODETAB is serialized to, and the block written is theirs. -/
theorem cbSerializeWritesBlock : Obligations.CbSerializeWritesBlock := by
  unfold Obligations.CbSerializeWritesBlock
  intro s hd
  refine ⟨tableEntries s.codetab, ?ascending, mem_tableEntries s.codetab,
    blockBytes_length _ _ _ (tableEntries_body_length s.codetab), ?fits, ?full⟩
  case ascending => rw [tableEntries_symbols]; exact codedSymbols_pairwise s.codetab
  case fits => rw [← serializeBlock_eq]; exact exec_cbSerialize_succeeds hd
  case full => rw [← serializeBlock_eq]; exact exec_cbSerialize_fails hd

/-! ## How CB_PARSE and DECODE_FRAME end by what the source parses to -/

/-- CB_PARSE uses the source region only. -/
theorem preCheck_cbParse {s : State} (h : s.SrcInside) : preCheck .cbParse s = none :=
  (preCheck_eq_none_iff .cbParse s).2 ⟨fun _ => h, nofun, nofun⟩

theorem ending_cbParse_of_ok {s : State} {b : ParsedBlock} (h : parseBlock s.cfg.wireBE s.source = .ok b) :
    ending .cbParse s = .success (s.loadCodebook b) [] b.used := by
  simp only [ending, cbParseEnding, h]

theorem ending_cbParse_of_error {s : State} {e : ErrCode} {info : Nat}
    (h : parseBlock s.cfg.wireBE s.source = .error (e, info)) :
    ending .cbParse s = .error s.clearCodebook e info := by
  simp only [ending, cbParseEnding, h]

theorem ending_decodeFrame_of_error {s : State} {e : ErrCode} {info : Nat}
    (h : parseBlock s.cfg.wireBE s.source = .error (e, info)) :
    ending .decodeFrame s = .error s.clearCodebook e info := by
  simp only [ending, decodeFrameEnding, h]

/-- A source that parses gives TREE and CODETAB its codebook and IN_USED its length (44_codebook.md R193). -/
theorem exec_cbParse_succeeds {s : State} {b : ParsedBlock} (hs : s.SrcInside)
    (h : parseBlock s.cfg.wireBE s.source = .ok b) :
    ∃ t, exec .cbParse s = .next t ∧ Succeeds s (s.loadCodebook b) [] b.used t :=
  exec_succeeds (preCheck_cbParse hs) (ending_cbParse_of_ok h) rfl rfl rfl

/-- A source that does not parse raises ParseBlock's error, with the codebook cleared (44_codebook.md R198). -/
theorem exec_cbParse_fails {s : State} {e : ErrCode} {info : Nat} (hs : s.SrcInside)
    (h : parseBlock s.cfg.wireBE s.source = .error (e, info)) :
    ∃ t, exec .cbParse s = .next t ∧ Fails s s.clearCodebook e info t :=
  exec_fails (preCheck_cbParse hs) (ending_cbParse_of_error h) (parseBlock_err h) rfl rfl rfl rfl

/-- An error-free CB_PARSE had a source that parses, and took that codebook. -/
theorem cbParse_success {s t : State} (h : exec .cbParse s = .next t) (herr : t.err = false) :
    ∃ b, parseBlock s.cfg.wireBE s.source = .ok b ∧ t.tree = b.tree ∧ t.codetab = b.codetab ∧
      t.inUsed = BitVec.ofNat 32 b.used := by
  obtain ⟨u, out, n, hend, hs⟩ := exec_success_of_err h herr
  cases hb : parseBlock s.cfg.wireBE s.source with
  | error r => rw [ending_cbParse_of_error hb] at hend; cases hend
  | ok b =>
    rw [ending_cbParse_of_ok hb] at hend
    cases hend
    exact ⟨b, rfl, by rw [hs.registers]; rfl, by rw [hs.registers]; rfl, by rw [hs.registers]⟩

/-- A CB_PARSE error with the source inside BUF is ParseBlock's, in the error registers. -/
theorem cbParse_error {s t : State} (hs : s.SrcInside) (h : exec .cbParse s = .next t) (herr : t.err = true) :
    ∃ info, parseBlock s.cfg.wireBE s.source = .error (t.errcode, info) ∧ t.errInfo = BitVec.ofNat 32 info := by
  cases hb : parseBlock s.cfg.wireBE s.source with
  | error r =>
    obtain ⟨t', ht', hf⟩ := exec_cbParse_fails hs hb
    obtain rfl : t' = t := by simpa [ht'] using h
    exact ⟨r.2, by rw [hf.registers], by rw [hf.registers]⟩
  | ok b =>
    obtain ⟨t', ht', hsucc⟩ := exec_cbParse_succeeds hs hb
    obtain rfl : t' = t := by simpa [ht'] using h
    rw [hsucc.registers] at herr
    cases herr

/-- ERR_INFO keeps the low 32 bits of what was raised. -/
theorem Fails.of_ofNat_info {s u t : State} {e : ErrCode} {info : Nat} {w : Word} (h : Fails s u e info t)
    (hw : w = BitVec.ofNat 32 info) : Fails s u e w.toNat t :=
  ⟨by rw [BitVec.ofNat_toNat, BitVec.setWidth_eq, hw]; exact h.registers, h.unspecified, h.untouched⟩

/-- Settles O48: CB_PARSE's error is that of ParseBlock, which DECODE_FRAME runs on the same source. -/
theorem decodeFrameBlockErrors : Obligations.DecodeFrameBlockErrors := by
  unfold Obligations.DecodeFrameBlockErrors
  intro s t u hok ht herr hu
  obtain ⟨info, hparse, hinfo⟩ := cbParse_error hok.src ht herr
  obtain ⟨u', hu', hf⟩ := exec_fails (preCheck_eq_none_of_regionsOk hok .decodeFrame)
    (ending_decodeFrame_of_error hparse) (parseBlock_err hparse) rfl rfl rfl rfl
  obtain rfl : u' = u := by simpa [hu'] using hu
  exact hf.of_ofNat_info hinfo

/-! ## The blocks CB_PARSE accepts -/

/-- The properties of a parsed codebook (44_codebook.md R199). -/
theorem Holds.parsed {t : Tree} {tab : CodeTable} {es : List WireEntry} (h : Holds t tab es) (hv : ValidEntries es) :
    PrefixFree tab ∧ symCount tab = es.length ∧ HoldsEntries tab es ∧ LeavesAre t es ∧ assignCodes t = tab ∧
      t.nodes = 1 + (properPrefixes es).length + es.length :=
  ⟨(h.codesLegal hv).prefixFree, h.symCount_eq hv, h.codes, h.leavesAre, h.assignCodes_eq hv, h.nodes_eq⟩

/-- CB_PARSE takes the codebook of every block of valid entries, whatever follows it (44_codebook.md R193). -/
theorem exec_cbParse_valid {s : State} {es : List WireEntry} {rest : List Byte} (hs : s.SrcInside) (hl : es.length ≤ 256)
    (hv : ValidEntries es) (hsrc : s.source = blockBytes s.cfg.wireBE es.length es ++ rest) :
    ∃ t b, exec .cbParse s = .next t ∧
      Succeeds s (s.loadCodebook b) [] (blockBytes s.cfg.wireBE es.length es).length t ∧ Holds b.tree b.codetab es := by
  obtain ⟨b, hb, hholds, hused⟩ := parse_valid (be := s.cfg.wireBE) (rest := rest) hl hv
  rw [← hsrc] at hb
  obtain ⟨t, ht, hsucc⟩ := exec_cbParse_succeeds hs hb
  exact ⟨t, b, ht, hused ▸ hsucc, hholds⟩

/-- Settles O35: parsing steps over every valid entry, and what it then holds has the properties. -/
theorem cbParseAcceptsValidBlocks : Obligations.CbParseAcceptsValidBlocks := by
  unfold Obligations.CbParseAcceptsValidBlocks
  intro s es rest hs hl hv hsrc
  obtain ⟨t, b, ht, hsucc, hholds⟩ := exec_cbParse_valid hs hl hv hsrc
  exact ⟨t, b.tree, b.codetab, ht, hsucc, hholds.parsed hv⟩

/-- IN_USED has room for the length of a block in the source region. -/
theorem toNat_ofNat_used {s : State} {b : ParsedBlock} (h : parseBlock s.cfg.wireBE s.source = .ok b) :
    (BitVec.ofNat 32 b.used).toNat = b.used :=
  Nat.mod_eq_of_lt ((parseBlock_used h).trans_lt (source_lt s))

/-- Settles O36: a source that parses starts with a block of valid entries, which the parse then holds. -/
theorem cbParseAcceptsOnlyValidBlocks : Obligations.CbParseAcceptsOnlyValidBlocks := by
  unfold Obligations.CbParseAcceptsOnlyValidBlocks
  intro s t _ ht herr
  obtain ⟨b, hb, htree, hcodetab, hinUsed⟩ := cbParse_success ht herr
  obtain ⟨es, rest, hl, hv, hsrc, hused, hholds⟩ := parseBlock_ok hb
  rw [htree, hcodetab, hinUsed, toNat_ofNat_used hb]
  exact ⟨es, rest, hl, hv, hsrc, hused, hholds.parsed hv⟩

/-! ## Errors of the count field -/

theorem parseBlock_of_short (be : Bool) {src : List Byte} (h : src.length < 4) :
    parseBlock be src = .error (.shortInput, 0) := if_pos h

theorem parseBlock_of_large_count {be : Bool} {src : List Byte} (h : 4 ≤ src.length) (hcount : 256 < wireU32 be src) :
    parseBlock be src = .error (.malformedCodebook, 0xFFFFFFFF) :=
  (if_neg (not_lt.2 h)).trans (if_pos hcount)

/-- Settles O37: ParseBlock's two checks before the first entry. -/
theorem cbParseCountErrors : Obligations.CbParseCountErrors := by
  unfold Obligations.CbParseCountErrors
  intro s hs
  have hlen := s.source_length
  refine ⟨fun hshort => ?short, fun hfour hcount => ?count⟩
  case short => exact exec_cbParse_fails hs (parseBlock_of_short _ (hlen ▸ hshort))
  case count => exact exec_cbParse_fails hs (parseBlock_of_large_count (hlen ▸ hfour) hcount)

/-! ## Errors at an entry -/

theorem toNat_ne_zero {b : Byte} (h : b ≠ 0) : b.toNat ≠ 0 := fun h0 => h (BitVec.eq_of_toNat_eq h0)

section
variable {left e p : Nat} {x len : Byte} {body : List Byte} {t : Tree} {tab : CodeTable}

theorem parseEntries_nil : parseEntries (left + 1) e p [] t tab = .error (.shortInput, p) := rfl

theorem parseEntries_singleton : parseEntries (left + 1) e p [x] t tab = .error (.shortInput, p + 1) := rfl

theorem parseEntries_of_length_zero (h : len = 0) :
    parseEntries (left + 1) e p (x :: len :: body) t tab = .error (.malformedCodebook, e) :=
  if_pos (congrArg BitVec.toNat h)

theorem parseEntries_of_short_code (h : len ≠ 0) (hbody : body.length < ceil8 len.toNat) :
    parseEntries (left + 1) e p (x :: len :: body) t tab = .error (.shortInput, p + 2) :=
  (if_neg (toNat_ne_zero h)).trans (if_pos hbody)

theorem parseEntries_of_repeated_symbol (h : len ≠ 0) (hbody : ceil8 len.toNat ≤ body.length)
    (hx : (codeOf tab x).length ≠ 0) :
    parseEntries (left + 1) e p (x :: len :: body) t tab = .error (.malformedCodebook, e) :=
  (if_neg (toNat_ne_zero h)).trans ((if_neg (not_lt.2 hbody)).trans (if_pos hx))

theorem parseEntries_of_conflict (h : len ≠ 0) (hbody : ceil8 len.toNat ≤ body.length)
    (hx : (codeOf tab x).length = 0) (hc : insertLeaf x (unpack body len.toNat) t = none) :
    parseEntries (left + 1) e p (x :: len :: body) t tab = .error (.malformedCodebook, e) := by
  rw [← unpack_take body _ _ (ceil8_mul len.toNat)] at hc
  rw [parseEntries]
  simp only [hc]
  exact (if_neg (toNat_ne_zero h)).trans ((if_neg (not_lt.2 hbody)).trans (if_neg (not_not.2 hx)))

end

/-- After valid entries CB_PARSE fails as the entry stage does on the bytes that follow them, whatever tree and table hold
the entries (44_codebook.md R195, R198). -/
theorem exec_cbParse_fails_after {s : State} {es : List WireEntry} {left : Nat} {rest : List Byte} {e : ErrCode}
    {info : Nat} (hs : s.SrcInside) (hv : ValidEntries es) (hcount : es.length + left ≤ 256)
    (hsrc : s.source = blockBytes s.cfg.wireBE (es.length + left) es ++ rest)
    (hfail : ∀ t tab, Holds t tab es →
      parseEntries left es.length (blockBytes s.cfg.wireBE (es.length + left) es).length rest t tab = .error (e, info)) :
    ∃ t, exec .cbParse s = .next t ∧ Fails s s.clearCodebook e info t := by
  obtain ⟨t, tab, hholds, hparse⟩ := parseBlock_append (be := s.cfg.wireBE) (rest := rest) hv hcount
  rw [← hsrc] at hparse
  exact exec_cbParse_fails hs (hparse.trans (hfail t tab hholds))

/-- Settles O38: one clause per check of the entry stage, in its order. -/
theorem cbParseEntryErrors : Obligations.CbParseEntryErrors := by
  unfold Obligations.CbParseEntryErrors
  intro s es more rest hs hv hcount hsrc p failsWith
  have fails {e : ErrCode} {info : Nat}
      (h : ∀ t tab, Holds t tab es → parseEntries (more + 1) es.length p rest t tab = .error (e, info)) :
      failsWith e info := exec_cbParse_fails_after hs hv hcount hsrc h
  refine ⟨?noSymbol, ?noLength, ?entry⟩
  case noSymbol =>
    rintro rfl
    exact fails fun t tab _ => parseEntries_nil
  case noLength =>
    rintro x rfl
    exact fails fun t tab _ => parseEntries_singleton
  case entry =>
    rintro x len body rfl
    refine ⟨fun h0 => ?zero, fun h0 hshort => ?short, fun h0 hbody hx => ?repeated, fun h0 hbody hx hc => ?conflict⟩
    case zero => exact fails fun t tab _ => parseEntries_of_length_zero h0
    case short => exact fails fun t tab _ => parseEntries_of_short_code h0 hshort
    case repeated =>
      refine fails fun t tab hholds => parseEntries_of_repeated_symbol h0 hbody ?_
      rw [Ne, hholds.length_codeOf_eq_zero hv.ok, not_not]
      exact hx
    case conflict =>
      have hne : unpack body len.toNat ≠ [] := by
        rw [← List.length_pos_iff, unpack_length]
        exact Nat.pos_of_ne_zero (toNat_ne_zero h0)
      exact fails fun t tab hholds => parseEntries_of_conflict h0 hbody
        ((hholds.length_codeOf_eq_zero hv.ok x).2 hx) ((hholds.insertLeaf_eq_none hne).2 hc)

/-! ## The round trips of the wire format -/

/-- Canonical entries are in the one order of their symbols, so a canonical list is the only one of its entries. -/
theorem CanonicalEntries.eq_of_perm {es es' : List WireEntry} (h : CanonicalEntries es) (h' : CanonicalEntries es')
    (hp : es.Perm es') : es = es' := by
  obtain ⟨hsorted, -⟩ := h
  obtain ⟨hsorted', -⟩ := h'
  rw [List.pairwise_map] at hsorted hsorted'
  exact hp.eq_of_pairwise (fun a b _ _ hab hba => absurd hab hba.asymm) hsorted hsorted'

theorem CanonicalEntries.map_canonical {es : List WireEntry} (h : CanonicalEntries es) :
    es.map WireEntry.canonical = es := (List.map_congr_left h.2).trans es.map_id'

/-- The block of legal entries determines them, the count being given. -/
theorem blockBytes_inj {be : Bool} {es es' : List WireEntry} (h : ∀ e ∈ es, e.Ok) (h' : ∀ e ∈ es', e.Ok)
    (hl : es.length = es'.length) (hb : blockBytes be es.length es = blockBytes be es'.length es') : es = es' := by
  rw [blockBytes, blockBytes, hl] at hb
  exact entries_bytes_inj h h' hl (List.append_cancel_left hb)

/-- The block of the parsed table is the block parsed exactly when that was canonical (44_codebook.md R200). -/
theorem blockBytes_tableEntries_eq_iff {be : Bool} {t : Tree} {tab : CodeTable} {es : List WireEntry}
    (h : Holds t tab es) (hv : ValidEntries es) :
    blockBytes be (tableEntries tab).length (tableEntries tab) = blockBytes be es.length es ↔ CanonicalEntries es := by
  have hperm := tableEntries_perm hv h.codes
  constructor
  · intro hb
    have hl : (tableEntries tab).length = es.length := by rw [hperm.length_eq, List.length_map]
    rw [← blockBytes_inj (tableEntries_valid (h.codesLegal hv)).ok hv.ok hl hb]
    exact tableEntries_canonical tab
  · intro hc
    rw [hc.map_canonical] at hperm
    rw [(tableEntries_canonical tab).eq_of_perm hc hperm]

/-- CB_PARSE of a source that starts with a legal table's block takes that table (44_codebook.md R200). -/
theorem exec_cbParse_serialized {s : State} {tab : CodeTable} {rest : List Byte} (hs : s.SrcInside) (hlegal : CodesLegal tab)
    (hsrc : s.source = serializeBlock s.cfg.wireBE tab ++ rest) :
    ∃ t, exec .cbParse s = .next t ∧ t.err = false ∧ t.codetab = tab ∧
      t.inUsed = BitVec.ofNat 32 (serializeBlock s.cfg.wireBE tab).length := by
  rw [serializeBlock_eq] at hsrc ⊢
  obtain ⟨t, b, ht, hsucc, hholds⟩ :=
    exec_cbParse_valid hs (tableEntries_length_le tab) (tableEntries_valid hlegal) hsrc
  refine ⟨t, ht, by rw [hsucc.registers], ?_, by rw [hsucc.registers]⟩
  rw [hsucc.registers]
  exact eq_of_holds_tableEntries hholds.codes

/-- Settles O39: a legal table's block parses to the table, and a parsed table's block is the canonical form of the block
parsed. -/
theorem wireRoundTrip : Obligations.WireRoundTrip := by
  unfold Obligations.WireRoundTrip
  refine ⟨fun s t u _ hlegal ht herr hcfg hsrcIn hsrc hfits hkept => ?serializeParse,
    fun s t es rest hsrcIn hl hv hsrc ht => ?parseSerialize⟩
  case serializeParse =>
    obtain ⟨hs, hout⟩ := cbSerialize_success ht herr
    rw [hout] at hfits hkept
    obtain ⟨rest, hsource⟩ := source_of_output (congrArg BitVec.toNat hsrc) hfits fun k hk =>
      (hkept k hk).trans (hs.written k hk)
    rw [← hcfg] at hsource hs
    obtain ⟨v, hv, hverr, hcodetab, hinUsed⟩ := exec_cbParse_serialized hsrcIn hlegal hsource
    exact ⟨v, hv, hverr, hcodetab, by rw [hinUsed, hs.registers]⟩
  case parseSerialize =>
    obtain ⟨t', b, ht', hsucc, hholds⟩ := exec_cbParse_valid hsrcIn hl hv hsrc
    obtain rfl : t' = t := by simpa [ht'] using ht
    have hcfg : t'.cfg = s.cfg := by rw [hsucc.registers]; rfl
    have hcodetab : t'.codetab = b.codetab := by rw [hsucc.registers]; rfl
    refine ⟨tableEntries b.codetab, tableEntries_perm hv hholds.codes, tableEntries_canonical b.codetab,
      blockBytes_tableEntries_eq_iff hholds hv, fun u hucfg hutab hdst hroom => ?_⟩
    rw [← hcfg, ← hucfg, ← hcodetab, ← hutab, ← serializeBlock_eq] at hroom ⊢
    exact exec_cbSerialize_succeeds hdst hroom

end Sys2Proof.Machine
end

section
/-! PACK_CODES and DECODE_PAYLOAD: the bits they write and read, and that the decode walk has one result for every bit string
(45_payload.md R210 to R214). -/

namespace Sys2Proof.Machine

/-! ## PACK_CODES -/

/-- With a code for every source symbol PACK_CODES ends by whether the packed codes fit DST_CAP (45_payload.md R210). -/
theorem ending_packCodes_of_coded {s : State} (h : ∀ c ∈ s.source, codeOf s.codetab c ≠ []) :
    ending .packCodes s =
      if s.dstCap.toNat < ceil8 (textBits s.codetab s.source).length then .error s .capacity 0
      else .success { s with bitlen := BitVec.ofNat 32 (textBits s.codetab s.source).length }
        (pack (textBits s.codetab s.source)) s.srcLen.toNat := by
  simp only [ending, packCodesEnding, firstUncoded_eq_none.2 h, pack_length]

theorem ending_packCodes_of_uncoded {s : State} {n : Nat} (h : firstUncoded s.codetab 0 s.source = some n) :
    ending .packCodes s = .error s .unknownSymbol n := by
  simp only [ending, packCodesEnding, h]

/-- BITLEN has room for the number of any bits that fit the destination region: BUF has at most 2^28 bytes (00_scope.md
R10). -/
theorem State.lt_of_ceil8_le_dstCap {s : State} (hcfg : s.cfg.legal = true) (hdst : s.DstInside) {n : Nat}
    (hn : ceil8 n ≤ s.dstCap.toNat) : n < 2 ^ 32 := by
  simp only [Config.legal, Bool.and_eq_true, decide_eq_true_eq] at hcfg
  rw [ceil8_le_iff] at hn
  unfold State.DstInside at hdst
  omega

/-- Settles O40: the text's bits are its codes concatenated, and one clause stands for each way PACK_CODES ends. -/
theorem packCodesPacksText : Obligations.PackCodesPacksText := by
  unfold Obligations.PackCodesPacksText
  intro s hok bits
  have hpre := preCheck_eq_none_of_regionsOk hok .packCodes
  refine ⟨fun hcoded hfits => ?success, fun hcoded hfull => ?full, fun n c hc huncoded hbefore => ?unknown⟩
  case success =>
    have hend := (ending_packCodes_of_coded hcoded).trans (if_neg (not_lt.2 hfits))
    obtain ⟨t, ht, hs⟩ := exec_succeeds hpre hend rfl rfl rfl
    refine ⟨t, ht, hs, fun hcfg => ?_⟩
    rw [hs.registers]
    exact Nat.mod_eq_of_lt (State.lt_of_ceil8_le_dstCap hcfg hok.dst hfits)
  case full =>
    exact exec_fails hpre ((ending_packCodes_of_coded hcoded).trans (if_pos hfull)) (by decide) rfl rfl rfl rfl
  case unknown =>
    have hend := ending_packCodes_of_uncoded (firstUncoded_of hc huncoded hbefore)
    exact exec_fails hpre hend (by decide) rfl rfl rfl rfl

/-! ## DECODE_PAYLOAD -/

/-- The bits DECODE_PAYLOAD and BIT_UNPACK read are the first BITLEN bits of the source, when it has that many. -/
theorem State.unpackedSource_eq_unpack_source {s : State} (h : s.bitlen.toNat ≤ 8 * s.srcLen.toNat) :
    s.unpackedSource = unpack s.source s.bitlen.toNat := by
  rw [State.unpackedSource, s.sourceFront_eq_take ((ceil8_le_iff _ _).2 h), unpack_take _ _ _ (ceil8_mul _)]

theorem ending_decodePayload_of_short {s : State} (h : 8 * s.srcLen.toNat < s.bitlen.toNat) :
    ending .decodePayload s = .error s .shortInput 0 := if_pos h

section
variable {s : State} (hlen : s.bitlen.toNat ≤ 8 * s.srcLen.toNat)
include hlen

theorem ending_decodePayload_of_ok {out : List Symbol}
    (h : decodeBits s.tree s.dstCap.toNat (unpack s.source s.bitlen.toNat) = .ok out) :
    ending .decodePayload s = .success s out (ceil8 s.bitlen.toNat) := by
  rw [← State.unpackedSource_eq_unpack_source hlen, State.unpackedSource] at h
  simp only [ending, decodePayloadEnding, if_neg (not_lt.2 hlen), h]

theorem ending_decodePayload_of_error {e : ErrCode} {info : Nat}
    (h : decodeBits s.tree s.dstCap.toNat (unpack s.source s.bitlen.toNat) = .error (e, info)) :
    ending .decodePayload s = .error s e info := by
  rw [← State.unpackedSource_eq_unpack_source hlen, State.unpackedSource] at h
  simp only [ending, decodePayloadEnding, if_neg (not_lt.2 hlen), h]

end

/-- Settles O41: the walk over whole codes gives their symbols. -/
theorem decodePayloadDecodes : Obligations.DecodePayloadDecodes := by
  unfold Obligations.DecodePayloadDecodes
  intro s symbols hok hroot hlen hwalk
  exact exec_succeeds (preCheck_eq_none_of_regionsOk hok .decodePayload)
    (ending_decodePayload_of_ok hlen (hwalk.decodeBits hroot)) rfl rfl rfl

/-- Settles O42: SHORT_INPUT comes before the walk, and any other error is the walk's. -/
theorem decodePayloadErrors : Obligations.DecodePayloadErrors := by
  unfold Obligations.DecodePayloadErrors
  intro s hok
  have hpre := preCheck_eq_none_of_regionsOk hok .decodePayload
  refine ⟨fun hshort => ?short, fun e info hroot hlen hwalk => ?walk⟩
  case short => exact exec_fails hpre (ending_decodePayload_of_short hshort) (by decide) rfl rfl rfl rfl
  case walk =>
    have hbits := hwalk.decodeBits hroot
    exact exec_fails hpre (ending_decodePayload_of_error hlen hbits) (walkDecode_err hbits) rfl rfl rfl rfl

/-! ## The decode walk has one result -/

theorem Tree.isInner_iff {t : Tree} : t.isInner = true ↔ ∃ l r, t = .inner l r := by
  cases t <;> simp [Tree.isInner]

/-- From an `Inner` node any bits lead to a leaf, or to a bit with no child, or end at an `Inner` node. -/
theorem Tree.follow_cases {t : Tree} (ht : t.isInner = true) (bits : List Bool) :
    (∃ p c rest, t.follow p = .leaf c ∧ bits = p ++ rest) ∨
    (∃ p b rest l r, t.follow p = .inner l r ∧ (Tree.inner l r).child b = .absent ∧ bits = p ++ b :: rest) ∨
    ∃ l r, t.follow bits = .inner l r := by
  induction bits generalizing t with
  | nil => exact .inr (.inr (Tree.isInner_iff.1 ht))
  | cons b bits ih =>
    obtain ⟨l, r, rfl⟩ := Tree.isInner_iff.1 ht
    cases hc : (Tree.inner l r).child b with
    | absent => exact .inr (.inl ⟨[], b, bits, l, r, rfl, hc, rfl⟩)
    | leaf c => exact .inl ⟨[b], c, bits, hc, rfl⟩
    | inner l' r' =>
      have hstep : ∀ p, (Tree.inner l r).follow (b :: p) = (Tree.inner l' r').follow p := fun p => by rw [Tree.follow, hc]
      simp only [hstep]
      rcases ih (t := .inner l' r') rfl with ⟨p, c, rest, hp, rfl⟩ | ⟨p, b', rest, l₁, r₁, hp, hb', rfl⟩ | hend
      · exact .inl ⟨b :: p, c, rest, (hstep p).trans hp, rfl⟩
      · exact .inr (.inl ⟨b :: p, b', rest, l₁, r₁, (hstep p).trans hp, hb', rfl⟩)
      · exact .inr (.inr hend)

section
variable {t : Tree} {cap : Nat} {bits : List Bool} {p : Code} {c : Symbol} (hp : t.follow p = .leaf c)
include hp

theorem WalkGives.cons {symbols : List Symbol} (h : WalkGives t cap bits symbols) :
    WalkGives t (cap + 1) (p ++ bits) (c :: symbols) := by
  obtain ⟨out, hout, hcap, rfl, rfl⟩ := h
  exact ⟨(c, p) :: out, List.forall_mem_cons.2 ⟨hp, hout⟩, Nat.succ_le_succ hcap, rfl, rfl⟩

/-- A code in front of bits that fail moves the failure on; ERR_INFO counts its bits, but for CAPACITY. -/
theorem WalkFails.cons {e : ErrCode} {info : Nat} (h : WalkFails t cap bits e info) :
    ∃ info', WalkFails t (cap + 1) (p ++ bits) e info' := by
  obtain ⟨out, hout, hcap, h⟩ := h
  have hout' : ∀ x ∈ (c, p) :: out, t.follow x.2 = .leaf x.1 := List.forall_mem_cons.2 ⟨hp, hout⟩
  have hcap' := Nat.succ_le_succ hcap
  have hbits : ∀ q, p ++ ((out.map Prod.snd).flatten ++ q) = (((c, p) :: out).map Prod.snd).flatten ++ q := fun q => by simp
  rcases h with ⟨rfl, -, q, l, r, hq, hf, rfl⟩ | ⟨rfl, q, b, rest, l, r, hf, hb, rfl, -⟩ |
    ⟨rfl, -, hfull, q, x, rest, hf, rfl⟩
  · exact ⟨_, (c, p) :: out, hout', hcap', .inl ⟨rfl, rfl, q, l, r, hq, hf, hbits q⟩⟩
  · exact ⟨_, (c, p) :: out, hout', hcap', .inr (.inl ⟨rfl, q, b, rest, l, r, hf, hb, hbits _, rfl⟩)⟩
  · exact ⟨0, (c, p) :: out, hout', hcap', .inr (.inr ⟨rfl, rfl, congrArg (· + 1) hfull, q, x, rest, hf, hbits _⟩)⟩

end

theorem walkGives_nil (t : Tree) (cap : Nat) : WalkGives t cap [] [] := ⟨[], nofun, Nat.zero_le _, rfl, rfl⟩

/-- Bits that do not begin with a whole code are none at all, or fail at the first code (45_payload.md R213, R214). -/
theorem begins_with_code_or_fails {t : Tree} (ht : t.isInner = true) (cap : Nat) (bits : List Bool) :
    (∃ p c rest, t.follow p = .leaf c ∧ bits = p ++ rest) ∨ bits = [] ∨ ∃ e info, WalkFails t cap bits e info := by
  rcases Tree.follow_cases ht bits with hleaf | ⟨p, b, rest, l, r, hf, hb, rfl⟩ | ⟨l, r, hend⟩
  · exact .inl hleaf
  · exact .inr (.inr ⟨.badPath, _, [], nofun, Nat.zero_le _, .inr (.inl ⟨rfl, p, b, rest, l, r, hf, hb, rfl, rfl⟩)⟩)
  · by_cases hbits : bits = []
    · exact .inr (.inl hbits)
    · exact .inr (.inr ⟨.truncatedStream, _, [], nofun, Nat.zero_le _, .inl ⟨rfl, rfl, bits, l, r, hbits, hend, rfl⟩⟩)

/-- Every bit string decodes or fails: code by code, as far as the capacity reaches (45_payload.md R212 to R214). -/
theorem walkGives_or_walkFails {t : Tree} (ht : t.isInner = true) (cap : Nat) (bits : List Bool) :
    (∃ symbols, WalkGives t cap bits symbols) ∨ ∃ e info, WalkFails t cap bits e info := by
  induction cap generalizing bits with
  | zero =>
    rcases begins_with_code_or_fails ht 0 bits with ⟨p, c, rest, hp, rfl⟩ | rfl | hfails
    · exact .inr ⟨.capacity, 0, [], nofun, Nat.le_refl 0, .inr (.inr ⟨rfl, rfl, rfl, p, c, rest, hp, rfl⟩)⟩
    · exact .inl ⟨[], walkGives_nil t 0⟩
    · exact .inr hfails
  | succ cap ih =>
    rcases begins_with_code_or_fails ht (cap + 1) bits with ⟨p, c, rest, hp, rfl⟩ | rfl | hfails
    · rcases ih rest with ⟨symbols, hgives⟩ | ⟨e, info, hfails⟩
      · exact .inl ⟨c :: symbols, hgives.cons hp⟩
      · exact .inr ⟨e, hfails.cons hp⟩
    · exact .inl ⟨[], walkGives_nil t _⟩
    · exact .inr hfails

/-- Settles O43: the walk's result is the one of the ways that holds, so no two of them do. -/
theorem decodeWalkIsTotal : Obligations.DecodeWalkIsTotal := by
  unfold Obligations.DecodeWalkIsTotal
  intro t cap bits ht
  have htotal := walkGives_or_walkFails ht cap bits
  refine ⟨htotal, fun symbols => ⟨fun h => h.decodeBits ht, fun hok => ?gives⟩,
    fun e info => ⟨fun h => h.decodeBits ht, fun herr => ?fails⟩⟩
  case gives =>
    rcases htotal with ⟨symbols', h⟩ | ⟨e, info, h⟩
    · obtain rfl : symbols' = symbols := by simpa [h.decodeBits ht] using hok
      exact h
    · simp [h.decodeBits ht] at hok
  case fails =>
    rcases htotal with ⟨symbols, h⟩ | ⟨e', info', h⟩
    · simp [h.decodeBits ht] at herr
    · obtain ⟨rfl, rfl⟩ : e' = e ∧ info' = info := by simpa [h.decodeBits ht] using herr
      exact h

end Sys2Proof.Machine
end

section
/-! ENCODE_FRAME and DECODE_FRAME: what the one writes, how the other reads it, and that the second undoes the first
(45_payload.md R215 to R219). -/

namespace Sys2Proof.Machine

/-! ## ENCODE_FRAME -/

/-- The bits ENCODE_FRAME makes of the source text (45_payload.md R215). -/
def State.encodedBits (s : State) : List Bool := textBits s.rebuildFromSource.codetab s.source

/-- The frame ENCODE_FRAME makes of the source text (45_payload.md R215). -/
def State.encodedFrame (s : State) : List Byte := frameOf s.cfg.wireBE s.rebuildFromSource.codetab s.source

/-- The tables and BITLEN as a successful ENCODE_FRAME leaves them (45_payload.md R215). -/
def State.encoded (s : State) : State :=
  { s.rebuildFromSource with bitlen := BitVec.ofNat 32 s.encodedBits.length }

theorem ending_encodeFrame (s : State) :
    ending .encodeFrame s =
      if s.dstCap.toNat < s.encodedFrame.length then .error s.rebuildFromSource .capacity 0
      else .success s.encoded s.encodedFrame s.srcLen.toNat := rfl

/-- A frame that fits DST_CAP is written (45_payload.md R215). -/
theorem exec_encodeFrame_succeeds {s : State} (hok : s.RegionsOk) (hfits : s.encodedFrame.length ≤ s.dstCap.toNat) :
    ∃ t, exec .encodeFrame s = .next t ∧ Succeeds s s.encoded s.encodedFrame s.srcLen.toNat t :=
  exec_succeeds (preCheck_eq_none_of_regionsOk hok .encodeFrame)
    ((ending_encodeFrame s).trans (if_neg (not_lt.2 hfits))) rfl rfl rfl

/-- A frame that does not fit DST_CAP raises CAPACITY and keeps the rebuilt tables (45_payload.md R215). -/
theorem exec_encodeFrame_fails {s : State} (hok : s.RegionsOk) (hfull : s.dstCap.toNat < s.encodedFrame.length) :
    ∃ t, exec .encodeFrame s = .next t ∧ Fails s s.rebuildFromSource .capacity 0 t :=
  exec_fails (preCheck_eq_none_of_regionsOk hok .encodeFrame)
    ((ending_encodeFrame s).trans (if_pos hfull)) (by decide) rfl rfl rfl rfl

section
variable {s u t : State} {out : List Byte} {n : Nat} (h : Succeeds s u out n t)
include h

theorem Succeeds.err : t.err = false := by rw [h.registers]

theorem Succeeds.bitlen : t.bitlen = u.bitlen := by rw [h.registers]

theorem Succeeds.codetab : t.codetab = u.codetab := by rw [h.registers]

theorem Succeeds.outLen : t.outLen = BitVec.ofNat 32 out.length := by rw [h.registers]

theorem Succeeds.inUsed : t.inUsed = BitVec.ofNat 32 n := by rw [h.registers]

/-- OUT_LEN has room for the length of an output that fits DST_CAP. -/
theorem Succeeds.outLen_toNat (hfits : out.length ≤ s.dstCap.toNat) : t.outLen.toNat = out.length := by
  rw [h.outLen]
  exact Nat.mod_eq_of_lt (hfits.trans_lt s.dstCap.isLt)

end

/-- A successful ENCODE_FRAME wrote the frame of its source text, and OUT_LEN holds the frame's length (45_payload.md
R215). -/
theorem exec_encodeFrame_success {s t : State} (h : exec .encodeFrame s = .next t) (herr : t.err = false) :
    Succeeds s s.encoded s.encodedFrame s.srcLen.toNat t ∧ t.outLen.toNat = s.encodedFrame.length := by
  obtain ⟨u, out, n, hend, hs⟩ := exec_success_of_err h herr
  have hlen := hs.outLen_toNat (ending_success hend).2.1
  rw [ending_encodeFrame] at hend
  split at hend
  · cases hend
  · cases hend
    exact ⟨hs, hlen⟩

/-- Every symbol of the source text has a code in the rebuilt table (45_payload.md R215). -/
theorem State.codeOf_rebuilt_ne_nil {s : State} {c : Symbol} (h : c ∈ s.source) :
    codeOf s.rebuildFromSource.codetab c ≠ [] := codeOf_buildTree_ne_nil (count_pos_of_mem_source h)

/-- Settles O44: the tables are those of the source's counts, and the frame is written when it fits. -/
theorem encodeFrameWritesFrame : Obligations.EncodeFrameWritesFrame := by
  unfold Obligations.EncodeFrameWritesFrame
  intro s hok
  refine ⟨s.rebuildFromSource.freq, s.rebuildFromSource.tree, s.rebuildFromSource.codetab, _,
    textBits s.rebuildFromSource.codetab s.source, s.countOf_rebuildFromSource, rfl, rfl,
    fun c => State.codeOf_rebuilt_ne_nil, rfl, rfl, ?_⟩
  rw [← frameOf_eq, ← frameOf_length]
  refine ⟨fun hfits => ?fits, exec_encodeFrame_fails hok⟩
  case fits =>
    obtain ⟨t, ht, hs⟩ := exec_encodeFrame_succeeds hok hfits
    refine ⟨t, ht, hs, fun hcfg => ?_⟩
    rw [hs.bitlen]
    exact Nat.mod_eq_of_lt (State.rebuilt_textBits_lt hcfg hok.src)

/-! ## The empty text and the one-symbol text -/

theorem codedSymbols_noCodes : codedSymbols noCodes = [] := by simp [codedSymbols]

/-- The codebook of the empty text is empty (45_payload.md R219). -/
theorem State.rebuilt_codetab_of_empty {s : State} (h : s.source = []) : s.rebuildFromSource.codetab = noCodes := by
  have halpha : alphabet (countSymbols s.source) = [] := alphabet_eq_nil fun c => by simp [h, countSymbols]
  change assignCodes (buildTree (countSymbols s.source)) = noCodes
  rw [buildTree_of_empty halpha]
  rfl

/-- The frame of the empty text: a count and two lengths of 0 (45_payload.md R219). -/
theorem frameOf_noCodes_nil (be : Bool) : frameOf be noCodes [] = List.replicate 12 0 := by
  rw [frameOf, serializeBlock, codedSymbols_noCodes]
  simp [textBits, pack, ceil8, wireBytes32_zero]

/-- The codebook of a text of one symbol gives it the code "0" (41_frequency_tree.md R157). -/
theorem State.rebuilt_codetab_of_single {s : State} {c : Symbol} (hne : s.source ≠ []) (h : ∀ b ∈ s.source, b = c) :
    s.rebuildFromSource.codetab = setCode noCodes c [false] := by
  have hmem : c ∈ s.source := by
    obtain ⟨b, hb⟩ := List.exists_mem_of_ne_nil _ hne
    exact h b hb ▸ hb
  have halpha : alphabet (countSymbols s.source) = [c] := alphabet_eq_singleton fun b => by
    rw [← mem_alphabet_iff_ne_zero, mem_alphabet, countOf_countSymbols _ (source_lt s), List.count_pos_iff]
    exact ⟨h b, fun hb => hb ▸ hmem⟩
  change assignCodes (buildTree (countSymbols s.source)) = _
  rw [buildTree_of_single halpha]
  rfl

theorem codedSymbols_setCode_noCodes {c : Symbol} {p : Code} (hp : p ≠ []) :
    codedSymbols (setCode noCodes c p) = [c] := by
  refine List.perm_singleton.1 ((List.perm_ext_iff_of_nodup (codedSymbols_nodup _) (List.nodup_singleton c)).2 fun x => ?_)
  rw [mem_codedSymbols, codeOf_setCode, List.mem_singleton]
  by_cases hx : c = x
  · simp [hx, hp]
  · simp [hx, Ne.symm hx]

section
variable (c : Symbol) (m : Nat)

theorem codeOf_setCode_noCodes_self (p : Code) : codeOf (setCode noCodes c p) c = p := by rw [codeOf_setCode, if_pos rfl]

/-- The bits of a text of one symbol with the code "0" (45_payload.md R219). -/
theorem textBits_replicate : textBits (setCode noCodes c [false]) (List.replicate m c) = List.replicate m false := by
  rw [textBits, List.flatMap_replicate, codeOf_setCode_noCodes_self]
  simp

/-- The frame of a text of one symbol with the code "0": fifteen bytes, then the payload of zero bytes (45_payload.md
R219). -/
theorem frameOf_replicate (be : Bool) :
    frameOf be (setCode noCodes c [false]) (List.replicate m c) =
      (wireBytes32 be 1 ++ [c, 1, 0] ++ wireBytes32 be m ++ wireBytes32 be (ceil8 m)) ++ List.replicate (ceil8 m) 0 := by
  have hentry : serializeEntry (setCode noCodes c [false]) c = [c, 1, 0] := by
    rw [serializeEntry, codeOf_setCode_noCodes_self]
    rfl
  rw [frameOf, serializeBlock, codedSymbols_setCode_noCodes (by simp), textBits_replicate, pack_replicate_false]
  simp [hentry]

end

/-- Settles O50: both frames are written out in full. -/
theorem degenerateTextsEncode : Obligations.DegenerateTextsEncode := by
  unfold Obligations.DegenerateTextsEncode
  refine ⟨fun s hok hlen hroom => ?empty, fun s c hok hlen hall hroom => ?single⟩
  case empty =>
    have hsource : s.source = [] := List.length_eq_zero_iff.1 (by rw [s.source_length, hlen]; rfl)
    have hframe : s.encodedFrame = List.replicate 12 0 := by
      rw [State.encodedFrame, State.rebuilt_codetab_of_empty hsource, hsource, frameOf_noCodes_nil]
    obtain ⟨t, ht, hs⟩ := exec_encodeFrame_succeeds hok (by rw [hframe]; exact hroom)
    have hbitlen : s.encoded.bitlen = 0 := by rw [State.encoded, State.encodedBits, hsource]; rfl
    rw [hframe] at hs
    refine ⟨t, ht, hs.err, hs.outLen, hs.bitlen.trans hbitlen, fun k hk => ?_⟩
    rw [hs.written k hk, List.getElem?_replicate, if_pos hk]
  case single =>
    have hne : s.source ≠ [] := fun h => hlen (BitVec.eq_of_toNat_eq (by rw [← s.source_length, h]; rfl))
    have htab := State.rebuilt_codetab_of_single hne hall
    have hsource : s.source = List.replicate s.srcLen.toNat c := List.eq_replicate_iff.2 ⟨s.source_length, hall⟩
    have hframe := frameOf_replicate c s.srcLen.toNat s.cfg.wireBE
    rw [← hsource, ← htab, ← State.encodedFrame] at hframe
    have hlength : s.encodedFrame.length = 15 + ceil8 s.srcLen.toNat := by
      rw [hframe, List.length_append, List.length_replicate]
      simp
    have hbitlen : s.encoded.bitlen = s.srcLen := by
      rw [State.encoded, State.encodedBits, htab, hsource, textBits_replicate, List.length_replicate, BitVec.ofNat_toNat,
        BitVec.setWidth_eq]
    obtain ⟨t, ht, hs⟩ := exec_encodeFrame_succeeds hok (hlength.trans_le hroom)
    have hcodetab : t.codetab = setCode noCodes c [false] := hs.codetab.trans htab
    refine ⟨t, ht, hs.err, ?code, ?symCount, hs.bitlen.trans hbitlen,
      (hs.outLen_toNat (hlength.trans_le hroom)).trans hlength, fun k hk => ?payload⟩
    case code => rw [hcodetab, codeOf_setCode_noCodes_self]
    case symCount => rw [hcodetab, symCount, codedSymbols_setCode_noCodes (by simp), List.length_singleton]
    case payload =>
      rw [Nat.add_assoc, hs.written (15 + k) (by rw [hlength, ceil8]; omega), hframe, List.getElem?_append_right (by simp)]
      simp [ceil8, hk]

/-! ## DECODE_FRAME after a valid block -/

section
variable {s : State} {es : List WireEntry}

/-- An error of the frame tail after a valid block keeps the parsed codebook (45_payload.md R216, R217). -/
theorem exec_decodeFrame_fails_of_frameTail {rest : List Byte} {e : ErrCode} {info : Nat} (hok : s.RegionsOk)
    (hl : es.length ≤ 256) (hv : ValidEntries es) (hsrc : s.source = blockBytes s.cfg.wireBE es.length es ++ rest)
    (h : frameTail s.cfg.wireBE s.source (blockBytes s.cfg.wireBE es.length es).length = .error (e, info)) :
    ∃ t T tab, exec .decodeFrame s = .next t ∧ Fails s { s with tree := T, codetab := tab } e info t ∧
      HoldsEntries tab es ∧ LeavesAre T es := by
  obtain ⟨b, hholds, hused, hend⟩ := decodeFrame_after_block hl hv hsrc
  simp only [hused, h] at hend
  obtain ⟨t, ht, hf⟩ := exec_fails (preCheck_eq_none_of_regionsOk hok .decodeFrame) hend (frameTail_err h) rfl rfl rfl rfl
  exact ⟨t, b.tree, b.codetab, ht, hf, hholds.codes, hholds.leavesAre⟩

/-- Past a frame tail that is right DECODE_FRAME ends as the walk over the payload's bits does (45_payload.md R216). -/
theorem ending_decodeFrame_of_tail {bl pl : Nat} {body : List Byte} (hl : es.length ≤ 256) (hv : ValidEntries es)
    (hbl : bl < 2 ^ 32) (hpl : pl < 2 ^ 32) (hbits : ceil8 bl ≤ pl) (hbody : pl ≤ body.length)
    (hsrc : s.source = blockBytes s.cfg.wireBE es.length es
      ++ (wireBytes32 s.cfg.wireBE bl ++ (wireBytes32 s.cfg.wireBE pl ++ body))) :
    ∃ b : ParsedBlock, Holds b.tree b.codetab es ∧
      (∀ out, decodeBits b.tree s.dstCap.toNat (unpack body bl) = .ok out →
        ending .decodeFrame s = .success { s.loadCodebook b with bitlen := BitVec.ofNat 32 bl } out
          ((blockBytes s.cfg.wireBE es.length es).length + 8 + pl)) ∧
      ∀ e info, decodeBits b.tree s.dstCap.toNat (unpack body bl) = .error (e, info) →
        ending .decodeFrame s = .error (s.loadCodebook b) e info := by
  obtain ⟨b, hholds, hused, hend⟩ := decodeFrame_after_block hl hv hsrc
  have htail := (congrArg (frameTail _ · _) hsrc).trans
    ((frameTail_valid hbl hpl).trans ((if_neg (not_lt.2 hbits)).trans (if_neg (not_lt.2 hbody))))
  simp only [hused, htail, payload_bits hsrc] at hend
  exact ⟨b, hholds, fun out h => by simpa only [h] using hend, fun e info h => by simpa only [h] using hend⟩

end

/-- Settles O46: the block parses, the tail agrees, and the walk over whole codes gives their symbols. -/
theorem decodeFrameDecodes : Obligations.DecodeFrameDecodes := by
  unfold Obligations.DecodeFrameDecodes
  intro s es bl pl payload rest symbols hok hl hv hbl hpl hbits hpayload hsrc hwalk
  obtain ⟨b, hholds, hgives, -⟩ := ending_decodeFrame_of_tail hl hv hbl hpl hbits (by simp [hpayload]) hsrc
  have hleaves := hholds.leavesAre
  have hsymbols := (hwalk b.tree hleaves).decodeBits hleaves.rootInner
  rw [← unpack_append payload rest bl (by rw [hpayload]; exact (ceil8_le_iff _ _).1 hbits)] at hsymbols
  obtain ⟨t, ht, hs⟩ := exec_succeeds (preCheck_eq_none_of_regionsOk hok .decodeFrame) (hgives _ hsymbols) rfl rfl rfl
  exact ⟨t, b.tree, b.codetab, ht, hs, hholds.codes, hleaves⟩

/-- Settles O47: one clause per check of the frame tail, in its order, then the walk's errors. -/
theorem decodeFrameTailErrors : Obligations.DecodeFrameTailErrors := by
  unfold Obligations.DecodeFrameTailErrors
  intro s es rest hok hl hv hsrc q failsWith
  have hlen : s.source.length = q + rest.length := by rw [hsrc, List.length_append]
  refine ⟨fun h => ?bitLength, fun h h' => ?payloadLength, fun bl pl body hbl hpl hrest => ?_⟩
  case bitLength => exact exec_decodeFrame_fails_of_frameTail hok hl hv hsrc (if_pos (by omega))
  case payloadLength =>
    exact exec_decodeFrame_fails_of_frameTail hok hl hv hsrc ((if_neg (by omega)).trans (if_pos (by omega)))
  subst hrest
  have htail := (congrArg (frameTail s.cfg.wireBE · q) hsrc).trans (frameTail_valid hbl hpl)
  refine ⟨fun h => ?malformed, fun h hshort => ?payload, fun e info h hbody hwalk => ?walk⟩
  case malformed => exact exec_decodeFrame_fails_of_frameTail hok hl hv hsrc (htail.trans (if_pos h))
  case payload =>
    exact exec_decodeFrame_fails_of_frameTail hok hl hv hsrc (htail.trans ((if_neg (not_lt.2 h)).trans (if_pos hshort)))
  case walk =>
    obtain ⟨b, hholds, -, hfails⟩ := ending_decodeFrame_of_tail hl hv hbl hpl h hbody hsrc
    have hleaves := hholds.leavesAre
    have herr := (hwalk b.tree hleaves).decodeBits hleaves.rootInner
    obtain ⟨t, ht, hf⟩ := exec_fails (preCheck_eq_none_of_regionsOk hok .decodeFrame) (hfails e info herr)
      (walkDecode_err herr) rfl rfl rfl rfl
    exact ⟨t, b.tree, b.codetab, ht, hf, hholds.codes, hleaves⟩

/-! ## DECODE_FRAME of a written frame -/

/-- The walk of a table's tree over a text's bits gives the text back (45_payload.md R218). -/
theorem walkGives_textBits {T : Tree} {tab : CodeTable} (hT : LeavesAre T (tableEntries tab)) {text : List Byte}
    (hcoded : ∀ c ∈ text, codeOf tab c ≠ []) {cap : Nat} (hcap : text.length ≤ cap) :
    WalkGives T cap (textBits tab text) text := by
  refine ⟨text.map fun c => (c, codeOf tab c), fun x hx => ?_, by rwa [List.length_map], textBits_eq tab text,
    by simp [Function.comp_def]⟩
  obtain ⟨c, hc, rfl⟩ := List.mem_map.1 hx
  exact (hT.leaves c _).2 ⟨⟨c, codeOf tab c, pack (codeOf tab c)⟩,
    (mem_tableEntries tab _).2 ⟨hcoded c hc, rfl, rfl⟩, rfl, rfl⟩

/-- DECODE_FRAME of a source that starts with the frame of a text writes the text (45_payload.md R218). -/
theorem exec_decodeFrame_of_frameOf {u : State} {tab : CodeTable} {text rest : List Byte} (hu : u.RegionsOk)
    (hlegal : CodesLegal tab) (hcoded : ∀ c ∈ text, codeOf tab c ≠ []) (hbits : (textBits tab text).length < 2 ^ 32)
    (hroom : text.length ≤ u.dstCap.toNat) (hsrc : u.source = frameOf u.cfg.wireBE tab text ++ rest) :
    ∃ v T tab', exec .decodeFrame u = .next v ∧
      Succeeds u { u with tree := T, codetab := tab', bitlen := BitVec.ofNat 32 (textBits tab text).length } text
        (frameOf u.cfg.wireBE tab text).length v := by
  have hpack : (pack (textBits tab text)).length < 2 ^ 32 := by rw [pack_length, ceil8]; omega
  have hparts : u.source = blockBytes u.cfg.wireBE (tableEntries tab).length (tableEntries tab)
      ++ (wireBytes32 u.cfg.wireBE (textBits tab text).length
        ++ (wireBytes32 u.cfg.wireBE (pack (textBits tab text)).length ++ (pack (textBits tab text) ++ rest))) := by
    rw [hsrc, frameOf, serializeBlock_eq]
    simp only [List.append_assoc]
  obtain ⟨v, T, tab', hv, hs, -⟩ := decodeFrameDecodes u (tableEntries tab) _ _ _ rest text hu (tableEntries_length_le tab)
    (tableEntries_valid hlegal) hbits hpack (pack_length _).ge rfl hparts fun T hT => by
      rw [unpack_pack]
      exact walkGives_textBits hT hcoded hroom
  refine ⟨v, T, tab', hv, ?_⟩
  rwa [← serializeBlock_eq, pack_length, ceil8, ← frameOf_length] at hs

/-- Settles O49: DECODE_FRAME's source begins with the frame of ENCODE_FRAME's text, whose codes are legal. -/
theorem frameRoundTrip : Obligations.FrameRoundTrip := by
  unfold Obligations.FrameRoundTrip
  intro s t u hcfg hok ht herr hucfg hu hsrc hfits hroom hkept
  obtain ⟨hs, hout⟩ := exec_encodeFrame_success ht herr
  rw [hout] at hfits hkept
  obtain ⟨rest, hsource⟩ := source_of_output (congrArg BitVec.toNat hsrc) hfits fun k hk =>
    (hkept k hk).trans (hs.written k hk)
  rw [State.encodedFrame, ← hucfg] at hsource
  obtain ⟨v, T, tab, hv, hsv⟩ := exec_decodeFrame_of_frameOf hu (buildTree_legal _).assignCodes_legal
    (fun c => State.codeOf_rebuilt_ne_nil) (State.rebuilt_textBits_lt hcfg hok.src)
    (s.source_length.trans_le hroom) hsource
  have houtLen : v.outLen = s.srcLen := by rw [hsv.outLen, s.source_length, BitVec.ofNat_toNat, BitVec.setWidth_eq]
  have hinUsed : v.inUsed = t.outLen := by rw [hsv.inUsed, hs.outLen, hucfg]; rfl
  refine ⟨v, hv, hsv.err, houtLen, hinUsed, hsv.bitlen.trans hs.bitlen.symm, fun k hk => ?_⟩
  rw [hsv.written k (hk.trans_eq s.source_length.symm), s.source_getElem?, if_pos hk]

end Sys2Proof.Machine
end

section
/-! Errors, the interrupt line and the idle machine (60_exceptions.md R271, R276, R285). -/

namespace Sys2Proof.Machine

/-! ## The error codes -/

/-- Settles O57: each number is its code's row of the table. -/
theorem errorCodesAreNumbered : Obligations.ErrorCodesAreNumbered := by
  unfold Obligations.ErrorCodesAreNumbered
  exact ⟨rfl, rfl, rfl, rfl, rfl, rfl, rfl, rfl, rfl, rfl, rfl⟩

/-! ## The idle machine -/

theorem sequencerTurn_of_idle {s : State} (hidle : s.busy = false) : sequencerTurn s = .next s := by
  simp [sequencerTurn, hidle]

/-- Settles O6: with no event and at a turn alike the step is the sequencer's, which has nothing to complete. -/
theorem idleMachineHoldsState : Obligations.IdleMachineHoldsState := by
  unfold Obligations.IdleMachineHoldsState
  refine fun s hidle => ⟨fun hin => ?noEvent, fun rest hin => ?turn⟩
  case noEvent => simp only [step, hin, sequencerTurn_of_idle hidle]
  case turn =>
    have hidle' : { s with inputs := rest }.busy = false := hidle
    simp only [step, hin, hostEvent, sequencerTurn_of_idle hidle']

/-! ## The interrupt line -/

section
variable {s : State}

/-- With DONE set the line shows CTRL.IE (60_exceptions.md R276). -/
theorem State.irq_of_done (h : s.done = true) : s.irq = s.ie := by rw [State.irq, h, Bool.and_true]

theorem State.irq_of_not_done (h : s.done = false) : s.irq = false := by rw [State.irq, h, Bool.and_false]

/-- With CTRL.IE clear the line is low, whatever DONE is (60_exceptions.md R276). -/
theorem State.irq_of_masked (h : s.ie = false) : s.irq = false := by rw [State.irq, h, Bool.false_and]

end

/-- Settles O19: a completion sets DONE and keeps IE, an issue and the STATUS write clear DONE, the CTRL write clears IE. -/
theorem interruptFollowsCompletion : Obligations.InterruptFollowsCompletion := by
  unfold Obligations.InterruptFollowsCompletion
  refine ⟨fun s i => ?completion, fun s w => ?issue, fun s r v hr hv => ?status, fun s v hv => ?ctrl⟩
  case completion =>
    obtain ⟨t, ht⟩ := exec_next i s
    obtain ⟨-, hdone, -, -, hie, -⟩ := exec_common ht
    exact ⟨t, ht, (State.irq_of_done hdone).trans hie, hie⟩
  case issue => exact State.irq_of_not_done (s.issue_done w)
  case status =>
    subst hr
    have hdone : (s.writeStatus v).done = false := by simp [hv]
    exact State.irq_of_not_done hdone
  case ctrl => exact ⟨State.irq_of_masked ((s.writeCtrl_ie v).trans hv), s.writeCtrl_done v⟩

end Sys2Proof.Machine
end

section
/-! Reset: the values it gives, that a pulse gives them whatever runs, and that they satisfy the invariant
(70_reset_and_hazards.md R300, R301). -/

namespace Sys2Proof.Machine

/-! ## The reset tables -/

theorem symCount_noCodes : symCount noCodes = 0 := by rw [symCount, codedSymbols_noCodes, List.length_nil]

theorem maxCodeLen_noCodes : maxCodeLen noCodes = 0 := by
  obtain ⟨c, hc⟩ := exists_length_codeOf_eq_maxCodeLen noCodes
  rw [← hc, codeOf_noCodes, List.length_nil]

section
variable (c : Config)

theorem State.resetWith_freq : (State.resetWith c).freq = noCounts := rfl

theorem State.resetWith_codetab : (State.resetWith c).codetab = noCodes := rfl

/-- After reset no byte of BUF holds a defined value (20_memory.md R70). -/
theorem State.resetWith_readByte (a : Nat) : (State.resetWith c).buf.readByte a = none := rfl

/-- Reset clears CTRL.IE, so the line is low (60_exceptions.md R276). -/
theorem State.resetWith_irq : (State.resetWith c).irq = false := State.irq_of_masked rfl

end

/-- Settles O20: the stored values are those `resetWith` writes; the derived ones follow from the empty tables. -/
theorem resetValues : Obligations.ResetValues := by
  unfold Obligations.ResetValues State.reset
  refine ⟨rfl, rfl, rfl, rfl, rfl, rfl, rfl, rfl, rfl, rfl, rfl, rfl, rfl, rfl, rfl, rfl, rfl, rfl, rfl,
    fun s => ?freq, fun s => ?codetab, rfl, rfl, ?symCount, ?maxCodeLen, State.resetWith_irq _, State.resetWith_readByte _⟩
  case freq => rw [State.resetWith_freq, countOf_noCounts]
  case codetab => rw [State.resetWith_codetab, codeOf_noCodes]
  case symCount => rw [State.resetWith_codetab, symCount_noCodes]
  case maxCodeLen => rw [State.resetWith_codetab, maxCodeLen_noCodes]

/-! ## The reset pulse -/

/-- A reset pulse completes no command: the step is the reset itself, busy or not (70_reset_and_hazards.md R301). -/
theorem step_resetPulse {s : State} {rest : List HostEvent} (hin : s.inputs = .resetPulse :: rest) :
    step s = .next { s with inputs := rest }.resetPulse := by
  simp only [step, hin, hostEvent]

/-- Settles O21: the pulse keeps the parameters, the events to come and the value last read, and draws once. -/
theorem resetPulseAbandonsCommand : Obligations.ResetPulseAbandonsCommand := by
  unfold Obligations.ResetPulseAbandonsCommand
  intro s rest hin
  exact ⟨_, step_resetPulse hin, rfl, State.resetWith_readByte s.cfg⟩

/-! ## The invariant -/

theorem configDefault_legal : Config.default.legal = true := by decide

/-- Settles O55: the default parameters are one legal choice. -/
theorem resetSatisfiesInvariant : Obligations.ResetSatisfiesInvariant :=
  ⟨State.resetWith_inv configDefault_legal, fun _ => State.resetWith_inv⟩

end Sys2Proof.Machine
end
